-- ==== Sys2Proof/Word.lean ====
section
/-! DEFINITION. The word types of the rANS range decoder and its plainest arithmetic (00_scope.md R7). -/

namespace Sys2Proof

/-- A `u8`: one byte of the slice or of the container stream. -/
abbrev Byte := BitVec 8

/-- 32 bits: read as `u32` with `toNat`, as `i32` with `toInt` (R7). -/
abbrev Word := BitVec 32

/-- Three like things, one per axis, in the order x, y, z (R11, R107). -/
structure Triple (α : Type) where
  /-- lane 0, the x axis, the first symbol decoded -/
  x : α
  /-- lane 1, the y axis -/
  y : α
  /-- lane 2, the z axis -/
  z : α
  deriving DecidableEq, Repr

/-- One function on the three lanes. -/
def Triple.map {α β : Type} (f : α → β) (t : Triple α) : Triple β :=
  ⟨f t.x, f t.y, f t.z⟩

/-- `wrap32(v)`: the `i32` congruent to `v` modulo `2^32` (R7). -/
def wrap32 (v : Int) : Word := BitVec.ofInt 32 v

end Sys2Proof
end

