-- ==== Sys2Proof/Config.lean ====
section
/-! DEFINITION. What an implementation fixes (00_scope.md R6), the fixture of 95_test_vectors.md, and the free
values: opaque constants of which nothing can be proved. -/

namespace Sys2Proof

/-- What a decoded symbol of +128 does (R106, decision D7). -/
inductive Sym128Mode where
  /-- the command fails with `SYM128` -/
  | fault
  /-- the symbol is used as +128 -/
  | add128
  /-- the symbol is used as -128 -/
  | wrapNeg128
  deriving DecidableEq, Repr, Inhabited

/-- Every entry is below the next (P3 of R81). -/
def strictlyRising : List Nat → Bool
  | [] => true
  | [_] => true
  | a :: b :: rest => decide (a < b) && strictlyRising (b :: rest)

/-- One CDF table: 258 entries, for `x` from -128 to 129, with P1, P2 and P3 (R81). -/
def tableConforms (scale : Nat) (row : List Nat) : Bool :=
  decide (row.length = 258) && decide (row.getD 0 1 = 0) && decide (row.getD 257 0 = 2 ^ scale) &&
    strictlyRising row

/-- `SCALE` in its bounds and 16 conforming tables (R6, R81). -/
def paramsConform (scale : Nat) (rom : List (List Nat)) : Bool :=
  decide (9 ≤ scale) && decide (scale ≤ 23) && decide (rom.length = 16) &&
    rom.all (tableConforms scale)

/-- The parameters of the block (R6): plain data, with the constraints of R81 as a proof, so that no
non-conforming table can be written. `rom` holds, for each `m`, `ROM(m, -128)` to `ROM(m, 129)`. -/
structure Params where
  /-- `SCALE` -/
  scale : Nat
  /-- `CDFROM` -/
  rom : List (List Nat)
  /-- `SYM128_MODE` -/
  sym128 : Sym128Mode
  /-- R6's bounds and R81's P1, P2, P3 -/
  conforms : paramsConform scale rom = true
  deriving DecidableEq, Repr

/-- `FX(m, x)` of 95_test_vectors.md section 2, the spec's own fixture; `i` is `x + 128`. -/
def fixtureEntry (m i : Nat) : Nat :=
  if i = 0 then 0
  else if 257 ≤ i then 4096
  else
    let h := m + 1
    let u : Int := 2 * (i : Int) - 257 + 2 * h
    if u ≤ 0 then i
    else if 4 * (h : Int) ≤ u then i + 3839
    else i + (u.toNat * 3839) / (4 * h)

/-- The sixteen tables of the fixture. -/
def fixtureRom : List (List Nat) :=
  (List.range 16).map fun m => (List.range 258).map (fixtureEntry m)

theorem fixture_conforms : paramsConform 12 fixtureRom = true := by decide +kernel

/-- The fixture's parameters: for tests, and the value that only keeps `Config.device` conforming. It is not
the device's table (95_test_vectors.md section 2). -/
def fixtureParams (mode : Sym128Mode) : Params :=
  ⟨12, fixtureRom, mode, fixture_conforms⟩

/-- OPEN parameter `SCALE` (decision D4): no document gives its value. -/
opaque Config.openScale : Nat

/-- OPEN parameter `CDFROM` (decision D5): no document gives its contents. -/
opaque Config.openRom : List (List Nat)

/-- OPEN parameter `SYM128_MODE` (decision D7). -/
opaque Config.openSym128 : Sym128Mode

/-- The device's parameters: the open constants, of which only R6's bounds and R81's P1 to P3 are known. Every
conforming choice is a possible value; the other branch stands only because Lean must give the constants a
value even where they do not conform. -/
def Config.device : Params :=
  if h : paramsConform Config.openScale Config.openRom = true then
    ⟨Config.openScale, Config.openRom, Config.openSym128, h⟩
  else fixtureParams Config.openSym128

/-- Free integers: the results the spec leaves without a value (`ICDF` outside its domain, D22; the negation of
-32768, N14). -/
opaque Config.freeInt : Nat → Int

/-- Free 64-bit floating-point values: the gyroscope scaling with `dt = 0` (N15). -/
opaque Config.freeF64 : Nat → BitVec 64

/-- The accelerometer scale `16/32767` (R143; U2 and U8 ask for it as a parameter with this default). -/
def Config.accScale : Rat := 16 / 32767

/-- The gyroscope factor of R142 without `count_in_flush / dt_us` and without `1/π`: `1e6 * 180 / 2^27` (U8). -/
def Config.gyroScale : Rat := 1000000 * 180 / 2 ^ 27

/-- `RANS_L`, the renormalization threshold `2^23` (R6, R94). -/
abbrev Config.ransL : Nat := 2 ^ 23

/-- `HDR_LEN` (R6). -/
abbrev Config.hdrLen : Nat := 6

/-- `LEN_MAX` (R6, decision D15). -/
abbrev Config.lenMax : Nat := 2 ^ 32 - 1

/-- The length of the container's file header (R131). -/
abbrev Config.magicLen : Nat := 7

/-- The longest instruction in bytes: an `ACC` record of 255 triples (R65). -/
abbrev Config.maxInstrLen : Nat := 1531

end Sys2Proof
end

