-- ==== Sys2Proof/Syntax.lean ====
section
/-! DEFINITION. The instructions: one constructor per row of spec/opcode_table.json (30_encoding.md). -/

namespace Sys2Proof

/-- The four formats of R60. -/
inductive Format where
  /-- an 18-bit host command word (R63) -/
  | cmd
  /-- a trace entry: the 4-bit name of a micro-operation (R64) and its operands -/
  | uop
  /-- a container record: a tag byte and its payload (R65) -/
  | record
  /-- the 6-byte header of a compressed block (R61) -/
  | block
  deriving DecidableEq, Repr

/-- The 22 rows of the opcode table. -/
inductive Instr where
  /-- `NOP`, `op = 0b00`; `n` is ignored (R110) -/
  | nop (n : BitVec 16)
  /-- `CLR`, `op = 0b01`; `n` is ignored (R111) -/
  | clr (n : BitVec 16)
  /-- `DECBLK n`, `op = 0b10` (R112) -/
  | decblk (n : BitVec 16)
  /-- the reserved command word, `op = 0b11`; `n` is ignored (R122) -/
  | reservedCmd (n : BitVec 16)
  /-- `HDR()` (R113) -/
  | hdr
  /-- `CDF(m, x)`, `x` an `i32` (R80) -/
  | cdf (m : BitVec 4) (x : Word)
  /-- `ICDF(m, y)`, `y` a `u32` (R83) -/
  | icdf (m : BitVec 4) (y : Word)
  /-- `DECSYM()` (R90) -/
  | decsym
  /-- `RENORM()` (R91) -/
  | renorm
  /-- `CKADD(sym)`, a signed 9-bit symbol (R115) -/
  | ckadd (sym : BitVec 9)
  /-- `APPLY()` (R100) -/
  | apply
  /-- `EMIT()` (R102) -/
  | emit
  /-- `VERIFY()` (R116) -/
  | verify
  /-- record `SETUP`, tag `0x01` (R133) -/
  | setup (revision : Byte) (capacity : BitVec 16)
  /-- record `DT`, tag `0x02` (R134) -/
  | dt (dtUs : Word)
  /-- record `GYRO`, tag `0x03`; the block follows in the stream (R136) -/
  | gyro
  /-- record `ACCSETUP`, tag `0x04` (R137) -/
  | accsetup (count rangeExp : Byte)
  /-- record `ACC`, tag `0x05`: `count` triples of `i16` (R138) -/
  | acc (triples : List (Triple (BitVec 16)))
  /-- record `TOFF`, tag `0x06` (R139) -/
  | toff (offset : Word)
  /-- record `ORIENT`, tag `0x07`: three bytes (R140) -/
  | orient (axes : Triple Byte)
  /-- record `END`: any tag byte other than `0x01` to `0x07` (R141) -/
  | endTag (tag : Byte)
  /-- the header of a compressed block (R61) -/
  | blk (quantShift : Byte) (checksum : BitVec 3) (modelIndex : BitVec 5) (seed : Word)
  deriving DecidableEq, Repr

/-- The format an instruction is written in (R60). -/
def Instr.format : Instr → Format
  | .nop _ | .clr _ | .decblk _ | .reservedCmd _ => .cmd
  | .hdr | .cdf _ _ | .icdf _ _ | .decsym | .renorm | .ckadd _ | .apply | .emit | .verify => .uop
  | .setup _ _ | .dt _ | .gyro | .accsetup _ _ | .acc _ | .toff _ | .orient _ | .endTag _ => .record
  | .blk _ _ _ _ => .block

end Sys2Proof
end

