-- ==== Sys2Proof/WellFormed.lean ====
section
/-! DEFINITION. Which instruction terms the encodings of 30_encoding.md can write down. -/

namespace Sys2Proof

/-- A symbol that `DECSYM` can return: `[-127, 128]` (R90, R115). -/
def symbolInRange (sym : BitVec 9) : Bool :=
  decide (-127 ≤ sym.toInt) && decide (sym.toInt ≤ 128)

/-- A tag that ends the parse: any byte other than `0x01` to `0x07` (R141). -/
def isEndTag (tag : Byte) : Bool :=
  decide (tag.toNat = 0) || decide (7 < tag.toNat)

/-- An `ACC` record's count is the `u8` of the last `ACCSETUP` (R137, R138). -/
def accCountFits (triples : List (Triple (BitVec 16))) : Bool :=
  decide (triples.length ≤ 255)

/-- Well-formed instructions; every other operand may take every value of its width. -/
def Instr.wellFormed : Instr → Bool
  | .ckadd sym => symbolInRange sym
  | .acc triples => accCountFits triples
  | .endTag tag => isEndTag tag
  | .nop _ | .clr _ | .decblk _ | .reservedCmd _ => true
  | .hdr | .cdf _ _ | .icdf _ _ | .decsym | .renorm | .apply | .emit | .verify => true
  | .setup _ _ | .dt _ | .gyro | .accsetup _ _ | .toff _ | .orient _ => true
  | .blk _ _ _ _ => true

end Sys2Proof
end

