-- ==== Sys2Proof/Decode.lean ====
section
/-! DEFINITION. The decoder and the encoder of the four formats (30_encoding.md), both from the same rules.
Bytes stand in the order the hardware stores them. -/

namespace Sys2Proof

/-- Why bytes are not an instruction. -/
inductive DecodeError where
  /-- the bytes end inside the instruction: the document's "structural read hits end-of-stream" (R145, R150) -/
  | truncated
  /-- a micro-operation code `0x0` or `0xA` to `0xF`, which "name nothing" (R64) -/
  | unnamedUop
  /-- an operand of a trace entry that no operand register holds (the layout is the model's own, log 9) -/
  | badOperand
  /-- more than the 18 bits of a command word (R63) -/
  | wideCommand
  deriving DecidableEq, Repr

/-! ## Byte order -/

/-- Two bytes as `u16`, little-endian (R46). -/
def le16 (b0 b1 : Byte) : BitVec 16 := b1 ++ b0

/-- Four bytes as `u32`, little-endian (R43, R46). -/
def le32 (b0 b1 b2 b3 : Byte) : Word := b3 ++ b2 ++ b1 ++ b0

/-- The two bytes of a `u16`, low byte first. -/
def le16Bytes (v : BitVec 16) : List Byte := [v.extractLsb' 0 8, v.extractLsb' 8 8]

/-- The four bytes of a `u32`, low byte first. -/
def le32Bytes (v : Word) : List Byte :=
  [v.extractLsb' 0 8, v.extractLsb' 8 8, v.extractLsb' 16 8, v.extractLsb' 24 8]

/-! ## Format CMD -/

/-- `op = cmd[17:16]`, `n = cmd[15:0]` (R63, R68). -/
def decodeCmd (cmd : BitVec 18) : Instr :=
  match (cmd.extractLsb' 16 2).toNat with
  | 0 => .nop (cmd.extractLsb' 0 16)
  | 1 => .clr (cmd.extractLsb' 0 16)
  | 2 => .decblk (cmd.extractLsb' 0 16)
  | _ => .reservedCmd (cmd.extractLsb' 0 16)

/-- A command word as stored by this model: three bytes, low byte first, the six bits above bit 17 zero
(log 11). -/
def decodeCmdBytes : List Byte → Except DecodeError (Instr × Nat)
  | b0 :: b1 :: b2 :: _ =>
    if (b2.extractLsb' 2 6).toNat = 0 then .ok (decodeCmd (b2.extractLsb' 0 2 ++ b1 ++ b0), 3)
    else .error .wideCommand
  | _ => .error .truncated

/-- The 18-bit word of `op` and `n` (R63). -/
def cmdWord (op : BitVec 2) (n : BitVec 16) : BitVec 18 := op ++ n

/-- The three bytes of a command word. -/
def cmdBytes (cmd : BitVec 18) : List Byte :=
  [cmd.extractLsb' 0 8, cmd.extractLsb' 8 8, (cmd.extractLsb' 16 2).zeroExtend 8]

/-! ## Format UOP -/

/-- The operands `m` and a 32-bit word of `CDF` and `ICDF` in a trace entry (log 9). -/
def decodeTableOperands : List Byte → Except DecodeError (BitVec 4 × Word)
  | m :: b0 :: b1 :: b2 :: b3 :: _ =>
    if m.toNat < 16 then .ok (m.extractLsb' 0 4, le32 b0 b1 b2 b3) else .error .badOperand
  | _ => .error .truncated

/-- The operand of `CKADD` in a trace entry: 9 bits in two bytes (log 9), a symbol of `[-127, 128]` (R115). -/
def decodeSymbolOperand : List Byte → Except DecodeError (BitVec 9)
  | b0 :: b1 :: _ =>
    if b1.toNat < 2 && symbolInRange (b1.extractLsb' 0 1 ++ b0) then .ok (b1.extractLsb' 0 1 ++ b0)
    else .error .badOperand
  | _ => .error .truncated

/-- A trace entry: the code of R64 in one byte, then the operands of the three operations that take any. -/
def decodeUop : List Byte → Except DecodeError (Instr × Nat)
  | [] => .error .truncated
  | code :: rest =>
    match code.toNat with
    | 0x1 => .ok (.hdr, 1)
    | 0x2 => (decodeTableOperands rest).map fun mx => (.cdf mx.1 mx.2, 6)
    | 0x3 => (decodeTableOperands rest).map fun my => (.icdf my.1 my.2, 6)
    | 0x4 => .ok (.decsym, 1)
    | 0x5 => .ok (.renorm, 1)
    | 0x6 => (decodeSymbolOperand rest).map fun sym => (.ckadd sym, 3)
    | 0x7 => .ok (.apply, 1)
    | 0x8 => .ok (.emit, 1)
    | 0x9 => .ok (.verify, 1)
    | _ => .error .unnamedUop

/-! ## Format REC -/

/-- `count` triples of `i16`, x then y then z (R138). -/
def decodeTriples : Nat → List Byte → Option (List (Triple (BitVec 16)))
  | 0, _ => some []
  | k + 1, x0 :: x1 :: y0 :: y1 :: z0 :: z1 :: rest =>
    (decodeTriples k rest).map fun ts => ⟨le16 x0 x1, le16 y0 y1, le16 z0 z1⟩ :: ts
  | _ + 1, _ => none

/-- A container record (R65). `count` is that of the last `ACCSETUP`, which gives an `ACC` record its length
(R74). The block of a `GYRO` record is not part of the answer: only decoding it gives its length (R62). -/
def decodeRecord (count : Nat) : List Byte → Except DecodeError (Instr × Nat)
  | [] => .error .truncated
  | tag :: rest =>
    match tag.toNat with
    | 0x01 =>
      match rest with
      | revision :: c0 :: c1 :: _ => .ok (.setup revision (le16 c0 c1), 4)
      | _ => .error .truncated
    | 0x02 =>
      match rest with
      | b0 :: b1 :: b2 :: b3 :: _ => .ok (.dt (le32 b0 b1 b2 b3), 5)
      | _ => .error .truncated
    | 0x03 => .ok (.gyro, 1)
    | 0x04 =>
      match rest with
      | c :: r :: _ => .ok (.accsetup c r, 3)
      | _ => .error .truncated
    | 0x05 =>
      match decodeTriples count rest with
      | some ts => .ok (.acc ts, 1 + 6 * count)
      | none => .error .truncated
    | 0x06 =>
      match rest with
      | b0 :: b1 :: b2 :: b3 :: _ => .ok (.toff (le32 b0 b1 b2 b3), 5)
      | _ => .error .truncated
    | 0x07 =>
      match rest with
      | a0 :: a1 :: a2 :: _ => .ok (.orient ⟨a0, a1, a2⟩, 4)
      | _ => .error .truncated
    | _ => .ok (.endTag tag, 1)

/-! ## Format BLK -/

/-- The 6-byte header (R61, R66): `QS <- byte 0`, `HCK <- byte1[7:5]`, `MI <- byte1[4:0]`, the seed
little-endian in bytes 2 to 5. -/
def decodeBlock : List Byte → Except DecodeError (Instr × Nat)
  | b0 :: b1 :: b2 :: b3 :: b4 :: b5 :: _ =>
    .ok (.blk b0 (b1.extractLsb' 5 3) (b1.extractLsb' 0 5) (le32 b2 b3 b4 b5), 6)
  | _ => .error .truncated

/-! ## The decoder, the encoder, and the host's question -/

/-- The instruction at the head of the bytes and its length in bytes. -/
def decode (f : Format) (count : Nat) (bytes : List Byte) : Except DecodeError (Instr × Nat) :=
  match f with
  | .cmd => decodeCmdBytes bytes
  | .uop => decodeUop bytes
  | .record => decodeRecord count bytes
  | .block => decodeBlock bytes

/-- The six bytes of one accelerometer triple (R138). -/
def tripleBytes (t : Triple (BitVec 16)) : List Byte :=
  le16Bytes t.x ++ le16Bytes t.y ++ le16Bytes t.z

/-- The bytes of an instruction, in its own format. -/
def encode : Instr → List Byte
  | .nop n => cmdBytes (cmdWord 0 n)
  | .clr n => cmdBytes (cmdWord 1 n)
  | .decblk n => cmdBytes (cmdWord 2 n)
  | .reservedCmd n => cmdBytes (cmdWord 3 n)
  | .hdr => [0x1]
  | .cdf m x => 0x2 :: m.zeroExtend 8 :: le32Bytes x
  | .icdf m y => 0x3 :: m.zeroExtend 8 :: le32Bytes y
  | .decsym => [0x4]
  | .renorm => [0x5]
  | .ckadd sym => [0x6, sym.extractLsb' 0 8, (sym.extractLsb' 8 1).zeroExtend 8]
  | .apply => [0x7]
  | .emit => [0x8]
  | .verify => [0x9]
  | .setup revision capacity => 0x01 :: revision :: le16Bytes capacity
  | .dt dtUs => 0x02 :: le32Bytes dtUs
  | .gyro => [0x03]
  | .accsetup count rangeExp => [0x04, count, rangeExp]
  | .acc triples => 0x05 :: triples.flatMap tripleBytes
  | .toff offset => 0x06 :: le32Bytes offset
  | .orient axes => [0x07, axes.x, axes.y, axes.z]
  | .endTag tag => [tag]
  | .blk q c m seed => q :: (c ++ m) :: le32Bytes seed

/-- The `count` an `ACC` record was written with; no other instruction depends on one. -/
def accCountOf : Instr → Nat
  | .acc triples => triples.length
  | _ => 0

/-- Byte `i` of a number, bit 0 of byte 0 its least significant bit. -/
def natByte (w i : Nat) : Byte := BitVec.ofNat 8 (w >>> (8 * i))

/-- The first `k` bytes of the low `nbits` bits of `w`, zeros above. -/
def natBytes (nbits w k : Nat) : List Byte :=
  (List.range k).map (natByte (w % 2 ^ nbits))

/-- The instruction alone, where the decoder accepts. -/
def decodedInstr (r : Except DecodeError (Instr × Nat)) : Option Instr :=
  match r with
  | .ok (i, _) => some i
  | .error _ => none

/-- The instruction the decoder reads from a row of spec/opcode_table.json: the width names the format, 18 bits
(or the 24 of three whole bytes) a command word, 48 a block header, 8 a record tag, 4 a micro-operation code. A
micro-operation's code in a whole byte is the same byte as a record tag; since "nothing decodes" the former
(R64) the answer is then the record (log 10). -/
def decodeTableWord (nbits w : Nat) : Option Instr :=
  match nbits with
  | 4 => decodedInstr (decode .uop 0 (natBytes 4 w 6))
  | 8 => decodedInstr (decode .record 0 (natBytes 8 w 6))
  | 18 => decodedInstr (decode .cmd 0 (natBytes 18 w 3))
  | 24 => decodedInstr (decode .cmd 0 (natBytes 24 w 3))
  | 48 => decodedInstr (decode .block 0 (natBytes 48 w 6))
  | _ => none

end Sys2Proof
end

