-- ==== Sys2Proof/Machine/State.lean ====
section
/-! DEFINITION. The state of the block RRD and of its host as plain data (10_state.md, 44_host_container.md
R130), the ways a step can stop, and the state after reset. -/

namespace Sys2Proof.Machine

/-- `STATUS` (R24). Code 3 is never produced at this level and has no name. -/
inductive Status where
  /-- 0: no `DECBLK` has ended since reset or `CLR` -/
  | idle
  /-- 1: the last `DECBLK` succeeded -/
  | done
  /-- 2: the last command failed -/
  | err
  deriving DecidableEq, Repr

/-- `CAUSE` (R25, R150). -/
inductive Cause where
  /-- 0: no failure -/
  | none
  /-- 1: `LEN < 6` -/
  | truncHdr
  /-- 2: `MI >= 16` -/
  | badModel
  /-- 3: `ICDF` returned -128 -/
  | sentinel
  /-- 4: a byte is needed and `CUR >= LEN` -/
  | truncRenorm
  /-- 5: `DECSYM` returned 128 and `SYM128_MODE = FAULT` -/
  | sym128
  /-- 6: `(CK & 7) != HCK` after the loop -/
  | checksum
  /-- 7: `op = 0b11` -/
  | badCmd
  deriving DecidableEq, Repr

/-- Where the model stops. Neither is a failure of the hardware: those are next states with `STATUS = ERR`
(R153). -/
inductive Fault where
  /-- raised by a `DECSYM` issued alone (a trace) while `MI >= 16`: it would read `ROM(m, x)` with `m` outside
  0 to 15, an address that does not exist (R42). No command raises it, since `HDR` fails first (R69). Safe. -/
  | noSuchTable
  /-- raised by the sequencer's loop if its fuel ran out; the fuel is the bound of R97 and R183, so no command
  raises it. Safe. -/
  | sequencerFuel
  deriving DecidableEq, Repr

/-- What the model gives no meaning. -/
inductive Refusal where
  /-- an arm of `exec` without a meaning; none is left. Safe. -/
  | notModelled (mnemonic : String)
  /-- raised by the fetch when the bytes presented are no instruction: a trace code that names no
  micro-operation (R64), or operand bytes of the model's own trace layout that hold no operand (log 9). Safe. -/
  | undecodable (why : DecodeError)
  deriving DecidableEq, Repr

/-- The host's and the block's byte memory: bytes by address, in one canonical form (see `Memory.wf`). -/
abbrev Memory := List Host.Cell

/-- `OUT`: samples by slot number, slots strictly rising (R41). -/
abbrev OutBuffer := List (Nat × Triple Word)

/-- The registers of the block (10_state.md). -/
structure Block where
  /-- `S[0..2]`, the committed DecoderState (R11) -/
  regS : Triple Word
  /-- `W[0..2]`, the working integrator state (R12) -/
  regW : Triple Word
  /-- `RSTATE` (R18) -/
  rstate : Word
  /-- `CUR`, the byte cursor (R13) -/
  cur : Word
  /-- `QS` (R19) -/
  qs : BitVec 8
  /-- `MI` (R20) -/
  mi : BitVec 5
  /-- `HCK` (R21) -/
  hck : BitVec 3
  /-- `CK` (R22) -/
  ck : BitVec 8
  /-- `NREQ` (R23) -/
  nreq : BitVec 16
  /-- `NOUT` (R23) -/
  nout : BitVec 16
  /-- `SYM[0..2]`, the triple buffer, signed 9 bits (R27) -/
  sym : Triple (BitVec 9)
  /-- `AX` (R27) -/
  ax : BitVec 2
  /-- `OVF`, the sticky overflow flag (R16) -/
  ovf : Bool
  /-- `STATUS` (R24) -/
  status : Status
  /-- `CAUSE` (R25) -/
  cause : Cause
  /-- `RES_BYTES` (R26) -/
  resBytes : Word
  /-- `RES_SAMPLES` (R26) -/
  resSamples : BitVec 16
  deriving DecidableEq, Repr

/-- A value of the host's product: the exact number the formula of R135, R142 or R143 denotes. The `f64` the
host computes from it is exact only up to evaluation order (N24). -/
inductive Scalar where
  /-- `q` -/
  | exact (q : Rat)
  /-- `q / π` (the factor `180/π` of R142) -/
  | overPi (q : Rat)
  /-- a 64-bit floating-point value the spec does not state (N15): a free value -/
  | unstated (bits : BitVec 64)
  deriving DecidableEq, Repr

/-- One output sample (R144); the list it stands in says whether it is `Gyro` or `Accel`. -/
structure Sample where
  /-- `timestamp_seconds` (R135) -/
  time : Rat
  /-- x, y, z -/
  value : Triple Scalar
  deriving DecidableEq, Repr

/-- How a parse ended (R145). -/
inductive ParseOutcome where
  /-- the two output lists and the orientation are handed over -/
  | success
  /-- both output lists were empty at the end (C11) -/
  | noSamples
  /-- a `SETUP` record with a revision other than 1 (R133) -/
  | badRevision
  /-- an I/O error of the stream, a hard failure -/
  | ioFailure
  deriving DecidableEq, Repr

/-- Where the host's parse stands (R131, R132, R145). -/
inductive Phase where
  /-- before the 7-byte file header -/
  | header
  /-- in the dispatch loop -/
  | records
  /-- the parse has ended -/
  | finished (outcome : ParseOutcome)
  deriving DecidableEq, Repr

/-- The state of the host, the container parser (R130). -/
structure Container where
  /-- the running clock, microseconds -/
  clockUs : Int
  /-- the gyro accumulation buffer, oldest first -/
  gyroBuf : List (Triple Word)
  /-- the accelerometer accumulation buffer, oldest first, already negated (R138) -/
  accBuf : List (Triple Int)
  /-- the capacity of the scratch buffer (R133) -/
  capacity : BitVec 16
  /-- `count` of the last `ACCSETUP` (R137) -/
  accCount : BitVec 8
  /-- `range_exp` of the last `ACCSETUP`, stored and never used (R137, R143) -/
  rangeExp : BitVec 8
  /-- the orientation string, as the bytes of its UTF-8 form (R140) -/
  orient : Triple Byte
  /-- output samples `Gyro` (R144) -/
  gyroOut : List Sample
  /-- output samples `Accel` (R144) -/
  accOut : List Sample
  /-- the stream cursor: the address of the next unread byte of the stream -/
  pos : Nat
  /-- the address after the stream's last byte -/
  streamLen : Nat
  /-- where the parse stands -/
  phase : Phase
  /-- the cooperative cancellation flag, an input (R146) -/
  cancel : Bool
  /-- an I/O error waits to be met by the next read of the stream, an input (R145) -/
  ioError : Bool
  deriving DecidableEq, Repr

/-- What is presented to the machine: the next step takes its instruction from here (log 8). -/
inductive Request where
  /-- nothing: the block waits (R170) -/
  | none
  /-- a command word on the command port (R63) -/
  | command (word : BitVec 18)
  /-- one entry of a trace: a micro-operation issued alone (R64; model's own) -/
  | trace (entry : List Byte)
  /-- the header of the lent slice is to be loaded (R61; model's own) -/
  | slice
  /-- a container stream for the host to parse (R130) -/
  | stream
  deriving DecidableEq, Repr

/-- The result a micro-operation of a trace returned (R8; model's own). -/
inductive UopResult where
  /-- none yet, or the operation returns nothing -/
  | none
  /-- the number returned by `CDF`, `ICDF` or `DECSYM` -/
  | value (v : Int)
  /-- the condition `sat` returned by `APPLY` -/
  | sat (b : Bool)
  deriving DecidableEq, Repr

/-- The whole machine. -/
structure State where
  /-- class Constant: the parameters and the CDF ROM (R10, R30) -/
  params : Params
  /-- the bytes of the host's memory, where the stream and the slice `IN` lie -/
  mem : Memory
  /-- the address of `IN[0]` -/
  inBase : Nat
  /-- `LEN` (R14) -/
  len : Word
  /-- `OUT` (R41) -/
  out : OutBuffer
  /-- the registers of the block -/
  blk : Block
  /-- the host -/
  host : Container
  /-- what is presented next (model's own) -/
  request : Request
  /-- the result of the last micro-operation of a trace (model's own) -/
  ret : UopResult
  /-- the index of the next free value (model's own) -/
  freeCtr : Nat
  deriving DecidableEq, Repr

/-- The block's registers after reset: R30's table; the internal registers, which R30 leaves unspecified, at
zero (DESIGN CHOICE, log 4). -/
def Block.reset : Block where
  regS := ⟨0, 0, 0⟩
  regW := ⟨0, 0, 0⟩
  rstate := 0
  cur := 0
  qs := 0
  mi := 0
  hck := 0
  ck := 0
  nreq := 0
  nout := 0
  sym := ⟨0, 0, 0⟩
  ax := 0
  ovf := false
  status := .idle
  cause := .none
  resBytes := 0
  resSamples := 0

/-- The default orientation string `"xyz"` (R130, R140). -/
def defaultOrient : Triple Byte := ⟨0x78, 0x79, 0x7A⟩

/-- The host before any parse: R130's values for the clock and the orientation; the rest as log 5 says, and the
two inputs `cancel` and `ioError`, to which the spec gives no start value, false (DESIGN CHOICE, log 25). -/
def Container.reset : Container where
  clockUs := 0
  gyroBuf := []
  accBuf := []
  capacity := 0
  accCount := 0
  rangeExp := 0
  orient := defaultOrient
  gyroOut := []
  accOut := []
  pos := 0
  streamLen := 0
  phase := .header
  cancel := false
  ioError := false

/-- The machine right after reset (R30, R170): nothing is presented and no slice is lent. -/
def State.reset : State where
  params := Config.device
  mem := []
  inBase := 0
  len := 0
  out := []
  blk := Block.reset
  host := Container.reset
  request := .none
  ret := .none
  freeCtr := 0

end Sys2Proof.Machine
end

