-- ==== Sys2Proof/Machine/Ops.lean ====
section
/-! DEFINITION. The named operations over memory, output slots and registers, and the failure exit, this
hardware's one way of taking an exception (60_exceptions.md R153). There is no return from it: "There is no
return instruction" (R156); any later command goes on from the state the exit leaves. -/

namespace Sys2Proof.Machine

/-! ## Lists of numbered items in canonical form -/

/-- The item numbered `k`, if one is listed. -/
def lookupAt {α : Type} (k : Nat) : List (Nat × α) → Option α
  | [] => none
  | (a, v) :: rest => if a = k then some v else lookupAt k rest

/-- List `v` under number `k`, in rising order, in place of what stood there. -/
def insertAt {α : Type} (k : Nat) (v : α) : List (Nat × α) → List (Nat × α)
  | [] => [(k, v)]
  | (a, w) :: rest =>
    if k < a then (k, v) :: (a, w) :: rest
    else if k = a then (k, v) :: rest
    else (a, w) :: insertAt k v rest

/-- Unlist number `k`. -/
def eraseAt {α : Type} (k : Nat) : List (Nat × α) → List (Nat × α)
  | [] => []
  | (a, w) :: rest => if a = k then rest else (a, w) :: eraseAt k rest

/-- The numbers rise strictly and start at `lo` or above. -/
def risingFrom {α : Type} : Nat → List (Nat × α) → Bool
  | _, [] => true
  | lo, (a, _) :: rest => decide (lo ≤ a) && risingFrom (a + 1) rest

/-! ## Byte memory -/

/-- What an unlisted address reads as (log 6). -/
def Memory.unlisted : Byte := 0

/-- The byte at an address. -/
def Memory.read (m : Memory) (a : Nat) : Byte := (lookupAt a m).getD Memory.unlisted

/-- Store a byte; a byte equal to what an unlisted address reads as is unlisted. -/
def Memory.write (m : Memory) (a : Nat) (b : Byte) : Memory :=
  if b = Memory.unlisted then eraseAt a m else insertAt a b m

/-- Store bytes at rising addresses. -/
def Memory.writeBytes : Memory → Nat → List Byte → Memory
  | m, _, [] => m
  | m, a, b :: rest => Memory.writeBytes (Memory.write m a b) (a + 1) rest

/-- Unlist the `n` addresses from `a` on. -/
def Memory.clearRange (m : Memory) (a n : Nat) : Memory :=
  m.filter fun c => decide (c.1 < a) || decide (a + n ≤ c.1)

/-- The canonical form: addresses strictly rising, no entry equal to what an unlisted address reads as. -/
def Memory.wf (m : Memory) : Bool :=
  risingFrom 0 m && m.all fun c => decide (c.2 ≠ Memory.unlisted)

/-- The bytes at the `n` addresses from `a` on. -/
def Memory.readBytes (m : Memory) : Nat → Nat → List Byte
  | _, 0 => []
  | a, n + 1 => Memory.read m a :: Memory.readBytes m (a + 1) n

/-! ## The primitives of R8 -/

/-- Byte `a` of the slice, whether or not `a < LEN`. -/
def inByte (s : State) (a : Nat) : Byte := s.mem.read (s.inBase + a)

/-- `MemRead(IN, a, 1)` (R40): the byte, or nothing where `a >= LEN`. -/
def memRead (s : State) (a : Nat) : Option Byte :=
  if a < s.len.toNat then some (inByte s a) else none

/-- `MemWrite(OUT, k, v)` (R41). -/
def memWriteOut (s : State) (k : Nat) (v : Triple Word) : State :=
  { s with out := insertAt k v s.out }

/-- The sample in slot `k`, if this or an earlier command wrote it. -/
def outSlot (s : State) (k : Nat) : Option (Triple Word) := lookupAt k s.out

/-- The canonical form of `OUT`: slots strictly rising. -/
def OutBuffer.wf (o : OutBuffer) : Bool := risingFrom 0 o

/-! ## Register updates -/

/-- Update the block's registers. -/
def State.mapBlk (f : Block → Block) (s : State) : State := { s with blk := f s.blk }

/-- Update the host's state. -/
def State.mapHost (f : Container → Container) (s : State) : State := { s with host := f s.host }

/-- Record the result of a micro-operation of a trace. -/
def State.returning (r : UopResult) (s : State) : State := { s with ret := r }

/-- Use up `k` free values. -/
def State.useFree (k : Nat) (s : State) : State := { s with freeCtr := s.freeCtr + k }

/-! ## Micro-operations and failure -/

/-- What a micro-operation does: it ends and returns a result, or it raises `Fail(c)` (R8), or the model
stops. The state is the one with every write made before that point. -/
inductive Micro (α : Type) where
  /-- the operation ends -/
  | ok (a : α) (s : State)
  /-- `raise Fail(c)` -/
  | fail (c : Cause) (s : State)
  /-- the model stops -/
  | fault (f : Fault)

/-- One micro-operation after another; nothing runs after a failure (R8, R52). -/
def Micro.andThen {α β : Type} (m : Micro α) (next : α → State → Micro β) : Micro β :=
  match m with
  | .ok a s => next a s
  | .fail c s => .fail c s
  | .fault f => .fault f

/-- The registers after the failure exit (R153). -/
def Block.failed (c : Cause) (b : Block) : Block :=
  { b with status := .err, cause := c, resBytes := 0, resSamples := 0 }

/-- The failure exit (R153): `STATUS <- ERR`, `CAUSE <- c`, both counts zero; `S`, `OVF`, `OUT` and the
internal registers stay as they are. -/
def failExit (c : Cause) (s : State) : State := s.mapBlk (Block.failed c)

/-- The step a command or an operation without a result makes. -/
def settle (m : Micro Unit) : Host.Outcome State Fault Refusal :=
  match m with
  | .ok _ s => .next s
  | .fail c s => .next (failExit c s)
  | .fault f => .fault f

/-- The step an operation with a result makes. -/
def settleReturning {α : Type} (result : α → UopResult) (m : Micro α) :
    Host.Outcome State Fault Refusal :=
  settle (m.andThen fun a s => .ok () (s.returning (result a)))

/-- The registers after `CLR` (R111). -/
def Block.cleared (b : Block) : Block :=
  { b with
    regS := ⟨0, 0, 0⟩
    ovf := false
    status := .idle
    cause := .none
    resBytes := 0
    resSamples := 0 }

end Sys2Proof.Machine
end

