-- ==== Sys2Proof/Machine/Operands.lean ====
section
/-! DEFINITION. Operand forms: the table addresses and register fields the micro-operations read, the header's
fields, the axis-indexed registers, and the slices the host lends. -/

namespace Sys2Proof.Machine

/-! ## The CDF ROM -/

/-- `ROM(m, x)` for `m` in 0 to 15 and `x` in -128 to 129 (R42, R80). -/
def romAt (p : Params) (m : Nat) (x : Int) : Nat :=
  (p.rom.getD m []).getD (x + 128).toNat 0

/-! ## Fields of RSTATE (R18) -/

/-- `cum = RSTATE & (2^SCALE - 1)`, that is `RSTATE[SCALE-1:0]`. -/
def cumOf (s : State) : Nat := s.blk.rstate.toNat % 2 ^ s.params.scale

/-- `q = RSTATE >> SCALE`, that is `RSTATE[31:SCALE]`. -/
def quotientOf (s : State) : Nat := s.blk.rstate.toNat / 2 ^ s.params.scale

/-- The table selector as a number. -/
def modelOf (s : State) : Nat := s.blk.mi.toNat

/-! ## Axis-indexed registers -/

/-- The values of `AX` in the order of decoding (R27, R107). -/
inductive Axis where
  /-- `AX = 0` -/
  | x
  /-- `AX = 1` -/
  | y
  /-- `AX = 2` -/
  | z
  deriving DecidableEq, Repr

/-- The code of an axis in `AX`. -/
def Axis.code : Axis → BitVec 2
  | .x => 0
  | .y => 1
  | .z => 2

/-- Write one lane. -/
def setAxis {α : Type} (t : Triple α) (i : Axis) (v : α) : Triple α :=
  match i with
  | .x => { t with x := v }
  | .y => { t with y := v }
  | .z => { t with z := v }

/-! ## The block header (R61, R66) -/

/-- `HCK <- b1[7:5]`. -/
def headerChecksum (b1 : Byte) : BitVec 3 := b1.extractLsb' 5 3

/-- `MI <- b1[4:0]`. -/
def headerModel (b1 : Byte) : BitVec 5 := b1.extractLsb' 0 5

/-- The seed from `IN[2..5]`, byte 2 least significant (R43). -/
def headerSeed (s : State) : Word := le32 (inByte s 2) (inByte s 3) (inByte s 4) (inByte s 5)

/-! ## Slices -/

/-- The first bytes of the slice, at most `n` of them. -/
def sliceBytes (s : State) (n : Nat) : List Byte :=
  s.mem.readBytes s.inBase (min n s.len.toNat)

/-- How many bytes of the stream are unread. -/
def streamLeft (s : State) : Nat := s.host.streamLen - s.host.pos

/-- The unread bytes of the stream, at most as many as the longest record needs. -/
def streamWindow (s : State) : List Byte :=
  s.mem.readBytes s.host.pos (min Config.maxInstrLen (streamLeft s))

/-- Lend the block everything from the cursor to the end of the stream (R136, R180), at most `LEN_MAX` bytes
(R14; log 20). -/
def lendRemainder (s : State) : State :=
  { s with inBase := s.host.pos, len := BitVec.ofNat 32 (min (streamLeft s) Config.lenMax) }

/-- The samples of the last successful command: slots `0` to `RES_SAMPLES - 1` (R26, R117). -/
def producedSamples (s : State) : List (Triple Word) :=
  (List.range s.blk.resSamples.toNat).filterMap (outSlot s)

end Sys2Proof.Machine
end

