-- ==== Sys2Proof/Machine/Flags.lean ====
section
/-! DEFINITION. Every flag and derived condition: overflow (R16, R104), saturation (R15, R101), the running
checksum (R22, R115) and its comparison (R116), and the tests on a decoded symbol (R17). -/

namespace Sys2Proof.Machine

/-- The exact sum of one axis, `W[i] + SYM[i] * 2^QS`, with no width (R100, R105). -/
def axisSum (w : Word) (sym : BitVec 9) (qs : Byte) : Int :=
  w.toInt + sym.toInt * ((2 ^ qs.toNat : Nat) : Int)

/-- The sum lies outside `[-2^31, 2^31 - 1]` (R16). -/
def overflows (t : Int) : Bool := decide (t < -2147483648) || decide (2147483647 < t)

/-- A raw symbol of magnitude 127 (R101, C7). -/
def isEscape (sym : BitVec 9) : Bool := decide (sym.toInt = 127) || decide (sym.toInt = -127)

/-- `SAT` (R15): some axis holds an escape. -/
def saturated (sym : Triple (BitVec 9)) : Bool :=
  isEscape sym.x || isEscape sym.y || isEscape sym.z

/-- Some axis of this `APPLY` overflows (R104, R107). -/
def applyOverflows (b : Block) : Bool :=
  overflows (axisSum b.regW.x b.sym.x b.qs) || overflows (axisSum b.regW.y b.sym.y b.qs) ||
    overflows (axisSum b.regW.z b.sym.z b.qs)

/-- `(CK + sym) mod 256` (R115). -/
def checksumAdd (ck : BitVec 8) (sym : Int) : BitVec 8 := BitVec.ofInt 8 ((ck.toNat : Int) + sym)

/-- `(CK & 0x07) = HCK` (R116). -/
def checksumMatches (b : Block) : Bool := decide (b.ck.extractLsb' 0 3 = b.hck)

/-- The symbol as `SYM` takes it: +128 becomes -128 under `WRAP_NEG128` (R106, R112). -/
def storedSymbol (mode : Sym128Mode) (sym : Int) : BitVec 9 :=
  if sym = 128 ∧ mode = .wrapNeg128 then BitVec.ofInt 9 (-128) else BitVec.ofInt 9 sym

/-- The sequencer rejects the symbol (R106, R114). -/
def symbolRejected (mode : Sym128Mode) (sym : Int) : Bool :=
  decide (sym = 128) && decide (mode = .fault)

end Sys2Proof.Machine
end

