-- ==== Sys2Proof/Machine/Cdf.lean ====
section
/-! DEFINITION. The Laplace CDF model lookup: `CDF` and `ICDF` (40_cdf_model.md). -/

namespace Sys2Proof.Machine

/-- `CDF(m, x)` (R80). -/
def cdf (p : Params) (m : Nat) (x : Int) : Nat :=
  if x ≤ -128 then 0
  else if 128 < x then 2 ^ p.scale
  else romAt p m x

/-- The search of R84 between `lo` and `hi`. -/
def icdfSearch (p : Params) (m y : Nat) : Nat → Int → Int → Int
  | 0, lo, _ => lo
  | k + 1, lo, hi =>
    if hi - lo ≤ 1 then lo
    else if cdf p m ((lo + hi) / 2) ≤ y then icdfSearch p m y k ((lo + hi) / 2) hi
    else icdfSearch p m y k lo ((lo + hi) / 2)

/-- `ICDF(m, y)` (R83) by the procedure of R84, which ends after at most 9 iterations. -/
def icdf (p : Params) (m y : Nat) : Int := icdfSearch p m y 9 (-129) 129

/-- `CDF` issued alone: it writes no register (R80, R85); the result goes to the trace. -/
def execCdf (m : BitVec 4) (x : Word) (s : State) : Host.Outcome State Fault Refusal :=
  .next (s.returning (.value (cdf s.params m.toNat x.toInt)))

/-- `ICDF` issued alone: it writes no register (R83, R85). For `y >= 2^SCALE` the spec has "no defined result"
(D22): the result is a free value (log 13). -/
def execIcdf (m : BitVec 4) (y : Word) (s : State) : Host.Outcome State Fault Refusal :=
  if y.toNat < 2 ^ s.params.scale then
    .next (s.returning (.value (icdf s.params m.toNat y.toNat)))
  else .next ((s.returning (.value (Config.freeInt s.freeCtr))).useFree 1)

end Sys2Proof.Machine
end

