-- ==== Sys2Proof/Machine/Rans.lean ====
section
/-! DEFINITION. The range decoder core and the renormalizer: `DECSYM` and `RENORM` (41_rans_decode.md). -/

namespace Sys2Proof.Machine

/-- One iteration of `RENORM` (R91): `RSTATE <- (RSTATE << 8) | b`, `CUR <- CUR + 1`. -/
def Block.pullByte (byte : Byte) (b : Block) : Block :=
  { b with rstate := (b.rstate <<< 8) ||| byte.zeroExtend 32, cur := b.cur + 1 }

/-- The loop of `RENORM` (R91); the fuel is the number of bytes left. -/
def renormLoop : Nat → State → Micro Unit
  | 0, s => if Config.ransL ≤ s.blk.rstate.toNat then .ok () s else .fail .truncRenorm s
  | k + 1, s =>
    if Config.ransL ≤ s.blk.rstate.toNat then .ok () s
    else
      match memRead s s.blk.cur.toNat with
      | none => .fail .truncRenorm s
      | some byte => renormLoop k (s.mapBlk (Block.pullByte byte))

/-- `RENORM()` (R91). -/
def renorm (s : State) : Micro Unit := renormLoop (s.len.toNat - s.blk.cur.toNat) s

/-- The symbol under the register: `ICDF(MI, cum)` (R90). -/
def symbolUnder (s : State) : Int := icdf s.params (modelOf s) (cumOf s)

/-- `start = CDF(MI, sym)` (R90). -/
def startOf (s : State) (sym : Int) : Nat := cdf s.params (modelOf s) sym

/-- `freq = CDF(MI, sym + 1) - start` (R90). -/
def freqOf (s : State) (sym : Int) : Nat := cdf s.params (modelOf s) (sym + 1) - startOf s sym

/-- The updated register of R90 before renormalization. It needs no more than 32 bits (R92). -/
def rstateAfter (s : State) (sym : Int) : Word :=
  BitVec.ofNat 32 (freqOf s sym * quotientOf s + cumOf s - startOf s sym)

/-- Write `RSTATE`. -/
def Block.withRstate (v : Word) (b : Block) : Block := { b with rstate := v }

/-- `DECSYM()` (R90). With `MI >= 16` there is no table to read (R42, R69): see `Fault.noSuchTable`. -/
def decsym (s : State) : Micro Int :=
  if 16 ≤ modelOf s then .fault .noSuchTable
  else if symbolUnder s = -128 then .fail .sentinel s
  else
    (renorm (s.mapBlk (Block.withRstate (rstateAfter s (symbolUnder s))))).andThen fun _ t =>
      .ok (symbolUnder s) t

/-- `DECSYM` issued alone. -/
def execDecsym (s : State) : Host.Outcome State Fault Refusal :=
  settleReturning UopResult.value (decsym s)

/-- `RENORM` issued alone. -/
def execRenorm (s : State) : Host.Outcome State Fault Refusal := settle (renorm s)

end Sys2Proof.Machine
end

