-- ==== Sys2Proof/Machine/Integrator.lean ====
section
/-! DEFINITION. The delta integrator with escape handling: `APPLY` and `EMIT` (42_integrator.md). -/

namespace Sys2Proof.Machine

/-- `W[i] <- wrap32(W[i] + SYM[i] * 2^QS)` on the three lanes (R100, R107). -/
def integrated (b : Block) : Triple Word :=
  ⟨wrap32 (axisSum b.regW.x b.sym.x b.qs), wrap32 (axisSum b.regW.y b.sym.y b.qs),
    wrap32 (axisSum b.regW.z b.sym.z b.qs)⟩

/-- The registers after `APPLY` (R100): `W` and the sticky `OVF`. -/
def Block.applied (b : Block) : Block :=
  { b with regW := integrated b, ovf := b.ovf || applyOverflows b }

/-- `APPLY() -> sat` (R100). -/
def applyTriple (s : State) : Micro Bool :=
  .ok (saturated s.blk.sym) (s.mapBlk Block.applied)

/-- `NOUT <- NOUT + 1` (R102). -/
def Block.counted (b : Block) : Block := { b with nout := b.nout + 1 }

/-- `EMIT()` (R102). -/
def emitSample (s : State) : Micro Unit :=
  .ok () ((memWriteOut s s.blk.nout.toNat s.blk.regW).mapBlk Block.counted)

/-- `APPLY` issued alone. -/
def execApply (s : State) : Host.Outcome State Fault Refusal :=
  settleReturning UopResult.sat (applyTriple s)

/-- `EMIT` issued alone. -/
def execEmit (s : State) : Host.Outcome State Fault Refusal := settle (emitSample s)

end Sys2Proof.Machine
end

