-- ==== Sys2Proof/Machine/Sequencer.lean ====
section
/-! DEFINITION. The host commands and the block sequencer: `NOP`, `CLR`, `DECBLK`, the reserved word, `HDR`,
`CKADD`, `VERIFY`, and the load of a block header (43_block_sequencer.md, 30_encoding.md R61). -/

namespace Sys2Proof.Machine

/-! ## Header -/

/-- The registers `HDR` loads (R66, R113). -/
def Block.loaded (q : Byte) (c : BitVec 3) (m : BitVec 5) (seed : Word) (b : Block) : Block :=
  { b with qs := q, hck := c, mi := m, rstate := seed, cur := 6 }

/-- Load the header's fields, then test the model index (R113). -/
def loadHeader (q : Byte) (c : BitVec 3) (m : BitVec 5) (seed : Word) (s : State) : Micro Unit :=
  if 16 ≤ m.toNat then .fail .badModel (s.mapBlk (Block.loaded q c m seed))
  else .ok () (s.mapBlk (Block.loaded q c m seed))

/-- `HDR()` (R113): the length is tested first and before any field is loaded (D24). -/
def hdr (s : State) : Micro Unit :=
  if s.len.toNat < Config.hdrLen then .fail .truncHdr s
  else
    loadHeader (inByte s 0) (headerChecksum (inByte s 1)) (headerModel (inByte s 1)) (headerSeed s) s

/-- `HDR` issued alone. -/
def execHdr (s : State) : Host.Outcome State Fault Refusal := settle (hdr s)

/-- A block header presented by itself: its fields are assembled into the registers as R66 says, with R113's
test of the model index (log 12). -/
def execBlk (q : Byte) (c : BitVec 3) (m : BitVec 5) (seed : Word) (s : State) :
    Host.Outcome State Fault Refusal :=
  settle (loadHeader q c m seed s)

/-! ## Checksum -/

/-- `CK <- (CK + sym) mod 256` (R115). -/
def Block.ckAdded (sym : Int) (b : Block) : Block := { b with ck := checksumAdd b.ck sym }

/-- `CKADD` issued alone. -/
def execCkadd (sym : BitVec 9) (s : State) : Host.Outcome State Fault Refusal :=
  .next (s.mapBlk (Block.ckAdded sym.toInt))

/-- `VERIFY()` (R116). -/
def verify (s : State) : Micro Unit :=
  if checksumMatches s.blk then .ok () s else .fail .checksum s

/-- `VERIFY` issued alone. -/
def execVerify (s : State) : Host.Outcome State Fault Refusal := settle (verify s)

/-! ## The triple loop -/

/-- Write `AX`. -/
def Block.withAx (i : Axis) (b : Block) : Block := { b with ax := i.code }

/-- `SYM[AX] <- sym` (R112). -/
def Block.latched (i : Axis) (v : BitVec 9) (b : Block) : Block := { b with sym := setAxis b.sym i v }

/-- One pass of the inner loop (R112): decode a symbol, test it for 128, `CKADD` it, store it. -/
def decodeSymbol (i : Axis) (s : State) : Micro Unit :=
  (decsym (s.mapBlk (Block.withAx i))).andThen fun sym t =>
    if symbolRejected t.params.sym128 sym then .fail .sym128 t
    else
      .ok () ((t.mapBlk (Block.ckAdded sym)).mapBlk
        (Block.latched i (storedSymbol t.params.sym128 sym)))

/-- Three symbols in axis order (R112, R114). -/
def decodeTriple (s : State) : Micro Unit :=
  (decodeSymbol .x s).andThen fun _ s1 =>
    (decodeSymbol .y s1).andThen fun _ s2 => decodeSymbol .z s2

/-- One pass of the outer loop (R112): a triple, `APPLY`, and `EMIT` if it is not saturated. -/
def tripleStep (s : State) : Micro Unit :=
  (decodeTriple s).andThen fun _ s1 =>
    (applyTriple s1).andThen fun sat s2 => if sat then .ok () s2 else emitSample s2

/-- `while NOUT < NREQ` (R112, R114), with fuel. -/
def tripleLoop : Nat → State → Micro Unit
  | 0, s => if s.blk.nout.toNat < s.blk.nreq.toNat then .fault .sequencerFuel else .ok () s
  | k + 1, s =>
    if s.blk.nout.toNat < s.blk.nreq.toNat then (tripleStep s).andThen fun _ t => tripleLoop k t
    else .ok () s

/-- A bound on the symbols that can still be decoded (R97): a `DECSYM` that pulls no byte lowers `RSTATE`, and
a byte pulled lowers the number of bytes left. -/
def decodeBound (s : State) : Nat :=
  (s.len.toNat - s.blk.cur.toNat) * 2 ^ 32 + s.blk.rstate.toNat

/-- The whole loop of R112, with fuel enough (R97, R183). -/
def allTriples (s : State) : Micro Unit := tripleLoop (decodeBound s + 1) s

/-! ## Commands -/

/-- The registers at the start of `DECBLK n` (R112). -/
def Block.begun (n : BitVec 16) (b : Block) : Block :=
  { b with nreq := n, nout := 0, ck := 0, cur := 0, regW := b.regS }

/-- The commit (R117). -/
def Block.committed (b : Block) : Block :=
  { b with
    regS := b.regW
    resBytes := b.cur
    resSamples := b.nout
    status := .done
    cause := .none }

/-- `DECBLK n` (R112), up to where it commits or fails. -/
def decblk (n : BitVec 16) (s : State) : Micro Unit :=
  (hdr (s.mapBlk (Block.begun n))).andThen fun _ s1 =>
    (allTriples s1).andThen fun _ s2 =>
      (verify s2).andThen fun _ s3 => .ok () (s3.mapBlk Block.committed)

/-- `NOP` (R110): no state changes. -/
def execNop (_n : BitVec 16) (s : State) : Host.Outcome State Fault Refusal := .next s

/-- `CLR` (R111). -/
def execClr (_n : BitVec 16) (s : State) : Host.Outcome State Fault Refusal :=
  .next (s.mapBlk Block.cleared)

/-- `DECBLK n` (R112). -/
def execDecblk (n : BitVec 16) (s : State) : Host.Outcome State Fault Refusal := settle (decblk n s)

/-- The reserved command word (R122): the failure exit with `BAD_CMD`. -/
def execReservedCmd (_n : BitVec 16) (s : State) : Host.Outcome State Fault Refusal :=
  .next (failExit .badCmd s)

end Sys2Proof.Machine
end

