-- ==== Sys2Proof/Machine/Records.lean ====
section
/-! DEFINITION. The host: the eight container records, the file header and the end of a parse
(44_host_container.md). -/

namespace Sys2Proof.Machine

/-! ## The end of a parse (R145) -/

/-- The outcome of a parse that stops: it fails exactly when both output lists are empty (R145, C11). -/
def outcomeOf (h : Container) : ParseOutcome :=
  if h.gyroOut = [] ∧ h.accOut = [] then .noSamples else .success

/-- Stop consuming records and keep what was flushed. -/
def Container.ended (h : Container) : Container := { h with phase := .finished (outcomeOf h) }

/-- Stop with a hard failure and no samples. -/
def Container.failedWith (o : ParseOutcome) (h : Container) : Container :=
  { h with phase := .finished o, gyroOut := [], accOut := [] }

/-- The host's product (R144): the two lists and the orientation, handed over by a parse that succeeded. -/
def hostProduct (s : State) : Option (List Sample × List Sample × Triple Byte) :=
  if s.host.phase = .finished .success then some (s.host.gyroOut, s.host.accOut, s.host.orient)
  else none

/-! ## The file header (R131, R132) -/

/-- The host's state at the start of a parse (R130; log 5). -/
def Container.fresh (h : Container) : Container :=
  { h with
    clockUs := 0
    gyroBuf := []
    accBuf := []
    capacity := 0
    accCount := 0
    rangeExp := 0
    orient := defaultOrient
    gyroOut := []
    accOut := [] }

/-- Seven bytes skipped, and the dispatch loop entered. -/
def Container.pastHeader (h : Container) : Container :=
  { h with pos := h.pos + Config.magicLen, phase := .records }

/-- Skip the seven bytes of the magic and issue `CLR` once (R131, R132); fewer than seven bytes are a
structural end of stream; an I/O error is a hard failure (R145). -/
def beginParse (s : State) : State :=
  if s.host.ioError then s.mapHost (Container.failedWith .ioFailure)
  else if streamLeft s < Config.magicLen then s.mapHost fun h => h.fresh.ended
  else (s.mapBlk Block.cleared).mapHost fun h => h.fresh.pastHeader

/-! ## SETUP -/

/-- The scratch buffer with `capacity` slots (R133): slots above it are gone (log 26). -/
def resized (capacity : BitVec 16) (o : OutBuffer) : OutBuffer :=
  o.filter fun slot => decide (slot.1 < capacity.toNat)

/-- `SETUP` (R133): a revision other than 1 is fatal. -/
def execSetup (revision : Byte) (capacity : BitVec 16) (s : State) :
    Host.Outcome State Fault Refusal :=
  if revision = 1 then
    .next (State.mapHost (fun h => { h with capacity := capacity })
      { s with out := resized capacity s.out })
  else .next (s.mapHost (Container.failedWith .badRevision))

/-! ## DT -/

/-- The timestamp of value `k` of `n` (R135). -/
def timestamp (clock : Int) (dtUs n k : Nat) : Rat :=
  ((clock : Rat) + (k : Rat) * (dtUs : Rat) / (n : Rat)) / 1000000

/-- One word of a gyroscope sample (R142); with `dt = 0` a free value (N15, log 17). -/
def gyroScalar (dtUs n free : Nat) (raw : Word) : Scalar :=
  if dtUs = 0 then .unstated (Config.freeF64 free)
  else .overPi ((raw.toInt : Rat) * ((n : Rat) / (dtUs : Rat)) * Config.gyroScale)

/-- The gyroscope samples of a flush, from value `k` on. -/
def flushGyro (clock : Int) (dtUs n free : Nat) : Nat → List (Triple Word) → List Sample
  | _, [] => []
  | k, raw :: rest =>
    ⟨timestamp clock dtUs n k,
      ⟨gyroScalar dtUs n (free + 3 * k) raw.x, gyroScalar dtUs n (free + 3 * k + 1) raw.y,
        gyroScalar dtUs n (free + 3 * k + 2) raw.z⟩⟩ :: flushGyro clock dtUs n free (k + 1) rest

/-- One word of an accelerometer sample (R143); `range_exp` is not applied. -/
def accScalar (raw : Int) : Scalar := .exact ((raw : Rat) * Config.accScale)

/-- The accelerometer samples of a flush, from value `k` on. -/
def flushAcc (clock : Int) (dtUs n : Nat) : Nat → List (Triple Int) → List Sample
  | _, [] => []
  | k, raw :: rest =>
    ⟨timestamp clock dtUs n k, raw.map accScalar⟩ :: flushAcc clock dtUs n (k + 1) rest

/-- The host after `DT` (R134): both buffers flushed, each with its own count and the clock before it is
advanced; the clock advanced; both buffers cleared. The samples are appended with the timestamps the clock gives,
also where a negative `TOFF` has moved it back and R135's order is lost (DESIGN CHOICE, N16, log 32). -/
def Container.flushed (dtUs free : Nat) (h : Container) : Container :=
  { h with
    gyroOut := h.gyroOut ++ flushGyro h.clockUs dtUs h.gyroBuf.length free 0 h.gyroBuf
    accOut := h.accOut ++ flushAcc h.clockUs dtUs h.accBuf.length 0 h.accBuf
    clockUs := h.clockUs + dtUs
    gyroBuf := []
    accBuf := [] }

/-- How many free values a flush uses: none unless `dt = 0`. -/
def flushFree (dtUs : Nat) (h : Container) : Nat := if dtUs = 0 then 3 * h.gyroBuf.length else 0

/-- `DT` (R134). -/
def execDt (dtUs : Word) (s : State) : Host.Outcome State Fault Refusal :=
  .next ((s.mapHost (Container.flushed dtUs.toNat s.freeCtr)).useFree (flushFree dtUs.toNat s.host))

/-! ## GYRO -/

/-- The host after a block that ended `DONE` (R136): the samples appended, the cursor moved by `RES_BYTES`. -/
def acceptBlock (s : State) : State :=
  s.mapHost fun h =>
    { h with gyroBuf := h.gyroBuf ++ producedSamples s, pos := h.pos + s.blk.resBytes.toNat }

/-- `GYRO` (R136): lend the rest of the stream, issue `DECBLK capacity`; after `ERR` end the parse (R145). -/
def execGyro (s : State) : Host.Outcome State Fault Refusal :=
  match decblk s.host.capacity (lendRemainder s) with
  | .ok _ t => .next (acceptBlock t)
  | .fail c t => .next ((failExit c t).mapHost Container.ended)
  | .fault f => .fault f

/-! ## ACCSETUP and ACC -/

/-- `ACCSETUP` (R137): both values are remembered, nothing is output. -/
def execAccsetup (count rangeExp : Byte) (s : State) : Host.Outcome State Fault Refusal :=
  .next (s.mapHost fun h => { h with accCount := count, rangeExp := rangeExp })

/-- The negation of a raw `i16` (R138); that of -32768 is not in the document (N14): a free value (log 18). -/
def negated (free : Nat) (raw : BitVec 16) : Int :=
  if raw.toInt = -32768 then Config.freeInt free else -raw.toInt

/-- The negated triples, from triple `k` on. -/
def negatedTriples (free : Nat) : Nat → List (Triple (BitVec 16)) → List (Triple Int)
  | _, [] => []
  | k, t :: rest =>
    ⟨negated (free + 3 * k) t.x, negated (free + 3 * k + 1) t.y, negated (free + 3 * k + 2) t.z⟩ ::
      negatedTriples free (k + 1) rest

/-- `ACC` (R138): each axis negated, the triples appended to the accelerometer buffer. -/
def execAcc (triples : List (Triple (BitVec 16))) (s : State) : Host.Outcome State Fault Refusal :=
  .next ((s.mapHost fun h => { h with accBuf := h.accBuf ++ negatedTriples s.freeCtr 0 triples }).useFree
    (3 * triples.length))

/-! ## TOFF, ORIENT, END -/

/-- `TOFF` (R139): the signed offset is added to the clock, neither clamped nor refused where it moves the clock
back (N16, log 32); nothing is flushed. -/
def execToff (offset : Word) (s : State) : Host.Outcome State Fault Refusal :=
  .next (s.mapHost fun h => { h with clockUs := h.clockUs + offset.toInt })

/-- A byte that continues a UTF-8 sequence, `0x80` to `0xBF` (log 22). -/
def utf8Tail (b : Byte) : Bool := decide (0x80 ≤ b.toNat) && decide (b.toNat ≤ 0xBF)

/-- A UTF-8 sequence of one byte. -/
def utf8One (a : Byte) : Bool := decide (a.toNat < 0x80)

/-- A UTF-8 sequence of two bytes. -/
def utf8Two (a b : Byte) : Bool := decide (0xC2 ≤ a.toNat) && decide (a.toNat ≤ 0xDF) && utf8Tail b

/-- A UTF-8 sequence of three bytes: neither overlong nor a surrogate. -/
def utf8Three (a b c : Byte) : Bool :=
  decide (0xE0 ≤ a.toNat) && decide (a.toNat ≤ 0xEF) && utf8Tail b && utf8Tail c &&
    (decide (a.toNat ≠ 0xE0) || decide (0xA0 ≤ b.toNat)) &&
    (decide (a.toNat ≠ 0xED) || decide (b.toNat ≤ 0x9F))

/-- Three bytes that are valid UTF-8 (R140). -/
def utf8Valid (t : Triple Byte) : Bool :=
  (utf8One t.x && utf8One t.y && utf8One t.z) || (utf8Two t.x t.y && utf8One t.z) ||
    (utf8One t.x && utf8Two t.y t.z) || utf8Three t.x t.y t.z

/-- `ORIENT` (R140): the string, or `"xyz"` where the bytes are not UTF-8. -/
def execOrient (axes : Triple Byte) (s : State) : Host.Outcome State Fault Refusal :=
  .next (s.mapHost fun h => { h with orient := if utf8Valid axes then axes else defaultOrient })

/-- `END` (R141): the end of the valid stream, not an error. -/
def execEndTag (_tag : Byte) (s : State) : Host.Outcome State Fault Refusal :=
  .next (s.mapHost Container.ended)

end Sys2Proof.Machine
end

