-- ==== Sys2Proof/Machine/Dispatch.lean ====
section
/-! DEFINITION. One arm per constructor of `Instr`, each one call of the instruction's meaning. -/

namespace Sys2Proof.Machine

def exec (i : Instr) (s : State) : Host.Outcome State Fault Refusal :=
  match i with
  | .nop n => Sys2Proof.Machine.execNop n s
  | .clr n => Sys2Proof.Machine.execClr n s
  | .decblk n => Sys2Proof.Machine.execDecblk n s
  | .reservedCmd n => Sys2Proof.Machine.execReservedCmd n s
  | .hdr => Sys2Proof.Machine.execHdr s
  | .cdf m x => Sys2Proof.Machine.execCdf m x s
  | .icdf m y => Sys2Proof.Machine.execIcdf m y s
  | .decsym => Sys2Proof.Machine.execDecsym s
  | .renorm => Sys2Proof.Machine.execRenorm s
  | .ckadd sym => Sys2Proof.Machine.execCkadd sym s
  | .apply => Sys2Proof.Machine.execApply s
  | .emit => Sys2Proof.Machine.execEmit s
  | .verify => Sys2Proof.Machine.execVerify s
  | .setup revision capacity => Sys2Proof.Machine.execSetup revision capacity s
  | .dt dtUs => Sys2Proof.Machine.execDt dtUs s
  | .gyro => Sys2Proof.Machine.execGyro s
  | .accsetup count rangeExp => Sys2Proof.Machine.execAccsetup count rangeExp s
  | .acc triples => Sys2Proof.Machine.execAcc triples s
  | .toff offset => Sys2Proof.Machine.execToff offset s
  | .orient axes => Sys2Proof.Machine.execOrient axes s
  | .endTag tag => Sys2Proof.Machine.execEndTag tag s
  | .blk q c m seed => Sys2Proof.Machine.execBlk q c m seed s

end Sys2Proof.Machine
end

