-- ==== Sys2Proof/Machine/Fetch.lean ====
section
/-! DEFINITION. Where a step takes its instruction from (log 8), and the steps in which nothing is fetched. -/

namespace Sys2Proof.Machine

/-- The host's dispatch loop is about to read a record (R132): not cancelled (R146), no I/O error (R145). -/
def readsRecord (h : Container) : Bool :=
  decide (h.phase = .records) && !h.cancel && !h.ioError

/-- The instruction presented, with its length, or that the bytes are none; nothing where no instruction is
fetched. -/
def fetch (s : State) : Option (Except DecodeError (Instr × Nat)) :=
  match s.request with
  | .none => none
  | .command word => some (decode .cmd 0 (cmdBytes word))
  | .trace entry => some (decode .uop 0 entry)
  | .slice => some (decode .block 0 (sliceBytes s Config.hdrLen))
  | .stream =>
    if readsRecord s.host then some (decode .record s.host.accCount.toNat (streamWindow s)) else none

/-- Past a fetched instruction of `n` bytes: the stream cursor moves over it; a command, a trace entry or a
header has been taken, and nothing is presented. -/
def advance (n : Nat) (s : State) : State :=
  match s.request with
  | .stream => s.mapHost fun h => { h with pos := h.pos + n }
  | _ => { s with request := .none }

/-- A step in which nothing is fetched: the block waits (R170), or the host skips the file header, or ends the
parse because it is cancelled or meets an I/O error (R145, R146), or has ended it. -/
def withoutFetch (s : State) : State :=
  match s.request with
  | .stream =>
    match s.host.phase with
    | .header => beginParse s
    | .records =>
      if s.host.cancel then s.mapHost Container.ended
      else if s.host.ioError then s.mapHost (Container.failedWith .ioFailure)
      else s
    | .finished _ => s
  | _ => s

/-- A step whose bytes are no instruction: a record cut off by the end of the stream ends the parse (R145); a
slice shorter than a header fails with `TRUNC_HDR` (R113); anything else is refused. -/
def undecoded (why : DecodeError) (s : State) : Host.Outcome State Fault Refusal :=
  match s.request with
  | .stream => .next (s.mapHost Container.ended)
  | .slice => .next (failExit .truncHdr { s with request := .none })
  | _ => .refused (.undecodable why)

/-- Present the instruction whose low `nbits` bits are `w` and whose further bits are zero: the width names the
format, as in `decodeTableWord`. A record is stored at the stream cursor with zeros after it and the dispatch
loop is entered; a header is stored at the start of the slice. -/
def presentWord (s : State) (nbits w : Nat) : State :=
  match nbits with
  | 4 => { s with request := .trace (natBytes 4 w 6) }
  | 8 =>
    { s with
      mem := (s.mem.clearRange s.host.pos Config.maxInstrLen).writeBytes s.host.pos (natBytes 8 w 1)
      host :=
        { s.host with
          streamLen := max s.host.streamLen (s.host.pos + Config.maxInstrLen)
          phase := .records
          cancel := false
          ioError := false }
      request := .stream }
  | 18 => { s with request := .command (BitVec.ofNat 18 w) }
  | 24 => { s with request := .command (BitVec.ofNat 18 w) }
  | 48 =>
    { s with
      mem := s.mem.writeBytes s.inBase (natBytes 48 w 6)
      len := if s.len.toNat < Config.hdrLen then 6 else s.len
      request := .slice }
  | _ => s

end Sys2Proof.Machine
end

