-- ==== Sys2Proof/Machine/Step.lean ====
section
/-! DEFINITION. One step of the machine, and the placing of one instruction for the next step. -/

namespace Sys2Proof.Machine

/-- One step: one command (D1), one micro-operation of a trace, one header, or one iteration of the host's
dispatch loop (R132). -/
def step (s : State) : Host.Outcome State Fault Refusal :=
  match fetch s with
  | none => .next (withoutFetch s)
  | some (.ok (i, n)) => exec i (advance n s)
  | some (.error why) => undecoded why s

/-- `s` with the instruction of a row of spec/opcode_table.json presented to the next step (log 8). -/
def State.withFetchWord (s : State) (nbits w : Nat) : State := presentWord s nbits w

end Sys2Proof.Machine
end

