-- ==== Sys2Proof/Safety.lean ====
section
/-! DEFINITION. What counts as a good state and as a well-formed block, in the terms claims use. The second half
says what a block's bytes decode to with lists of bytes and integers alone: no register, no cursor, no search,
no loop of the sequencer. -/

namespace Sys2Proof

open Sys2Proof.Machine

/-! ## Good states -/

/-- A symbol register holds a value of `[-128, 128]` (R27). -/
def symbolRegisterOk (v : BitVec 9) : Prop := -128 ≤ v.toInt ∧ v.toInt ≤ 128

/-- What every step keeps. -/
structure Inv (s : State) : Prop where
  /-- the byte memory keeps its canonical form -/
  memCanonical : s.mem.wf = true
  /-- the slots of `OUT` keep theirs -/
  outCanonical : OutBuffer.wf s.out = true
  /-- `CUR <= LEN` (R13) -/
  cursorInSlice : s.blk.cur.toNat ≤ s.len.toNat
  /-- `CAUSE` is a cause exactly when `STATUS = ERR` (R25) -/
  causeIffErr : s.blk.status = .err ↔ s.blk.cause ≠ .none
  /-- both counts are 0 unless the last `DECBLK` succeeded (R26) -/
  countsOnlyWhenDone : s.blk.status ≠ .done → s.blk.resBytes = 0 ∧ s.blk.resSamples = 0
  /-- `RES_BYTES` is 6 or more and at most `LEN` after a success (R118) -/
  bytesWhenDone : s.blk.status = .done → 6 ≤ s.blk.resBytes.toNat ∧ s.blk.resBytes.toNat ≤ s.len.toNat
  /-- the triple buffer holds symbols (R27) -/
  symbolsInRange : symbolRegisterOk s.blk.sym.x ∧ symbolRegisterOk s.blk.sym.y ∧ symbolRegisterOk s.blk.sym.z
  /-- the stream cursor is in the stream -/
  streamCursor : s.host.pos ≤ s.host.streamLen

/-! ## What bytes decode to -/

/-- The bytes of the slice `IN[0 .. LEN-1]` (R40). -/
def sliceOf (s : State) : List Byte := s.mem.readBytes s.inBase s.len.toNat

/-- The bytes of the slice from the cursor on. -/
def unreadOf (s : State) : List Byte := (sliceOf s).drop s.blk.cur.toNat

/-- The container stream from the cursor to its end, as far as one slice reaches (R14, R180). -/
def streamRest (s : State) : List Byte :=
  s.mem.readBytes s.host.pos (min (streamLeft s) Config.lenMax)

/-- Renormalization of a register value over a list of bytes (R91): bytes enter most significant first until
the value is at least `2^23`; nothing where the list ends first. -/
def refill : Nat → List Byte → Option (Nat × List Byte)
  | r, [] => if 2 ^ 23 ≤ r then some (r, []) else none
  | r, b :: rest => if 2 ^ 23 ≤ r then some (r, b :: rest) else refill (r * 256 + b.toNat) rest

/-- `cum` lies in the interval of `x` (R83). -/
def inInterval (p : Params) (m cum : Nat) (x : Int) : Prop :=
  -128 ≤ x ∧ x ≤ 128 ∧ romAt p m x ≤ cum ∧ cum < romAt p m (x + 1)

/-- The register value after symbol `x`, before renormalization (R90). -/
def symbolUpdate (p : Params) (m r : Nat) (x : Int) : Nat :=
  (romAt p m (x + 1) - romAt p m x) * (r / 2 ^ p.scale) + (r % 2 ^ p.scale - romAt p m x)

/-- From register value `r` and unread bytes, the symbols `xs` decode in order, leaving `r'` and `left`
(R83, R90, R91). -/
def decodesSymbols (p : Params) (m : Nat) : Nat → List Byte → List Int → Nat → List Byte → Prop
  | r, bytes, [], r', left => r = r' ∧ bytes = left
  | r, bytes, x :: xs, r', left =>
    inInterval p m (r % 2 ^ p.scale) x ∧ x ≠ -128 ∧
      ∃ r1 bytes1, refill (symbolUpdate p m r x) bytes = some (r1, bytes1) ∧
        decodesSymbols p m r1 bytes1 xs r' left

/-- The symbols of triples in the order of decoding: x, y, z of each (R107). -/
def symbolsOf (ts : List (Triple Int)) : List Int := ts.flatMap fun t => [t.x, t.y, t.z]

/-- A triple with an escape on some axis (R101). -/
def escapes (t : Triple Int) : Bool :=
  decide (t.x.natAbs = 127) || decide (t.y.natAbs = 127) || decide (t.z.natAbs = 127)

/-- The delta a symbol stands for: +128 is -128 under `WRAP_NEG128` (R106). -/
def deltaOf (mode : Sym128Mode) (x : Int) : Int :=
  if x = 128 ∧ mode = .wrapNeg128 then -128 else x

/-- One axis moved by a delta: the exact sum (R100). -/
def movedSum (mode : Sym128Mode) (qs : Nat) (w : Word) (x : Int) : Int :=
  w.toInt + deltaOf mode x * 2 ^ qs

/-- The integrator moved by a triple (R100). -/
def moved (mode : Sym128Mode) (qs : Nat) (w : Triple Word) (t : Triple Int) : Triple Word :=
  ⟨wrap32 (movedSum mode qs w.x t.x), wrap32 (movedSum mode qs w.y t.y),
    wrap32 (movedSum mode qs w.z t.z)⟩

/-- The integrator after all the triples. -/
def movedAll (mode : Sym128Mode) (qs : Nat) (w : Triple Word) (ts : List (Triple Int)) : Triple Word :=
  ts.foldl (moved mode qs) w

/-- The samples of the triples: the integrator after each triple that does not escape (R103). -/
def samplesOf (mode : Sym128Mode) (qs : Nat) : Triple Word → List (Triple Int) → List (Triple Word)
  | _, [] => []
  | w, t :: ts =>
    if escapes t then samplesOf mode qs (moved mode qs w t) ts
    else moved mode qs w t :: samplesOf mode qs (moved mode qs w t) ts

/-- A number outside `i32`. -/
def outsideI32 (t : Int) : Bool := decide (t < -2 ^ 31) || decide (2 ^ 31 - 1 < t)

/-- Some axis of some triple overflows (R104). -/
def overflowsAny (mode : Sym128Mode) (qs : Nat) : Triple Word → List (Triple Int) → Bool
  | _, [] => false
  | w, t :: ts =>
    outsideI32 (movedSum mode qs w.x t.x) || outsideI32 (movedSum mode qs w.y t.y) ||
      outsideI32 (movedSum mode qs w.z t.z) || overflowsAny mode qs (moved mode qs w t) ts

/-- `bytes` is a block of `n` samples with the triples `ts`, followed by the bytes `left` (R61, R62, R112): a
legal header; a payload from which the symbols of `ts` decode; `n` triples that do not escape, the last triple
one of them (R123); no symbol +128 where the mode rejects it (R106); the header's checksum (R116). -/
structure BlockDecodes (p : Params) (bytes : List Byte) (n : Nat) (qs : Nat) (ts : List (Triple Int))
    (left : List Byte) : Prop where
  /-- the six header bytes and the bytes after them -/
  decodes : ∃ b0 b1 b2 b3 b4 b5 payload r,
    bytes = b0 :: b1 :: b2 :: b3 :: b4 :: b5 :: payload ∧ qs = b0.toNat ∧ b1.toNat % 32 < 16 ∧
      decodesSymbols p (b1.toNat % 32)
        (b2.toNat + 2 ^ 8 * b3.toNat + 2 ^ 16 * b4.toNat + 2 ^ 24 * b5.toNat) payload (symbolsOf ts) r left ∧
      ((symbolsOf ts).sum - (b1.toNat / 32 : Nat)) % 8 = 0
  /-- one sample for each triple that does not escape -/
  count : (ts.filter fun t => !escapes t).length = n
  /-- no chain is open at the end -/
  closed : ∀ t, ts.getLast? = some t → escapes t = false
  /-- no rejected symbol -/
  accepted : p.sym128 = .fault → (128 : Int) ∉ symbolsOf ts

end Sys2Proof
end

