-- ==== Sys2Proof/Certificates/Slice0/Obligations.lean ====
section
/-! DEFINITION. The statements for the provers. Each cites the rules of spec/ it formalises. -/

open Sys2Proof Sys2Proof.Machine

/-! ## Encoding -/

/-- Every well-formed instruction is read back from its own bytes, whatever follows them (R63 to R66). The
operand bytes of trace entries and the three bytes of a command word are the model's choice (logs 9 and 11). -/
def Obligations.DecodeOfEncodedInstructionIsIt : Prop :=
  ∀ (i : Instr) (rest : List Byte), i.wellFormed = true →
    decode i.format (accCountOf i) (encode i ++ rest) = .ok (i, (encode i).length)

/-- The other direction: what the decoder accepts is well formed, of the format asked for, and its encoding is
the bytes it was read from, so that no bit of them was dropped. The operand bytes of trace entries and the three
bytes of a command word are the model's choice (logs 9 and 11). -/
def Obligations.EncodingOfDecodedBytesIsTheBytes : Prop :=
  ∀ (f : Format) (count : Nat) (bytes : List Byte) (i : Instr) (n : Nat), count ≤ 255 →
    decode f count bytes = .ok (i, n) →
      i.wellFormed = true ∧ i.format = f ∧ n ≤ bytes.length ∧ encode i = bytes.take n

/-- Words written out from the spec's encodings decode to their instructions (R61, R63, R64, R65). The three
bytes of a command word are the model's choice (log 11). -/
def Obligations.WrittenWordsDecodeToTheirInstructions : Prop :=
  decode .cmd 0 [0x02, 0x00, 0x02] = .ok (.decblk 2, 3) ∧
    decode .cmd 0 [0xFF, 0xFF, 0x03] = .ok (.reservedCmd 65535, 3) ∧
    decode .uop 0 [0x09] = .ok (.verify, 1) ∧
    decode .record 0 [0x01, 0x01, 0x2C, 0x01] = .ok (.setup 1 300, 4) ∧
    decode .record 0 [0x06, 0x24, 0xFA, 0xFF, 0xFF] = .ok (.toff (BitVec.ofInt 32 (-1500)), 5) ∧
    decode .block 0 [0x03, 0x85, 0xE4, 0x43, 0x18, 0x02] = .ok (.blk 3 4 5 0x021843E4, 6)

/-- A trace entry whose code names nothing is refused (R64: "Codes `0x0` and `0xA` to `0xF` name nothing"). That
it is a refusal is the model's choice (log 9). -/
def Obligations.UnnamedTraceCodesAreRefused : Prop :=
  ∀ (s : State) (code : Byte) (rest : List Byte), s.request = .trace (code :: rest) →
    (code.toNat = 0 ∨ 0xA ≤ code.toNat) → step s = .refused (.undecodable .unnamedUop)

/-! ## The step -/

/-- A step runs the instruction that is presented: the command word on the port; the named micro-operation of a
trace entry; the header at the start of the slice; the record at the stream cursor, which moves past it. What is
presented is the model's own field (log 8). -/
def Obligations.StepRunsTheDecodedInstruction : Prop :=
  ∀ (s : State) (i : Instr) (n : Nat),
    (∀ w, s.request = .command w → step s = exec (decodeCmd w) { s with request := .none }) ∧
    (∀ entry, s.request = .trace entry → decode .uop 0 entry = .ok (i, n) →
      step s = exec i { s with request := .none }) ∧
    (s.request = .slice → decode .block 0 (sliceOf s) = .ok (i, n) →
      step s = exec i { s with request := .none }) ∧
    (s.request = .stream → s.host.phase = .records → s.host.cancel = false → s.host.ioError = false →
      decode .record s.host.accCount.toNat (s.mem.readBytes s.host.pos (streamLeft s)) = .ok (i, n) →
        step s = exec i { s with host := { s.host with pos := s.host.pos + n } })

/-- The host's steps that run no instruction (R131, R132, R145, R146): the file header is skipped, `CLR` issued
once and the parse begun from R130's values; a stream of fewer than seven bytes ends it; an I/O error is a hard
failure with no samples; cancellation, and a record cut off by the end of the stream, end the parse with what
was flushed, as a failure exactly when both output lists are empty; a parse that has ended stays ended. The
zeros of the capacity, of `count` and of `range_exp` at the start of a parse are the model's choice (log 5), and
so are the outcome after a cancellation and the empty lists after an I/O error (logs 24 and 25). That a record
cut off by the end of the stream is dropped whole, complete triples of a cut `ACC` too, with the cursor left at
its tag, is the model's reading (log 31). -/
def Obligations.HostStepsOutsideRecords : Prop :=
  ∀ s : State, s.request = .stream →
    (s.host.phase = .header → s.host.ioError = false → 7 ≤ streamLeft s →
      step s = .next { s with
        blk := { s.blk with
          regS := ⟨0, 0, 0⟩, ovf := false, status := .idle, cause := .none, resBytes := 0, resSamples := 0 }
        host := { s.host with
          clockUs := 0, gyroBuf := [], accBuf := [], capacity := 0, accCount := 0, rangeExp := 0,
          orient := ⟨0x78, 0x79, 0x7A⟩, gyroOut := [], accOut := [],
          pos := s.host.pos + 7, phase := .records } }) ∧
    (s.host.phase = .header → s.host.ioError = false → streamLeft s < 7 →
      step s = .next { s with
        host := { s.host with
          clockUs := 0, gyroBuf := [], accBuf := [], capacity := 0, accCount := 0, rangeExp := 0,
          orient := ⟨0x78, 0x79, 0x7A⟩, gyroOut := [], accOut := [], phase := .finished .noSamples } }) ∧
    (s.host.phase = .header ∨ s.host.phase = .records ∧ s.host.cancel = false → s.host.ioError = true →
      step s = .next { s with
        host := { s.host with phase := .finished .ioFailure, gyroOut := [], accOut := [] } }) ∧
    (s.host.phase = .records → s.host.cancel = true ∨
        s.host.ioError = false ∧ decode .record s.host.accCount.toNat
          (s.mem.readBytes s.host.pos (streamLeft s)) = .error .truncated →
      step s = .next { s with
        host := { s.host with
          phase := .finished (if s.host.gyroOut = [] ∧ s.host.accOut = [] then .noSamples else .success) } }) ∧
    (∀ o, s.host.phase = .finished o → step s = .next s)

/-- A slice presented for its header that is shorter than 6 bytes fails with `TRUNC_HDR` whatever its bytes
(R69, R113). That a header can be presented by itself is the model's choice (log 12). -/
def Obligations.SliceTooShortForAHeaderFails : Prop :=
  ∀ s : State, s.request = .slice → s.len.toNat < 6 →
    step s = .next { s with
      request := .none
      blk := { s.blk with status := .err, cause := .truncHdr, resBytes := 0, resSamples := 0 } }

/-- Reset (R170): the values it gives the host-visible registers, and that nothing happens until something is
presented ("After reset the block executes nothing until a command arrives"); with them the host's clock and
orientation, which start as R130 says. -/
def Obligations.ResetLeavesTheStatedValues : Prop :=
  State.reset.blk.regS = ⟨0, 0, 0⟩ ∧ State.reset.blk.ovf = false ∧ State.reset.blk.status = .idle ∧
    State.reset.blk.cause = .none ∧ State.reset.blk.resBytes = 0 ∧ State.reset.blk.resSamples = 0 ∧
    State.reset.host.clockUs = 0 ∧ State.reset.host.orient = ⟨0x78, 0x79, 0x7A⟩ ∧
    ∀ k : Nat, Sys2Proof.core.run k State.reset = .next State.reset

/-- The tables (R81): P1, P2 and P3, and what follows from them for every table of every configuration. -/
def Obligations.TablesMeetTheirConstraints : Prop :=
  ∀ (p : Params) (m : Nat), m < 16 →
    romAt p m (-128) = 0 ∧ romAt p m 129 = 2 ^ p.scale ∧
      (∀ x : Int, -128 ≤ x → x ≤ 128 → romAt p m x < romAt p m (x + 1)) ∧
      (∀ x : Int, -128 ≤ x → x ≤ 128 →
        x + 128 ≤ romAt p m x ∧ (romAt p m x : Int) ≤ 2 ^ p.scale - 129 + x ∧
          (1 : Int) ≤ romAt p m (x + 1) - romAt p m x ∧
          (romAt p m (x + 1) : Int) - romAt p m x ≤ 2 ^ p.scale - 256) ∧
      ((List.range 257).map fun k : Nat => romAt p m ((k : Int) - 127) - romAt p m ((k : Int) - 128)).sum =
        2 ^ p.scale ∧
      257 ≤ 2 ^ p.scale ∧ 9 ≤ p.scale

/-- The invariant holds after reset. Its clauses about `CUR`, `LEN`, `SYM` and the stream cursor hold by values
of the model's choice (logs 4, 5 and 6). -/
def Obligations.ResetMeetsTheInvariant : Prop := Inv State.reset

/-- Every step keeps the invariant: canonical memory and slots, `CUR <= LEN` (R13), `CAUSE` non-zero exactly when
`STATUS = ERR` (R25), both counts zero unless `DONE` (R26), `6 <= RES_BYTES <= LEN` after a success (R118), the
range of `SYM` (R27), the stream cursor in the stream. -/
def Obligations.EveryStepKeepsTheInvariant : Prop :=
  ∀ s t : State, Inv s → step s = .next t → Inv t

/-- No step writes the bytes the slice lies in, or a parameter or table entry (R10, R28, R42, R55). -/
def Obligations.NoStepWritesInputOrTables : Prop :=
  ∀ s t : State, step s = .next t → t.mem = s.mem ∧ t.params = s.params

/-- `S` is written only by `CLR` and by a `DECBLK` that ends `DONE`, issued by a command or by a `GYRO` record
(R11). -/
def Obligations.CommittedStateWrittenOnlyByClrOrSuccess : Prop :=
  ∀ (i : Instr) (s t : State), exec i s = .next t → t.blk.regS ≠ s.blk.regS →
    ((∃ n, i = .clr n) ∧ t.blk.regS = ⟨0, 0, 0⟩) ∨
      (((∃ n, i = .decblk n) ∨ i = .gyro) ∧ t.blk.status = .done ∧ t.blk.regS = t.blk.regW)

/-- `OVF` is cleared only by reset and by `CLR` (R16). -/
def Obligations.OverflowFlagClearedOnlyByClr : Prop :=
  ∀ (i : Instr) (s t : State), exec i s = .next t → s.blk.ovf = true → t.blk.ovf = false →
    ∃ n, i = .clr n

/-- Commands, micro-operations and headers leave the host alone, and records other than `GYRO` leave the block's
registers alone. -/
def Obligations.BlockAndHostWriteOnlyTheirOwn : Prop :=
  ∀ (i : Instr) (s t : State), exec i s = .next t →
    (i.format ≠ .record → t.host = s.host) ∧ (i.format = .record → i ≠ .gyro → t.blk = s.blk)

/-- Every instruction completes from every state, but for one form: a `DECSYM` issued alone while `MI` selects
no table. Nothing else stops the model, and no data does. The model's choices it rests on: that this one stops
(log 14); that a micro-operation which fails when issued alone takes the failure exit (log 9); that a block
header presented by itself is loaded (log 12); that `ICDF` of a value of `2^SCALE` or more (log 13), `DT` of 0
with gyroscope samples waiting (log 17) and `ACC` with a word of -32768 (log 18) complete, with free values.
That `RENORM`, `DECSYM` and the decode of a `GYRO` record end is R91 and R97; what the records do is R133 to
R141. -/
def Obligations.OnlyDecsymWithoutATableStops : Prop :=
  ∀ (i : Instr) (s : State), (i = .decsym → s.blk.mi.toNat < 16) → ∃ t, exec i s = .next t

/-! ## Commands -/

/-- `NOP` (R110): `op = 0b00`, whatever `n`; "No state changes, `STATUS` and `CAUSE` included". -/
def Obligations.NopChangesNothing : Prop :=
  ∀ (n : BitVec 16) (s : State), decodeCmd (0b00#2 ++ n) = .nop n ∧ exec (.nop n) s = .next s

/-- `CLR` (R111): `op = 0b01`, whatever `n`; the six host-visible values; internal registers are not touched. -/
def Obligations.ClrZeroesTheVisibleState : Prop :=
  ∀ (n : BitVec 16) (s : State), decodeCmd (0b01#2 ++ n) = .clr n ∧
    exec (.clr n) s = .next { s with blk := { s.blk with
      regS := ⟨0, 0, 0⟩, ovf := false, status := .idle, cause := .none, resBytes := 0, resSamples := 0 } }

/-- The reserved command word (R122): `op = 0b11`, whatever `n`; four result registers change and nothing else. -/
def Obligations.ReservedCommandFailsWithBadCmd : Prop :=
  ∀ (n : BitVec 16) (s : State), decodeCmd (0b11#2 ++ n) = .reservedCmd n ∧
    exec (.reservedCmd n) s = .next { s with blk := { s.blk with
      status := .err, cause := .badCmd, resBytes := 0, resSamples := 0 } }

/-- Every command ends (R183): `DECBLK` in `DONE` or `ERR`, from every state and with every slice. -/
def Obligations.EveryCommandEnds : Prop :=
  ∀ (n : BitVec 16) (s : State),
    (∃ t, exec (.nop n) s = .next t) ∧ (∃ t, exec (.clr n) s = .next t) ∧
      (∃ t, exec (.reservedCmd n) s = .next t) ∧
      ∃ t, exec (.decblk n) s = .next t ∧ (t.blk.status = .done ∨ t.blk.status = .err)

/-- The failure exit of `DECBLK` (R153): `S` keeps its value, both counts are zero, one of the six causes stands,
`OVF` is not cleared. -/
def Obligations.FailedDecblkKeepsCommittedState : Prop :=
  ∀ (n : BitVec 16) (s t : State), exec (.decblk n) s = .next t → t.blk.status = .err →
    t.blk.regS = s.blk.regS ∧ t.blk.resBytes = 0 ∧ t.blk.resSamples = 0 ∧
      (t.blk.cause = .truncHdr ∨ t.blk.cause = .badModel ∨ t.blk.cause = .sentinel ∨
        t.blk.cause = .truncRenorm ∨ t.blk.cause = .sym128 ∨ t.blk.cause = .checksum) ∧
      (s.blk.ovf = true → t.blk.ovf = true)

/-- What a successful `DECBLK n` leaves (R117, R118, R123): `n` samples, at least 6 bytes and no more than the
slice consumed, and `S` equal to the last sample. -/
def Obligations.SuccessfulDecblkCommits : Prop :=
  ∀ (n : BitVec 16) (s t : State), exec (.decblk n) s = .next t → t.blk.status = .done →
    t.blk.cause = .none ∧ t.blk.resSamples = n ∧ 6 ≤ t.blk.resBytes.toNat ∧
      t.blk.resBytes.toNat ≤ s.len.toNat ∧ t.blk.regS = t.blk.regW ∧
      (∀ k, k < n.toNat → ∃ v, outSlot t k = some v) ∧
      (n ≠ 0 → outSlot t (n.toNat - 1) = some t.blk.regS)

/-- What no `DECBLK n` touches, whether it succeeds or fails: the slice, the parameters, the host, and the slots
from `n` on (R28, R41, R177). -/
def Obligations.DecblkLeavesTheRestAlone : Prop :=
  ∀ (n : BitVec 16) (s t : State), exec (.decblk n) s = .next t →
    t.params = s.params ∧ t.mem = s.mem ∧ t.inBase = s.inBase ∧ t.len = s.len ∧ t.host = s.host ∧
      t.request = s.request ∧ t.ret = s.ret ∧ t.freeCtr = s.freeCtr ∧
      ∀ k, n.toNat ≤ k → outSlot t k = outSlot s k

/-- `DECBLK 0` (R119): with a legal header no symbol is decoded; it ends `DONE` with 6 bytes, no samples and `S`
unchanged if the header's checksum field is 0, and fails with `CHECKSUM` otherwise. Failures of `HDR` come
first. -/
def Obligations.DecblkOfNoSamples : Prop :=
  ∀ s : State,
    (s.len.toNat < 6 → ∃ t, exec (.decblk 0) s = .next t ∧ t.blk.status = .err ∧ t.blk.cause = .truncHdr) ∧
    (6 ≤ s.len.toNat → 16 ≤ (s.mem.read (s.inBase + 1)).toNat % 32 →
      ∃ t, exec (.decblk 0) s = .next t ∧ t.blk.status = .err ∧ t.blk.cause = .badModel) ∧
    (6 ≤ s.len.toNat → (s.mem.read (s.inBase + 1)).toNat % 32 < 16 →
      (s.mem.read (s.inBase + 1)).toNat / 32 = 0 →
      ∃ t, exec (.decblk 0) s = .next t ∧ t.blk.status = .done ∧ t.blk.cause = .none ∧
        t.blk.regS = s.blk.regS ∧ t.blk.resBytes = 6 ∧ t.blk.resSamples = 0 ∧ t.blk.ovf = s.blk.ovf ∧
        t.blk.ck = 0 ∧ t.out = s.out) ∧
    (6 ≤ s.len.toNat → (s.mem.read (s.inBase + 1)).toNat % 32 < 16 →
      (s.mem.read (s.inBase + 1)).toNat / 32 ≠ 0 →
      ∃ t, exec (.decblk 0) s = .next t ∧ t.blk.status = .err ∧ t.blk.cause = .checksum ∧
        t.blk.regS = s.blk.regS)

/-- The header failures of `DECBLK n` for every `n` (R69, R113, R154): a slice shorter than 6 bytes fails with
`TRUNC_HDR` whatever its bytes, a model index of 16 or more with `BAD_MODEL` whatever the payload; no sample is
written. -/
def Obligations.HeaderFailuresComeFirst : Prop :=
  ∀ (n : BitVec 16) (s : State),
    (s.len.toNat < 6 → ∃ t, exec (.decblk n) s = .next t ∧ t.blk.status = .err ∧
      t.blk.cause = .truncHdr ∧ t.blk.regS = s.blk.regS ∧ t.blk.ovf = s.blk.ovf ∧ t.out = s.out) ∧
    (6 ≤ s.len.toNat → 16 ≤ (s.mem.read (s.inBase + 1)).toNat % 32 →
      ∃ t, exec (.decblk n) s = .next t ∧ t.blk.status = .err ∧ t.blk.cause = .badModel ∧
        t.blk.regS = s.blk.regS ∧ t.blk.ovf = s.blk.ovf ∧ t.out = s.out)

/-- A well-formed block decodes (R112, R121): from the triples that the slice's bytes decode to, `DECBLK n` ends
`DONE`, commits the integrator moved by all of them, writes the samples and reports the bytes before `left`. -/
def Obligations.DecblkDecodesWellFormedBlocks : Prop :=
  ∀ (n : BitVec 16) (s : State) (qs : Nat) (ts : List (Triple Int)) (left : List Byte),
    BlockDecodes s.params (sliceOf s) n.toNat qs ts left →
      ∃ t, exec (.decblk n) s = .next t ∧ t.blk.status = .done ∧ t.blk.cause = .none ∧
        t.blk.regS = movedAll s.params.sym128 qs s.blk.regS ts ∧
        t.blk.resBytes.toNat = s.len.toNat - left.length ∧ t.blk.resSamples = n ∧
        t.blk.ovf = (s.blk.ovf || overflowsAny s.params.sym128 qs s.blk.regS ts) ∧
        (∀ k, k < n.toNat → outSlot t k = (samplesOf s.params.sym128 qs s.blk.regS ts)[k]?) ∧
        (∀ k, n.toNat ≤ k → outSlot t k = outSlot s k) ∧
        t.params = s.params ∧ t.mem = s.mem ∧ t.inBase = s.inBase ∧ t.len = s.len ∧ t.host = s.host ∧
        t.request = s.request ∧ t.ret = s.ret ∧ t.freeCtr = s.freeCtr

/-- Only a well-formed block decodes: a `DECBLK n` that ends `DONE` had a slice whose bytes decode to triples,
and it consumed the bytes before `left` (R112, R116, R118, R121). -/
def Obligations.OnlyWellFormedBlocksSucceed : Prop :=
  ∀ (n : BitVec 16) (s t : State), exec (.decblk n) s = .next t → t.blk.status = .done →
    ∃ qs ts left, BlockDecodes s.params (sliceOf s) n.toNat qs ts left ∧
      left.length + t.blk.resBytes.toNat = s.len.toNat ∧
      t.blk.regS = movedAll s.params.sym128 qs s.blk.regS ts

/-- Determinism (R120): the result of `DECBLK n` is a function of `S`, the slice's bytes, `n` and the
parameters; no other register, no earlier `OVF` and no place in memory affects it. `OUT` is compared on the slots
that the command wrote, `NOUT` of them, whether it succeeded or failed. -/
def Obligations.DecblkDependsOnItsInputsOnly : Prop :=
  ∀ (n : BitVec 16) (s s' : State), s'.params = s.params → sliceOf s' = sliceOf s →
    s'.blk.regS = s.blk.regS →
      ∃ t t', exec (.decblk n) s = .next t ∧ exec (.decblk n) s' = .next t' ∧
        t'.blk.regS = t.blk.regS ∧ t'.blk.status = t.blk.status ∧ t'.blk.cause = t.blk.cause ∧
        t'.blk.resBytes = t.blk.resBytes ∧ t'.blk.resSamples = t.blk.resSamples ∧
        (s'.blk.ovf = s.blk.ovf → t'.blk.ovf = t.blk.ovf) ∧
        t'.blk.nout = t.blk.nout ∧ (t.blk.status = .done → t.blk.nout = n) ∧
        ∀ k, k < t.blk.nout.toNat → outSlot t' k = outSlot t k

/-- No byte at or above the final `CUR` is read (R48): a success depends on the first `RES_BYTES` bytes of the
slice only. -/
def Obligations.BytesPastTheBlockAreNotRead : Prop :=
  ∀ (n : BitVec 16) (s s' t : State), exec (.decblk n) s = .next t → t.blk.status = .done →
    s'.params = s.params → s'.blk.regS = s.blk.regS →
    (sliceOf s').take t.blk.resBytes.toNat = (sliceOf s).take t.blk.resBytes.toNat →
      ∃ t', exec (.decblk n) s' = .next t' ∧ t'.blk.status = .done ∧ t'.blk.regS = t.blk.regS ∧
        t'.blk.resBytes = t.blk.resBytes ∧ t'.blk.resSamples = t.blk.resSamples ∧
        ∀ k, k < n.toNat → outSlot t' k = outSlot t k

/-! ## Header -/

/-- `HDR` on a slice of at least 6 bytes with a legal model index (R66, R113). -/
def Obligations.HdrLoadsTheHeaderFields : Prop :=
  ∀ s : State, 6 ≤ s.len.toNat → (s.mem.read (s.inBase + 1)).toNat % 32 < 16 →
    exec .hdr s = .next { s with blk := { s.blk with
      qs := s.mem.read s.inBase
      hck := BitVec.ofNat 3 ((s.mem.read (s.inBase + 1)).toNat / 32)
      mi := BitVec.ofNat 5 ((s.mem.read (s.inBase + 1)).toNat % 32)
      rstate := BitVec.ofNat 32 ((s.mem.read (s.inBase + 2)).toNat +
        2 ^ 8 * (s.mem.read (s.inBase + 3)).toNat + 2 ^ 16 * (s.mem.read (s.inBase + 4)).toNat +
        2 ^ 24 * (s.mem.read (s.inBase + 5)).toNat)
      cur := 6 } }

/-- Where `HDR` fails (R69, R113): a short slice before any field is loaded, a reserved model index after. That
an operation issued alone takes the failure exit is the model's choice (log 9). -/
def Obligations.HdrFailsOnShortOrReserved : Prop :=
  ∀ s : State,
    (s.len.toNat < 6 → exec .hdr s = .next { s with blk := { s.blk with
      status := .err, cause := .truncHdr, resBytes := 0, resSamples := 0 } }) ∧
    (6 ≤ s.len.toNat → 16 ≤ (s.mem.read (s.inBase + 1)).toNat % 32 →
      exec .hdr s = .next { s with blk := { s.blk with
        qs := s.mem.read s.inBase
        hck := BitVec.ofNat 3 ((s.mem.read (s.inBase + 1)).toNat / 32)
        mi := BitVec.ofNat 5 ((s.mem.read (s.inBase + 1)).toNat % 32)
        rstate := BitVec.ofNat 32 ((s.mem.read (s.inBase + 2)).toNat +
          2 ^ 8 * (s.mem.read (s.inBase + 3)).toNat + 2 ^ 16 * (s.mem.read (s.inBase + 4)).toNat +
          2 ^ 24 * (s.mem.read (s.inBase + 5)).toNat)
        cur := 6, status := .err, cause := .badModel, resBytes := 0, resSamples := 0 } })

/-- A header presented by itself loads the same fields (R66), with the same test of the model index (R69). That
the row stands for this load is the model's choice (log 12). -/
def Obligations.BlkLoadsItsFields : Prop :=
  ∀ (q : Byte) (c : BitVec 3) (m : BitVec 5) (seed : Word) (s : State),
    (m.toNat < 16 → exec (.blk q c m seed) s = .next { s with blk := { s.blk with
      qs := q, hck := c, mi := m, rstate := seed, cur := 6 } }) ∧
    (16 ≤ m.toNat → exec (.blk q c m seed) s = .next { s with blk := { s.blk with
      qs := q, hck := c, mi := m, rstate := seed, cur := 6,
      status := .err, cause := .badModel, resBytes := 0, resSamples := 0 } })

/-! ## CDF model -/

/-- `CDF(m, x)` (R80): 0 up to -128, `2^SCALE` above 128, the table entry between; no register is written, the
result goes to the trace. -/
def Obligations.CdfLooksUpTheTable : Prop :=
  ∀ (m : BitVec 4) (x : Word) (s : State), ∃ c : Nat,
    exec (.cdf m x) s = .next { s with ret := .value c } ∧
      (x.toInt ≤ -128 → c = 0) ∧ (128 < x.toInt → c = 2 ^ s.params.scale) ∧
      (-128 < x.toInt → x.toInt ≤ 128 → c = romAt s.params m.toNat x.toInt)

/-- Monotonicity (R86). -/
def Obligations.CdfIsMonotoneWithoutEmptyBuckets : Prop :=
  ∀ (p : Params) (m : Nat), m < 16 →
    (∀ x1 x2 : Int, x1 < x2 → cdf p m x1 ≤ cdf p m x2) ∧
      ∀ x : Int, -128 ≤ x → x ≤ 128 → cdf p m x < cdf p m (x + 1)

/-- `ICDF(m, y)` (R83): for `y < 2^SCALE` there is exactly one symbol whose interval holds `y`, and it is the
result; no register is written. -/
def Obligations.IcdfFindsTheUniqueSymbol : Prop :=
  ∀ (m : BitVec 4) (y : Word) (s : State), y.toNat < 2 ^ s.params.scale →
    ∃ x : Int, exec (.icdf m y) s = .next { s with ret := .value x } ∧
      -128 ≤ x ∧ x ≤ 128 ∧ cdf s.params m.toNat x ≤ y.toNat ∧ y.toNat < cdf s.params m.toNat (x + 1) ∧
      ∀ z : Int, -128 ≤ z → z ≤ 128 → cdf s.params m.toNat z ≤ y.toNat →
        y.toNat < cdf s.params m.toNat (z + 1) → z = x

/-- `ICDF` of a value that the `SCALE`-bit port cannot present: the model's choice (log 13), since the spec gives
no result there (D22). The operation completes with some value, writes no register and uses up one free value. -/
def Obligations.IcdfOutsideItsDomainCompletes : Prop :=
  ∀ (m : BitVec 4) (y : Word) (s : State), 2 ^ s.params.scale ≤ y.toNat →
    ∃ x : Int, exec (.icdf m y) s = .next { s with ret := .value x, freeCtr := s.freeCtr + 1 }

/-- Round trip (R87). -/
def Obligations.CdfAndIcdfRoundTrip : Prop :=
  ∀ (p : Params) (m : Nat) (x : Int), m < 16 → -128 ≤ x → x ≤ 128 →
    icdf p m (cdf p m x) = x ∧ icdf p m (cdf p m (x + 1) - 1) = x

/-! ## Range decoder -/

/-- `DECSYM` (R90): with the low `SCALE` bits of `RSTATE` in the interval of a symbol other than -128 and enough
bytes to refill the updated register, it returns that symbol and writes `RSTATE` and `CUR`, nothing else. -/
def Obligations.DecsymReturnsTheSymbol : Prop :=
  ∀ (s : State) (x : Int) (r : Nat) (left : List Byte), s.blk.mi.toNat < 16 → x ≠ -128 →
    s.blk.cur.toNat ≤ s.len.toNat →
    inInterval s.params s.blk.mi.toNat (s.blk.rstate.toNat % 2 ^ s.params.scale) x →
    refill (symbolUpdate s.params s.blk.mi.toNat s.blk.rstate.toNat x) (unreadOf s) = some (r, left) →
      exec .decsym s = .next { s with
        blk := { s.blk with
          rstate := BitVec.ofNat 32 r, cur := BitVec.ofNat 32 (s.len.toNat - left.length) }
        ret := .value x }

/-- With an in-range register, a symbol that is not the sentinel and three bytes left, `DECSYM` does not fail
(R90, R93). -/
def Obligations.DecsymCompletesInRange : Prop :=
  ∀ s : State, s.blk.mi.toNat < 16 → 2 ^ 23 ≤ s.blk.rstate.toNat →
    romAt s.params s.blk.mi.toNat (-127) ≤ s.blk.rstate.toNat % 2 ^ s.params.scale →
    s.blk.cur.toNat + 3 ≤ s.len.toNat →
      ∃ t x, exec .decsym s = .next t ∧ t.ret = .value x ∧ -127 ≤ x ∧ x ≤ 128 ∧
        t.blk.status = s.blk.status ∧ 2 ^ 23 ≤ t.blk.rstate.toNat ∧
        s.blk.cur.toNat ≤ t.blk.cur.toNat ∧ t.blk.cur.toNat ≤ s.blk.cur.toNat + 3

/-- Where `DECSYM` fails (R70, R90): with `SENTINEL` and nothing written when `cum` lies below `ROM(MI, -127)`;
with `TRUNC_RENORM` when the bytes do not refill the register. That an operation issued alone takes the failure
exit is the model's choice (log 9). -/
def Obligations.DecsymFailsOnSentinelOrTruncation : Prop :=
  ∀ s : State, s.blk.mi.toNat < 16 →
    (s.blk.rstate.toNat % 2 ^ s.params.scale < romAt s.params s.blk.mi.toNat (-127) →
      exec .decsym s = .next { s with blk := { s.blk with
        status := .err, cause := .sentinel, resBytes := 0, resSamples := 0 } }) ∧
    (∀ x, x ≠ -128 → inInterval s.params s.blk.mi.toNat (s.blk.rstate.toNat % 2 ^ s.params.scale) x →
      refill (symbolUpdate s.params s.blk.mi.toNat s.blk.rstate.toNat x) (unreadOf s) = none →
        ∃ r c, exec .decsym s = .next { s with blk := { s.blk with
          rstate := r, cur := c, status := .err, cause := .truncRenorm, resBytes := 0, resSamples := 0 } })

/-- The register invariant (R93): a `DECSYM` that does not fail, from a register of at least `2^23`, leaves one of
at least `2^23`, and below `2^31` if it pulled a byte; it pulls at most `ceil(SCALE / 8)` bytes, so at most 3. From
any register, one that pulls no byte lowers it (R92). -/
def Obligations.DecsymKeepsTheRegisterInRange : Prop :=
  ∀ (s t : State) (x : Int), decsym s = .ok x t →
    (2 ^ 23 ≤ s.blk.rstate.toNat →
      2 ^ 23 ≤ t.blk.rstate.toNat ∧ t.blk.rstate.toNat < 2 ^ 32 ∧
        (t.blk.cur ≠ s.blk.cur → t.blk.rstate.toNat < 2 ^ 31) ∧
        t.blk.cur.toNat ≤ s.blk.cur.toNat + (s.params.scale + 7) / 8 ∧
        t.blk.cur.toNat ≤ s.blk.cur.toNat + 3) ∧
      (t.blk.cur = s.blk.cur → t.blk.rstate.toNat < s.blk.rstate.toNat)

/-- A `DECSYM` issued alone with a table selector of 16 to 31 stops the model: there is no such table (R42, R69).
That it stops is the model's choice (log 14); no command reaches it. -/
def Obligations.DecsymWithoutATableStops : Prop :=
  ∀ s : State, 16 ≤ s.blk.mi.toNat → exec .decsym s = .fault .noSuchTable

/-- `RENORM` (R91): it pulls the bytes that bring `RSTATE` to `2^23` or more and writes `RSTATE` and `CUR`,
nothing else; where the slice ends first it fails with `TRUNC_RENORM`. That an operation issued alone takes the
failure exit is the model's choice (log 9). -/
def Obligations.RenormPullsBytesUntilInRange : Prop :=
  ∀ s : State, s.blk.cur.toNat ≤ s.len.toNat →
    (∀ r left, refill s.blk.rstate.toNat (unreadOf s) = some (r, left) →
      exec .renorm s = .next { s with blk := { s.blk with
        rstate := BitVec.ofNat 32 r, cur := BitVec.ofNat 32 (s.len.toNat - left.length) } }) ∧
    (refill s.blk.rstate.toNat (unreadOf s) = none →
      ∃ r, exec .renorm s = .next { s with blk := { s.blk with
        rstate := r, cur := s.len, status := .err, cause := .truncRenorm, resBytes := 0, resSamples := 0 } })

/-! ## Checksum -/

/-- `CKADD(sym)` (R115): `CK <- (CK + sym) mod 256`, and nothing else. -/
def Obligations.CkaddAddsModulo256 : Prop :=
  ∀ (sym : BitVec 9) (s : State),
    ∃ ck : BitVec 8, exec (.ckadd sym) s = .next { s with blk := { s.blk with ck := ck } } ∧
      (ck.toNat : Int) = ((s.blk.ck.toNat : Int) + sym.toInt) % 256

/-- `CK[2:0]` equals the sum of the symbols modulo 8, whatever the order of wrapping (R115). -/
def Obligations.ChecksumIsTheSumModulo8 : Prop :=
  ∀ syms : List Int, ((syms.foldl checksumAdd 0).toNat : Int) % 8 = syms.sum % 8

/-- `VERIFY` (R116): nothing changes if `CK & 7 = HCK`, otherwise the failure exit with `CHECKSUM`. That an
operation issued alone takes the failure exit is the model's choice (log 9). -/
def Obligations.VerifyComparesThreeBits : Prop :=
  ∀ s : State,
    (s.blk.ck.toNat % 8 = s.blk.hck.toNat → exec .verify s = .next s) ∧
    (s.blk.ck.toNat % 8 ≠ s.blk.hck.toNat → exec .verify s = .next { s with blk := { s.blk with
      status := .err, cause := .checksum, resBytes := 0, resSamples := 0 } })

/-! ## Integrator -/

/-- `APPLY` (R100, R101, R104): each lane moves by its symbol times `2^QS`, wrapped to 32 bits; `OVF` is set if a
lane's exact sum is not an `i32`; `sat` is returned if some symbol has magnitude 127; nothing else is written. -/
def Obligations.ApplyMovesEachLane : Prop :=
  ∀ s : State, exec .apply s = .next { s with
    blk := { s.blk with
      regW := ⟨wrap32 (s.blk.regW.x.toInt + s.blk.sym.x.toInt * 2 ^ s.blk.qs.toNat),
        wrap32 (s.blk.regW.y.toInt + s.blk.sym.y.toInt * 2 ^ s.blk.qs.toNat),
        wrap32 (s.blk.regW.z.toInt + s.blk.sym.z.toInt * 2 ^ s.blk.qs.toNat)⟩
      ovf := s.blk.ovf || outsideI32 (s.blk.regW.x.toInt + s.blk.sym.x.toInt * 2 ^ s.blk.qs.toNat) ||
        outsideI32 (s.blk.regW.y.toInt + s.blk.sym.y.toInt * 2 ^ s.blk.qs.toNat) ||
        outsideI32 (s.blk.regW.z.toInt + s.blk.sym.z.toInt * 2 ^ s.blk.qs.toNat) }
    ret := .sat (decide (s.blk.sym.x.toInt.natAbs = 127 ∨ s.blk.sym.y.toInt.natAbs = 127 ∨
      s.blk.sym.z.toInt.natAbs = 127)) }

/-- Shifts of 32 and more (R105): `W` is unchanged, and `OVF` is set exactly if it was or some symbol is not 0. -/
def Obligations.LargeShiftsLeaveTheStateAndFlagIt : Prop :=
  ∀ s t : State, 32 ≤ s.blk.qs.toNat → exec .apply s = .next t →
    t.blk.regW = s.blk.regW ∧
      (t.blk.ovf = true ↔ s.blk.ovf = true ∨ s.blk.sym.x ≠ 0 ∨ s.blk.sym.y ≠ 0 ∨ s.blk.sym.z ≠ 0)

/-- Without `OVF` the integrator is exact (R104, D8): no lane wrapped. -/
def Obligations.WithoutOverflowTheSumsAreExact : Prop :=
  ∀ s t : State, exec .apply s = .next t → t.blk.ovf = false →
    t.blk.regW.x.toInt = s.blk.regW.x.toInt + s.blk.sym.x.toInt * 2 ^ s.blk.qs.toNat ∧
      t.blk.regW.y.toInt = s.blk.regW.y.toInt + s.blk.sym.y.toInt * 2 ^ s.blk.qs.toNat ∧
      t.blk.regW.z.toInt = s.blk.regW.z.toInt + s.blk.sym.z.toInt * 2 ^ s.blk.qs.toNat

/-- `EMIT` (R102): slot `NOUT` gets `W`, `NOUT` goes up by one, and nothing else changes. -/
def Obligations.EmitStoresTheSample : Prop :=
  ∀ s : State, ∃ t, exec .emit s = .next t ∧ outSlot t s.blk.nout.toNat = some s.blk.regW ∧
    (∀ k, k ≠ s.blk.nout.toNat → outSlot t k = outSlot s k) ∧
    (s.blk.nout.toNat < 65535 → t.blk.nout.toNat = s.blk.nout.toNat + 1) ∧
    t = { s with out := t.out, blk := { s.blk with nout := t.blk.nout } }

/-! ## Container records -/

/-- `SETUP` (R133): revision 1 sets the capacity and resizes the scratch buffer; any other revision is fatal and
leaves no samples. What the resized buffer keeps and the emptied lists are the model's reading (logs 25 and 26).
-/
def Obligations.SetupSetsTheCapacityOrIsFatal : Prop :=
  ∀ (revision : Byte) (capacity : BitVec 16) (s : State),
    (revision = 1 → ∃ t, exec (.setup revision capacity) s = .next t ∧
      t = { s with out := t.out, host := { s.host with capacity := capacity } } ∧
      (∀ k, k < capacity.toNat → outSlot t k = outSlot s k) ∧
      ∀ k, capacity.toNat ≤ k → outSlot t k = none) ∧
    (revision ≠ 1 → exec (.setup revision capacity) s = .next { s with host := { s.host with
      phase := .finished .badRevision, gyroOut := [], accOut := [] } })

/-- `DT` with `dt > 0` (R134, R135, R142, R143): both buffers are flushed, each spread over `dt` with its own
count and the clock before it is advanced; gyroscope words times `N / dt * 10^6 * (180 / π) / 2^27`,
accelerometer words times `16 / 32767`; the clock is advanced and both buffers cleared. The numbers are exact,
not rounded to `f64` (log 16). That the clock has no width, so that the sum is exact for every clock, is the
model's choice (log 19). That samples are appended whether or not their timestamps go on rising is the model's
choice (log 32). -/
def Obligations.DtFlushesBothBuffers : Prop :=
  ∀ (d : Word) (s : State), d ≠ 0 →
    ∃ t, exec (.dt d) s = .next t ∧
      t = { s with host := { s.host with
        clockUs := s.host.clockUs + d.toNat, gyroBuf := [], accBuf := [],
        gyroOut := t.host.gyroOut, accOut := t.host.accOut } } ∧
      t.host.gyroOut.length = s.host.gyroOut.length + s.host.gyroBuf.length ∧
      t.host.gyroOut.take s.host.gyroOut.length = s.host.gyroOut ∧
      (∀ k raw, s.host.gyroBuf[k]? = some raw →
        t.host.gyroOut[s.host.gyroOut.length + k]? = some
          ⟨((s.host.clockUs : Rat) + (k : Rat) * (d.toNat : Rat) / (s.host.gyroBuf.length : Rat)) / 10 ^ 6,
            raw.map fun w : Word => Scalar.overPi ((w.toInt : Rat) * (s.host.gyroBuf.length : Rat) / (d.toNat : Rat) *
              10 ^ 6 * 180 / 2 ^ 27)⟩) ∧
      t.host.accOut.length = s.host.accOut.length + s.host.accBuf.length ∧
      t.host.accOut.take s.host.accOut.length = s.host.accOut ∧
      ∀ k raw, s.host.accBuf[k]? = some raw →
        t.host.accOut[s.host.accOut.length + k]? = some
          ⟨((s.host.clockUs : Rat) + (k : Rat) * (d.toNat : Rat) / (s.host.accBuf.length : Rat)) / 10 ^ 6,
            raw.map fun v : Int => Scalar.exact ((v : Rat) * 16 / 32767)⟩

/-- `DT` with `dt = 0`: the spec states no gyroscope value there (N15); that each is some 64-bit value is the
model's choice (log 17). The timestamps and the accelerometer values are exact numbers, not rounded to `f64`,
which is the model's choice too (log 16). All the rest is as for any `dt`: one sample for each accumulated
triple, at the clock's time, the accelerometer scaled, the clock where it was, both buffers cleared. The clock
without a width that the timestamps are taken from is the model's choice (log 19). That samples are appended
whether or not their timestamps go on rising is the model's choice (log 32). -/
def Obligations.DtOfZeroCompletes : Prop :=
  ∀ s : State,
    ∃ t, exec (.dt 0) s = .next t ∧
      t = { s with
        host := { s.host with
          gyroBuf := [], accBuf := [], gyroOut := t.host.gyroOut, accOut := t.host.accOut }
        freeCtr := t.freeCtr } ∧
      t.host.gyroOut.take s.host.gyroOut.length = s.host.gyroOut ∧
      t.host.accOut.take s.host.accOut.length = s.host.accOut ∧
      t.host.accOut.length = s.host.accOut.length + s.host.accBuf.length ∧
      t.host.gyroOut.length = s.host.gyroOut.length + s.host.gyroBuf.length ∧
      (∀ k, k < s.host.gyroBuf.length → ∃ bx by' bz : BitVec 64,
        t.host.gyroOut[s.host.gyroOut.length + k]? = some
          ⟨(s.host.clockUs : Rat) / 10 ^ 6, ⟨.unstated bx, .unstated by', .unstated bz⟩⟩) ∧
      ∀ k raw, s.host.accBuf[k]? = some raw →
        t.host.accOut[s.host.accOut.length + k]? = some
          ⟨(s.host.clockUs : Rat) / 10 ^ 6, raw.map fun v : Int => Scalar.exact ((v : Rat) * 16 / 32767)⟩

/-- `GYRO` on a stream that goes on with a well-formed block (R136): its samples are appended to the gyro
buffer, the cursor moves by exactly the bytes of the block, and `S` is committed. That the whole rest of the
stream is lent is the model's choice (log 20). -/
def Obligations.GyroAppendsADecodedBlock : Prop :=
  ∀ (s : State) (qs : Nat) (ts : List (Triple Int)) (left : List Byte),
    BlockDecodes s.params (streamRest s) s.host.capacity.toNat qs ts left →
      ∃ t, exec .gyro s = .next t ∧ t.blk.status = .done ∧ t.blk.cause = .none ∧
        t.blk.regS = movedAll s.params.sym128 qs s.blk.regS ts ∧
        t.blk.resBytes.toNat = (streamRest s).length - left.length ∧
        t.blk.resSamples = s.host.capacity ∧
        t.blk.ovf = (s.blk.ovf || overflowsAny s.params.sym128 qs s.blk.regS ts) ∧
        t.host = { s.host with
          gyroBuf := s.host.gyroBuf ++ samplesOf s.params.sym128 qs s.blk.regS ts
          pos := s.host.pos + ((streamRest s).length - left.length) } ∧
        t.inBase = s.host.pos ∧ t.len.toNat = (streamRest s).length ∧
        t.mem = s.mem ∧ t.params = s.params ∧ t.request = s.request ∧ t.freeCtr = s.freeCtr ∧
        t.ret = s.ret ∧
        (∀ k, k < s.host.capacity.toNat →
          outSlot t k = (samplesOf s.params.sym128 qs s.blk.regS ts)[k]?) ∧
        ∀ k, s.host.capacity.toNat ≤ k → outSlot t k = outSlot s k

/-- `GYRO` always ends, and a block that fails ends the parse (R136, R145): nothing of it is kept, `S` is as it
was, and the outcome is a failure exactly when both output lists are empty. The outcome is the reading of C11
(log 24). -/
def Obligations.GyroFailureEndsTheParse : Prop :=
  ∀ s : State, ∃ t, exec .gyro s = .next t ∧
    t.mem = s.mem ∧ t.params = s.params ∧ t.request = s.request ∧ t.ret = s.ret ∧ t.freeCtr = s.freeCtr ∧
    (∀ k, s.host.capacity.toNat ≤ k → outSlot t k = outSlot s k) ∧
    (t.blk.status ≠ .done → t.blk.status = .err ∧ t.blk.regS = s.blk.regS ∧
      t.blk.resBytes = 0 ∧ t.blk.resSamples = 0 ∧ t.host = { s.host with
        phase := .finished (if s.host.gyroOut = [] ∧ s.host.accOut = [] then .noSamples else .success) })

/-- `ACCSETUP` (R137) and `TOFF` (R139): both values of the first are remembered and nothing is output; the
signed offset of the second is added to the clock and nothing is flushed. That the clock has no width and goes
below zero (N16), so that the sum is exact for every clock and offset, is the model's choice (log 19), and so is
that nothing keeps later timestamps from being earlier (log 32). -/
def Obligations.AccsetupRemembersAndToffMovesTheClock : Prop :=
  ∀ (count rangeExp : Byte) (offset : Word) (s : State),
    exec (.accsetup count rangeExp) s = .next { s with host := { s.host with
      accCount := count, rangeExp := rangeExp } } ∧
    exec (.toff offset) s = .next { s with host := { s.host with
      clockUs := s.host.clockUs + offset.toInt } }

/-- `ACC` (R138): the triples are appended in order, each axis negated. The negation of -32768 is not in the
document (N14); there the word is a free value, which is the model's choice (log 18). -/
def Obligations.AccAppendsNegatedTriples : Prop :=
  ∀ (triples : List (Triple (BitVec 16))) (s : State),
    ∃ t, exec (.acc triples) s = .next t ∧
      t = { s with host := { s.host with accBuf := t.host.accBuf }, freeCtr := t.freeCtr } ∧
      t.host.accBuf.length = s.host.accBuf.length + triples.length ∧
      t.host.accBuf.take s.host.accBuf.length = s.host.accBuf ∧
      ∀ k raw, triples[k]? = some raw → ∃ v : Triple Int,
        t.host.accBuf[s.host.accBuf.length + k]? = some v ∧
          (raw.x.toInt ≠ -32768 → v.x = -raw.x.toInt) ∧ (raw.y.toInt ≠ -32768 → v.y = -raw.y.toInt) ∧
          (raw.z.toInt ≠ -32768 → v.z = -raw.z.toInt)

/-- `ORIENT` (R140): three ASCII bytes are stored; bytes that begin like no UTF-8 sequence of at most three
bytes give "xyz"; whatever the bytes, one of the two is stored and nothing else changes. Which bytes of 0x80 and
more are no UTF-8 is taken from outside the spec (log 22). That a later record stores over the string of an
earlier one is the model's reading (log 23). -/
def Obligations.OrientStoresTheStringOrTheDefault : Prop :=
  ∀ (axes : Triple Byte) (s : State),
    (axes.x.toNat < 0x80 → axes.y.toNat < 0x80 → axes.z.toNat < 0x80 →
      exec (.orient axes) s = .next { s with host := { s.host with orient := axes } }) ∧
    (0x80 ≤ axes.x.toNat ∧ axes.x.toNat ≤ 0xC1 ∨ 0xF0 ≤ axes.x.toNat →
      exec (.orient axes) s = .next { s with host := { s.host with orient := ⟨0x78, 0x79, 0x7A⟩ } }) ∧
    ∃ t, exec (.orient axes) s = .next t ∧ t = { s with host := { s.host with orient := t.host.orient } } ∧
      (t.host.orient = axes ∨ t.host.orient = ⟨0x78, 0x79, 0x7A⟩)

/-- `END` (R141, R145): the parse ends with what has been flushed; the product is handed over unless both output
lists are empty (R144). That `END` with empty lists is a failure is the model's reading of C11 (log 24). -/
def Obligations.EndTagEndsTheParse : Prop :=
  ∀ (tag : Byte) (s : State),
    (s.host.gyroOut ≠ [] ∨ s.host.accOut ≠ [] → ∃ t, exec (.endTag tag) s = .next t ∧
      t = { s with host := { s.host with phase := .finished .success } } ∧
      hostProduct t = some (s.host.gyroOut, s.host.accOut, s.host.orient)) ∧
    (s.host.gyroOut = [] → s.host.accOut = [] → ∃ t, exec (.endTag tag) s = .next t ∧
      t = { s with host := { s.host with phase := .finished .noSamples } } ∧ hostProduct t = none)
end

