-- ==== Sys2Proof/Laws/Encoding.lean ====
section
/-! SUPPORT. The byte orders and the bit fields of the four formats, put together and taken apart. -/

namespace Sys2Proof

/-! ### Fields -/

theorem field_high {n k : Nat} (hi : BitVec k) (lo : BitVec n) : (hi ++ lo).extractLsb' n k = hi := by
  ext i h
  simp [BitVec.getLsbD_append, BitVec.getLsbD_eq_getElem h]

theorem field_low {n k : Nat} (hi : BitVec k) (lo : BitVec n) : (hi ++ lo).extractLsb' 0 n = lo := by
  ext i h
  simp [BitVec.getLsbD_append, h]

/-- A word is its low `n` bits below the `k` bits above them. -/
theorem fields_append {n k : Nat} (v : BitVec (k + n)) : v.extractLsb' n k ++ v.extractLsb' 0 n = v := by
  ext i h
  rw [BitVec.getElem_append]
  split
  · simp; rfl
  · rw [BitVec.getElem_extractLsb', show n + (i - n) = i by omega]
    rfl

theorem append_toNat {n k : Nat} (hi : BitVec k) (lo : BitVec n) :
    (hi ++ lo).toNat = hi.toNat * 2 ^ n + lo.toNat := by
  rw [BitVec.toNat_append, ← Nat.shiftLeft_add_eq_or_of_lt lo.isLt, Nat.shiftLeft_eq]

/-! ### Byte order -/

theorem le16_bytes (v : BitVec 16) : le16 (v.extractLsb' 0 8) (v.extractLsb' 8 8) = v :=
  fields_append (n := 8) (k := 8) v

theorem le32_bytes (v : Word) :
    le32 (v.extractLsb' 0 8) (v.extractLsb' 8 8) (v.extractLsb' 16 8) (v.extractLsb' 24 8) = v := by
  apply BitVec.eq_of_toNat_eq
  have := v.isLt
  simp only [le32, append_toNat, BitVec.extractLsb'_toNat, Nat.shiftRight_eq_div_pow]
  omega

theorem le16Bytes_le16 (b0 b1 : Byte) : le16Bytes (le16 b0 b1) = [b0, b1] := by
  simp only [le16Bytes, le16, field_high, field_low]

/-- The value of four bytes, byte 0 least significant (R43). -/
theorem le32_toNat (b0 b1 b2 b3 : Byte) :
    (le32 b0 b1 b2 b3).toNat =
      b0.toNat + 2 ^ 8 * b1.toNat + 2 ^ 16 * b2.toNat + 2 ^ 24 * b3.toNat := by
  simp only [le32, append_toNat]
  omega

theorem le32Bytes_le32 (b0 b1 b2 b3 : Byte) : le32Bytes (le32 b0 b1 b2 b3) = [b0, b1, b2, b3] := by
  have h := le32_toNat b0 b1 b2 b3
  have e (k : Nat) (b : Byte) (hb : (le32 b0 b1 b2 b3).toNat / 2 ^ k % 2 ^ 8 = b.toNat) :
      (le32 b0 b1 b2 b3).extractLsb' k 8 = b := by
    apply BitVec.eq_of_toNat_eq
    rw [BitVec.extractLsb'_toNat, Nat.shiftRight_eq_div_pow, hb]
  have h0 := b0.isLt
  have h1 := b1.isLt
  have h2 := b2.isLt
  have h3 := b3.isLt
  simp only [le32Bytes]
  rw [e 0 b0 (by omega), e 8 b1 (by omega), e 16 b2 (by omega), e 24 b3 (by omega)]

/-! ### Command words -/

theorem cmd_high_bits (cmd : BitVec 18) :
    (((cmd.extractLsb' 16 2).zeroExtend 8).extractLsb' 2 6).toNat = 0 := by
  simp only [BitVec.truncate_eq_setWidth, BitVec.extractLsb'_toNat, BitVec.toNat_setWidth,
    Nat.shiftRight_eq_div_pow]
  omega

theorem cmd_bytes (cmd : BitVec 18) :
    ((cmd.extractLsb' 16 2).zeroExtend 8).extractLsb' 0 2 ++ cmd.extractLsb' 8 8 ++ cmd.extractLsb' 0 8 =
      cmd := by
  apply BitVec.eq_of_toNat_eq
  have := cmd.isLt
  simp only [BitVec.truncate_eq_setWidth, append_toNat, BitVec.extractLsb'_toNat, BitVec.toNat_setWidth,
    Nat.shiftRight_eq_div_pow]
  omega

/-- The three stored bytes of a command word give the word back (log 11). -/
theorem decodeCmdBytes_cmdBytes (cmd : BitVec 18) (rest : List Byte) :
    decodeCmdBytes (cmdBytes cmd ++ rest) = .ok (decodeCmd cmd, 3) := by
  simp only [cmdBytes, List.cons_append, decodeCmdBytes, cmd_high_bits, cmd_bytes, if_true]

theorem decodeCmd_cmdWord (op : BitVec 2) (n : BitVec 16) :
    decodeCmd (cmdWord op n) =
      match op.toNat with
      | 0 => .nop n
      | 1 => .clr n
      | 2 => .decblk n
      | _ => .reservedCmd n := by
  have fields : ∀ (w : BitVec 18) (o : BitVec 2) (v : BitVec 16), w.extractLsb' 16 2 = o →
      w.extractLsb' 0 16 = v → decodeCmd w =
        match o.toNat with
        | 0 => .nop v
        | 1 => .clr v
        | 2 => .decblk v
        | _ => .reservedCmd v := by
    intro w o v ho hv
    subst ho hv
    rfl
  exact fields _ _ _ (field_high op n) (field_low op n)

/-! ### Accelerometer triples -/

theorem decodeTriples_bytes (ts : List (Triple (BitVec 16))) (rest : List Byte) :
    decodeTriples ts.length (ts.flatMap tripleBytes ++ rest) = some ts := by
  induction ts with
  | nil => rfl
  | cons t ts ih =>
    simp only [List.flatMap_cons, tripleBytes, le16Bytes, List.length_cons, List.cons_append, List.nil_append,
      decodeTriples, ih, Option.map_some, le16_bytes]

theorem tripleBytes_length (ts : List (Triple (BitVec 16))) :
    (ts.flatMap tripleBytes).length = 6 * ts.length := by
  induction ts with
  | nil => rfl
  | cons t ts ih =>
    rw [List.flatMap_cons, List.length_append, ih]
    simp [tripleBytes, le16Bytes]
    omega

/-- What `decodeTriples` accepts: `count` triples, written in the first `6 * count` bytes. -/
theorem decodeTriples_some {count : Nat} {bytes : List Byte} {ts : List (Triple (BitVec 16))}
    (h : decodeTriples count bytes = some ts) :
    ts.length = count ∧ 6 * count ≤ bytes.length ∧ ts.flatMap tripleBytes = bytes.take (6 * count) := by
  induction count generalizing bytes ts with
  | zero =>
    simp only [decodeTriples, Option.some.injEq] at h
    subst h
    simp
  | succ k ih =>
    match bytes with
    | x0 :: x1 :: y0 :: y1 :: z0 :: z1 :: rest =>
      simp only [decodeTriples, Option.map_eq_some_iff] at h
      obtain ⟨us, hu, rfl⟩ := h
      obtain ⟨h1, h2, h3⟩ := ih hu
      refine ⟨by simp [h1], by simp; omega, ?_⟩
      rw [List.flatMap_cons, h3, show 6 * (k + 1) = 6 * k + 6 by ring]
      simp only [tripleBytes, le16Bytes_le16, List.cons_append, List.nil_append, List.take_succ_cons]
    | [] | [_] | [_, _] | [_, _, _] | [_, _, _, _] | [_, _, _, _, _] => simp [decodeTriples] at h

/-- Bytes that are too few for `count` triples, and only they, hold none. -/
theorem decodeTriples_none {count : Nat} {bytes : List Byte} :
    decodeTriples count bytes = none ↔ bytes.length < 6 * count := by
  induction count generalizing bytes with
  | zero => simp [decodeTriples]
  | succ k ih =>
    match bytes with
    | x0 :: x1 :: y0 :: y1 :: z0 :: z1 :: rest =>
      simp only [decodeTriples, Option.map_eq_none_iff, ih, List.length_cons]
      omega
    | [] | [_] | [_, _] | [_, _, _] | [_, _, _, _] | [_, _, _, _, _] =>
      simp [decodeTriples]
      try omega

/-- Further bytes do not change the triples that are read. -/
theorem decodeTriples_take {count n : Nat} {bytes : List Byte} (h : 6 * count ≤ n) :
    decodeTriples count (bytes.take n) = decodeTriples count bytes := by
  induction count generalizing bytes n with
  | zero => rfl
  | succ k ih =>
    obtain ⟨m, rfl⟩ : ∃ m, n = m + 6 := ⟨n - 6, by omega⟩
    match bytes with
    | x0 :: x1 :: y0 :: y1 :: z0 :: z1 :: rest =>
      simp only [List.take_succ_cons, decodeTriples, ih (show 6 * k ≤ m by omega)]
    | [] | [_] | [_, _] | [_, _, _] | [_, _, _, _] | [_, _, _, _, _] => simp [decodeTriples]

end Sys2Proof
end

