-- ==== Sys2Proof/Laws/State.lean ====
section
/-! SUPPORT. One lemma per field per named update: what the update writes, and that it leaves the other fields
alone. -/

namespace Sys2Proof.Machine

/-! ### `State.mapBlk` -/

@[simp] theorem mapBlk_params (f : Block → Block) (s : State) :
    (s.mapBlk f).params = s.params := rfl
@[simp] theorem mapBlk_mem (f : Block → Block) (s : State) :
    (s.mapBlk f).mem = s.mem := rfl
@[simp] theorem mapBlk_inBase (f : Block → Block) (s : State) :
    (s.mapBlk f).inBase = s.inBase := rfl
@[simp] theorem mapBlk_len (f : Block → Block) (s : State) :
    (s.mapBlk f).len = s.len := rfl
@[simp] theorem mapBlk_out (f : Block → Block) (s : State) :
    (s.mapBlk f).out = s.out := rfl
@[simp] theorem mapBlk_blk (f : Block → Block) (s : State) :
    (s.mapBlk f).blk = f s.blk := rfl
@[simp] theorem mapBlk_host (f : Block → Block) (s : State) :
    (s.mapBlk f).host = s.host := rfl
@[simp] theorem mapBlk_request (f : Block → Block) (s : State) :
    (s.mapBlk f).request = s.request := rfl
@[simp] theorem mapBlk_ret (f : Block → Block) (s : State) :
    (s.mapBlk f).ret = s.ret := rfl
@[simp] theorem mapBlk_freeCtr (f : Block → Block) (s : State) :
    (s.mapBlk f).freeCtr = s.freeCtr := rfl

/-! ### `State.mapHost` -/

@[simp] theorem mapHost_params (f : Container → Container) (s : State) :
    (s.mapHost f).params = s.params := rfl
@[simp] theorem mapHost_mem (f : Container → Container) (s : State) :
    (s.mapHost f).mem = s.mem := rfl
@[simp] theorem mapHost_inBase (f : Container → Container) (s : State) :
    (s.mapHost f).inBase = s.inBase := rfl
@[simp] theorem mapHost_len (f : Container → Container) (s : State) :
    (s.mapHost f).len = s.len := rfl
@[simp] theorem mapHost_out (f : Container → Container) (s : State) :
    (s.mapHost f).out = s.out := rfl
@[simp] theorem mapHost_blk (f : Container → Container) (s : State) :
    (s.mapHost f).blk = s.blk := rfl
@[simp] theorem mapHost_host (f : Container → Container) (s : State) :
    (s.mapHost f).host = f s.host := rfl
@[simp] theorem mapHost_request (f : Container → Container) (s : State) :
    (s.mapHost f).request = s.request := rfl
@[simp] theorem mapHost_ret (f : Container → Container) (s : State) :
    (s.mapHost f).ret = s.ret := rfl
@[simp] theorem mapHost_freeCtr (f : Container → Container) (s : State) :
    (s.mapHost f).freeCtr = s.freeCtr := rfl

/-! ### `State.returning` -/

@[simp] theorem returning_params (r : UopResult) (s : State) :
    (s.returning r).params = s.params := rfl
@[simp] theorem returning_mem (r : UopResult) (s : State) :
    (s.returning r).mem = s.mem := rfl
@[simp] theorem returning_inBase (r : UopResult) (s : State) :
    (s.returning r).inBase = s.inBase := rfl
@[simp] theorem returning_len (r : UopResult) (s : State) :
    (s.returning r).len = s.len := rfl
@[simp] theorem returning_out (r : UopResult) (s : State) :
    (s.returning r).out = s.out := rfl
@[simp] theorem returning_blk (r : UopResult) (s : State) :
    (s.returning r).blk = s.blk := rfl
@[simp] theorem returning_host (r : UopResult) (s : State) :
    (s.returning r).host = s.host := rfl
@[simp] theorem returning_request (r : UopResult) (s : State) :
    (s.returning r).request = s.request := rfl
@[simp] theorem returning_ret (r : UopResult) (s : State) :
    (s.returning r).ret = r := rfl
@[simp] theorem returning_freeCtr (r : UopResult) (s : State) :
    (s.returning r).freeCtr = s.freeCtr := rfl

/-! ### `State.useFree` -/

@[simp] theorem useFree_params (k : Nat) (s : State) :
    (s.useFree k).params = s.params := rfl
@[simp] theorem useFree_mem (k : Nat) (s : State) :
    (s.useFree k).mem = s.mem := rfl
@[simp] theorem useFree_inBase (k : Nat) (s : State) :
    (s.useFree k).inBase = s.inBase := rfl
@[simp] theorem useFree_len (k : Nat) (s : State) :
    (s.useFree k).len = s.len := rfl
@[simp] theorem useFree_out (k : Nat) (s : State) :
    (s.useFree k).out = s.out := rfl
@[simp] theorem useFree_blk (k : Nat) (s : State) :
    (s.useFree k).blk = s.blk := rfl
@[simp] theorem useFree_host (k : Nat) (s : State) :
    (s.useFree k).host = s.host := rfl
@[simp] theorem useFree_request (k : Nat) (s : State) :
    (s.useFree k).request = s.request := rfl
@[simp] theorem useFree_ret (k : Nat) (s : State) :
    (s.useFree k).ret = s.ret := rfl
@[simp] theorem useFree_freeCtr (k : Nat) (s : State) :
    (s.useFree k).freeCtr = s.freeCtr + k := rfl

/-! ### `memWriteOut` -/

@[simp] theorem memWriteOut_params (s : State) (k : Nat) (v : Triple Word) :
    (memWriteOut s k v).params = s.params := rfl
@[simp] theorem memWriteOut_mem (s : State) (k : Nat) (v : Triple Word) :
    (memWriteOut s k v).mem = s.mem := rfl
@[simp] theorem memWriteOut_inBase (s : State) (k : Nat) (v : Triple Word) :
    (memWriteOut s k v).inBase = s.inBase := rfl
@[simp] theorem memWriteOut_len (s : State) (k : Nat) (v : Triple Word) :
    (memWriteOut s k v).len = s.len := rfl
@[simp] theorem memWriteOut_out (s : State) (k : Nat) (v : Triple Word) :
    (memWriteOut s k v).out = insertAt k v s.out := rfl
@[simp] theorem memWriteOut_blk (s : State) (k : Nat) (v : Triple Word) :
    (memWriteOut s k v).blk = s.blk := rfl
@[simp] theorem memWriteOut_host (s : State) (k : Nat) (v : Triple Word) :
    (memWriteOut s k v).host = s.host := rfl
@[simp] theorem memWriteOut_request (s : State) (k : Nat) (v : Triple Word) :
    (memWriteOut s k v).request = s.request := rfl
@[simp] theorem memWriteOut_ret (s : State) (k : Nat) (v : Triple Word) :
    (memWriteOut s k v).ret = s.ret := rfl
@[simp] theorem memWriteOut_freeCtr (s : State) (k : Nat) (v : Triple Word) :
    (memWriteOut s k v).freeCtr = s.freeCtr := rfl

/-! ### `failExit` -/

@[simp] theorem failExit_params (c : Cause) (s : State) :
    (failExit c s).params = s.params := rfl
@[simp] theorem failExit_mem (c : Cause) (s : State) :
    (failExit c s).mem = s.mem := rfl
@[simp] theorem failExit_inBase (c : Cause) (s : State) :
    (failExit c s).inBase = s.inBase := rfl
@[simp] theorem failExit_len (c : Cause) (s : State) :
    (failExit c s).len = s.len := rfl
@[simp] theorem failExit_out (c : Cause) (s : State) :
    (failExit c s).out = s.out := rfl
@[simp] theorem failExit_blk (c : Cause) (s : State) :
    (failExit c s).blk = s.blk.failed c := rfl
@[simp] theorem failExit_host (c : Cause) (s : State) :
    (failExit c s).host = s.host := rfl
@[simp] theorem failExit_request (c : Cause) (s : State) :
    (failExit c s).request = s.request := rfl
@[simp] theorem failExit_ret (c : Cause) (s : State) :
    (failExit c s).ret = s.ret := rfl
@[simp] theorem failExit_freeCtr (c : Cause) (s : State) :
    (failExit c s).freeCtr = s.freeCtr := rfl

/-! ### `lendRemainder` -/

@[simp] theorem lendRemainder_params (s : State) :
    (lendRemainder s).params = s.params := rfl
@[simp] theorem lendRemainder_mem (s : State) :
    (lendRemainder s).mem = s.mem := rfl
@[simp] theorem lendRemainder_inBase (s : State) :
    (lendRemainder s).inBase = s.host.pos := rfl
@[simp] theorem lendRemainder_len (s : State) :
    (lendRemainder s).len = BitVec.ofNat 32 (min (streamLeft s) Config.lenMax) := rfl
@[simp] theorem lendRemainder_out (s : State) :
    (lendRemainder s).out = s.out := rfl
@[simp] theorem lendRemainder_blk (s : State) :
    (lendRemainder s).blk = s.blk := rfl
@[simp] theorem lendRemainder_host (s : State) :
    (lendRemainder s).host = s.host := rfl
@[simp] theorem lendRemainder_request (s : State) :
    (lendRemainder s).request = s.request := rfl
@[simp] theorem lendRemainder_ret (s : State) :
    (lendRemainder s).ret = s.ret := rfl
@[simp] theorem lendRemainder_freeCtr (s : State) :
    (lendRemainder s).freeCtr = s.freeCtr := rfl

/-! ### `acceptBlock` -/

@[simp] theorem acceptBlock_params (s : State) :
    (acceptBlock s).params = s.params := rfl
@[simp] theorem acceptBlock_mem (s : State) :
    (acceptBlock s).mem = s.mem := rfl
@[simp] theorem acceptBlock_inBase (s : State) :
    (acceptBlock s).inBase = s.inBase := rfl
@[simp] theorem acceptBlock_len (s : State) :
    (acceptBlock s).len = s.len := rfl
@[simp] theorem acceptBlock_out (s : State) :
    (acceptBlock s).out = s.out := rfl
@[simp] theorem acceptBlock_blk (s : State) :
    (acceptBlock s).blk = s.blk := rfl
@[simp] theorem acceptBlock_request (s : State) :
    (acceptBlock s).request = s.request := rfl
@[simp] theorem acceptBlock_ret (s : State) :
    (acceptBlock s).ret = s.ret := rfl
@[simp] theorem acceptBlock_freeCtr (s : State) :
    (acceptBlock s).freeCtr = s.freeCtr := rfl

/-! ### `Block.failed` -/

@[simp] theorem Block.failed_regS (c : Cause) (b : Block) :
    (b.failed c).regS = b.regS := rfl
@[simp] theorem Block.failed_regW (c : Cause) (b : Block) :
    (b.failed c).regW = b.regW := rfl
@[simp] theorem Block.failed_rstate (c : Cause) (b : Block) :
    (b.failed c).rstate = b.rstate := rfl
@[simp] theorem Block.failed_cur (c : Cause) (b : Block) :
    (b.failed c).cur = b.cur := rfl
@[simp] theorem Block.failed_qs (c : Cause) (b : Block) :
    (b.failed c).qs = b.qs := rfl
@[simp] theorem Block.failed_mi (c : Cause) (b : Block) :
    (b.failed c).mi = b.mi := rfl
@[simp] theorem Block.failed_hck (c : Cause) (b : Block) :
    (b.failed c).hck = b.hck := rfl
@[simp] theorem Block.failed_ck (c : Cause) (b : Block) :
    (b.failed c).ck = b.ck := rfl
@[simp] theorem Block.failed_nreq (c : Cause) (b : Block) :
    (b.failed c).nreq = b.nreq := rfl
@[simp] theorem Block.failed_nout (c : Cause) (b : Block) :
    (b.failed c).nout = b.nout := rfl
@[simp] theorem Block.failed_sym (c : Cause) (b : Block) :
    (b.failed c).sym = b.sym := rfl
@[simp] theorem Block.failed_ax (c : Cause) (b : Block) :
    (b.failed c).ax = b.ax := rfl
@[simp] theorem Block.failed_ovf (c : Cause) (b : Block) :
    (b.failed c).ovf = b.ovf := rfl
@[simp] theorem Block.failed_status (c : Cause) (b : Block) :
    (b.failed c).status = .err := rfl
@[simp] theorem Block.failed_cause (c : Cause) (b : Block) :
    (b.failed c).cause = c := rfl
@[simp] theorem Block.failed_resBytes (c : Cause) (b : Block) :
    (b.failed c).resBytes = 0 := rfl
@[simp] theorem Block.failed_resSamples (c : Cause) (b : Block) :
    (b.failed c).resSamples = 0 := rfl

/-! ### `Block.cleared` -/

@[simp] theorem Block.cleared_regS (b : Block) :
    (b.cleared).regS = ⟨0, 0, 0⟩ := rfl
@[simp] theorem Block.cleared_regW (b : Block) :
    (b.cleared).regW = b.regW := rfl
@[simp] theorem Block.cleared_rstate (b : Block) :
    (b.cleared).rstate = b.rstate := rfl
@[simp] theorem Block.cleared_cur (b : Block) :
    (b.cleared).cur = b.cur := rfl
@[simp] theorem Block.cleared_qs (b : Block) :
    (b.cleared).qs = b.qs := rfl
@[simp] theorem Block.cleared_mi (b : Block) :
    (b.cleared).mi = b.mi := rfl
@[simp] theorem Block.cleared_hck (b : Block) :
    (b.cleared).hck = b.hck := rfl
@[simp] theorem Block.cleared_ck (b : Block) :
    (b.cleared).ck = b.ck := rfl
@[simp] theorem Block.cleared_nreq (b : Block) :
    (b.cleared).nreq = b.nreq := rfl
@[simp] theorem Block.cleared_nout (b : Block) :
    (b.cleared).nout = b.nout := rfl
@[simp] theorem Block.cleared_sym (b : Block) :
    (b.cleared).sym = b.sym := rfl
@[simp] theorem Block.cleared_ax (b : Block) :
    (b.cleared).ax = b.ax := rfl
@[simp] theorem Block.cleared_ovf (b : Block) :
    (b.cleared).ovf = false := rfl
@[simp] theorem Block.cleared_status (b : Block) :
    (b.cleared).status = .idle := rfl
@[simp] theorem Block.cleared_cause (b : Block) :
    (b.cleared).cause = .none := rfl
@[simp] theorem Block.cleared_resBytes (b : Block) :
    (b.cleared).resBytes = 0 := rfl
@[simp] theorem Block.cleared_resSamples (b : Block) :
    (b.cleared).resSamples = 0 := rfl

/-! ### `Block.pullByte` -/

@[simp] theorem Block.pullByte_regS (byte : Byte) (b : Block) :
    (b.pullByte byte).regS = b.regS := rfl
@[simp] theorem Block.pullByte_regW (byte : Byte) (b : Block) :
    (b.pullByte byte).regW = b.regW := rfl
@[simp] theorem Block.pullByte_rstate (byte : Byte) (b : Block) :
    (b.pullByte byte).rstate = (b.rstate <<< 8) ||| byte.zeroExtend 32 := rfl
@[simp] theorem Block.pullByte_cur (byte : Byte) (b : Block) :
    (b.pullByte byte).cur = b.cur + 1 := rfl
@[simp] theorem Block.pullByte_qs (byte : Byte) (b : Block) :
    (b.pullByte byte).qs = b.qs := rfl
@[simp] theorem Block.pullByte_mi (byte : Byte) (b : Block) :
    (b.pullByte byte).mi = b.mi := rfl
@[simp] theorem Block.pullByte_hck (byte : Byte) (b : Block) :
    (b.pullByte byte).hck = b.hck := rfl
@[simp] theorem Block.pullByte_ck (byte : Byte) (b : Block) :
    (b.pullByte byte).ck = b.ck := rfl
@[simp] theorem Block.pullByte_nreq (byte : Byte) (b : Block) :
    (b.pullByte byte).nreq = b.nreq := rfl
@[simp] theorem Block.pullByte_nout (byte : Byte) (b : Block) :
    (b.pullByte byte).nout = b.nout := rfl
@[simp] theorem Block.pullByte_sym (byte : Byte) (b : Block) :
    (b.pullByte byte).sym = b.sym := rfl
@[simp] theorem Block.pullByte_ax (byte : Byte) (b : Block) :
    (b.pullByte byte).ax = b.ax := rfl
@[simp] theorem Block.pullByte_ovf (byte : Byte) (b : Block) :
    (b.pullByte byte).ovf = b.ovf := rfl
@[simp] theorem Block.pullByte_status (byte : Byte) (b : Block) :
    (b.pullByte byte).status = b.status := rfl
@[simp] theorem Block.pullByte_cause (byte : Byte) (b : Block) :
    (b.pullByte byte).cause = b.cause := rfl
@[simp] theorem Block.pullByte_resBytes (byte : Byte) (b : Block) :
    (b.pullByte byte).resBytes = b.resBytes := rfl
@[simp] theorem Block.pullByte_resSamples (byte : Byte) (b : Block) :
    (b.pullByte byte).resSamples = b.resSamples := rfl

/-! ### `Block.withRstate` -/

@[simp] theorem Block.withRstate_regS (v : Word) (b : Block) :
    (b.withRstate v).regS = b.regS := rfl
@[simp] theorem Block.withRstate_regW (v : Word) (b : Block) :
    (b.withRstate v).regW = b.regW := rfl
@[simp] theorem Block.withRstate_rstate (v : Word) (b : Block) :
    (b.withRstate v).rstate = v := rfl
@[simp] theorem Block.withRstate_cur (v : Word) (b : Block) :
    (b.withRstate v).cur = b.cur := rfl
@[simp] theorem Block.withRstate_qs (v : Word) (b : Block) :
    (b.withRstate v).qs = b.qs := rfl
@[simp] theorem Block.withRstate_mi (v : Word) (b : Block) :
    (b.withRstate v).mi = b.mi := rfl
@[simp] theorem Block.withRstate_hck (v : Word) (b : Block) :
    (b.withRstate v).hck = b.hck := rfl
@[simp] theorem Block.withRstate_ck (v : Word) (b : Block) :
    (b.withRstate v).ck = b.ck := rfl
@[simp] theorem Block.withRstate_nreq (v : Word) (b : Block) :
    (b.withRstate v).nreq = b.nreq := rfl
@[simp] theorem Block.withRstate_nout (v : Word) (b : Block) :
    (b.withRstate v).nout = b.nout := rfl
@[simp] theorem Block.withRstate_sym (v : Word) (b : Block) :
    (b.withRstate v).sym = b.sym := rfl
@[simp] theorem Block.withRstate_ax (v : Word) (b : Block) :
    (b.withRstate v).ax = b.ax := rfl
@[simp] theorem Block.withRstate_ovf (v : Word) (b : Block) :
    (b.withRstate v).ovf = b.ovf := rfl
@[simp] theorem Block.withRstate_status (v : Word) (b : Block) :
    (b.withRstate v).status = b.status := rfl
@[simp] theorem Block.withRstate_cause (v : Word) (b : Block) :
    (b.withRstate v).cause = b.cause := rfl
@[simp] theorem Block.withRstate_resBytes (v : Word) (b : Block) :
    (b.withRstate v).resBytes = b.resBytes := rfl
@[simp] theorem Block.withRstate_resSamples (v : Word) (b : Block) :
    (b.withRstate v).resSamples = b.resSamples := rfl

/-! ### `Block.applied` -/

@[simp] theorem Block.applied_regS (b : Block) :
    (b.applied).regS = b.regS := rfl
@[simp] theorem Block.applied_regW (b : Block) :
    (b.applied).regW = integrated b := rfl
@[simp] theorem Block.applied_rstate (b : Block) :
    (b.applied).rstate = b.rstate := rfl
@[simp] theorem Block.applied_cur (b : Block) :
    (b.applied).cur = b.cur := rfl
@[simp] theorem Block.applied_qs (b : Block) :
    (b.applied).qs = b.qs := rfl
@[simp] theorem Block.applied_mi (b : Block) :
    (b.applied).mi = b.mi := rfl
@[simp] theorem Block.applied_hck (b : Block) :
    (b.applied).hck = b.hck := rfl
@[simp] theorem Block.applied_ck (b : Block) :
    (b.applied).ck = b.ck := rfl
@[simp] theorem Block.applied_nreq (b : Block) :
    (b.applied).nreq = b.nreq := rfl
@[simp] theorem Block.applied_nout (b : Block) :
    (b.applied).nout = b.nout := rfl
@[simp] theorem Block.applied_sym (b : Block) :
    (b.applied).sym = b.sym := rfl
@[simp] theorem Block.applied_ax (b : Block) :
    (b.applied).ax = b.ax := rfl
@[simp] theorem Block.applied_ovf (b : Block) :
    (b.applied).ovf = (b.ovf || applyOverflows b) := rfl
@[simp] theorem Block.applied_status (b : Block) :
    (b.applied).status = b.status := rfl
@[simp] theorem Block.applied_cause (b : Block) :
    (b.applied).cause = b.cause := rfl
@[simp] theorem Block.applied_resBytes (b : Block) :
    (b.applied).resBytes = b.resBytes := rfl
@[simp] theorem Block.applied_resSamples (b : Block) :
    (b.applied).resSamples = b.resSamples := rfl

/-! ### `Block.counted` -/

@[simp] theorem Block.counted_regS (b : Block) :
    (b.counted).regS = b.regS := rfl
@[simp] theorem Block.counted_regW (b : Block) :
    (b.counted).regW = b.regW := rfl
@[simp] theorem Block.counted_rstate (b : Block) :
    (b.counted).rstate = b.rstate := rfl
@[simp] theorem Block.counted_cur (b : Block) :
    (b.counted).cur = b.cur := rfl
@[simp] theorem Block.counted_qs (b : Block) :
    (b.counted).qs = b.qs := rfl
@[simp] theorem Block.counted_mi (b : Block) :
    (b.counted).mi = b.mi := rfl
@[simp] theorem Block.counted_hck (b : Block) :
    (b.counted).hck = b.hck := rfl
@[simp] theorem Block.counted_ck (b : Block) :
    (b.counted).ck = b.ck := rfl
@[simp] theorem Block.counted_nreq (b : Block) :
    (b.counted).nreq = b.nreq := rfl
@[simp] theorem Block.counted_nout (b : Block) :
    (b.counted).nout = b.nout + 1 := rfl
@[simp] theorem Block.counted_sym (b : Block) :
    (b.counted).sym = b.sym := rfl
@[simp] theorem Block.counted_ax (b : Block) :
    (b.counted).ax = b.ax := rfl
@[simp] theorem Block.counted_ovf (b : Block) :
    (b.counted).ovf = b.ovf := rfl
@[simp] theorem Block.counted_status (b : Block) :
    (b.counted).status = b.status := rfl
@[simp] theorem Block.counted_cause (b : Block) :
    (b.counted).cause = b.cause := rfl
@[simp] theorem Block.counted_resBytes (b : Block) :
    (b.counted).resBytes = b.resBytes := rfl
@[simp] theorem Block.counted_resSamples (b : Block) :
    (b.counted).resSamples = b.resSamples := rfl

/-! ### `Block.loaded` -/

@[simp] theorem Block.loaded_regS (q : Byte) (c : BitVec 3) (m : BitVec 5) (seed : Word) (b : Block) :
    (b.loaded q c m seed).regS = b.regS := rfl
@[simp] theorem Block.loaded_regW (q : Byte) (c : BitVec 3) (m : BitVec 5) (seed : Word) (b : Block) :
    (b.loaded q c m seed).regW = b.regW := rfl
@[simp] theorem Block.loaded_rstate (q : Byte) (c : BitVec 3) (m : BitVec 5) (seed : Word) (b : Block) :
    (b.loaded q c m seed).rstate = seed := rfl
@[simp] theorem Block.loaded_cur (q : Byte) (c : BitVec 3) (m : BitVec 5) (seed : Word) (b : Block) :
    (b.loaded q c m seed).cur = 6 := rfl
@[simp] theorem Block.loaded_qs (q : Byte) (c : BitVec 3) (m : BitVec 5) (seed : Word) (b : Block) :
    (b.loaded q c m seed).qs = q := rfl
@[simp] theorem Block.loaded_mi (q : Byte) (c : BitVec 3) (m : BitVec 5) (seed : Word) (b : Block) :
    (b.loaded q c m seed).mi = m := rfl
@[simp] theorem Block.loaded_hck (q : Byte) (c : BitVec 3) (m : BitVec 5) (seed : Word) (b : Block) :
    (b.loaded q c m seed).hck = c := rfl
@[simp] theorem Block.loaded_ck (q : Byte) (c : BitVec 3) (m : BitVec 5) (seed : Word) (b : Block) :
    (b.loaded q c m seed).ck = b.ck := rfl
@[simp] theorem Block.loaded_nreq (q : Byte) (c : BitVec 3) (m : BitVec 5) (seed : Word) (b : Block) :
    (b.loaded q c m seed).nreq = b.nreq := rfl
@[simp] theorem Block.loaded_nout (q : Byte) (c : BitVec 3) (m : BitVec 5) (seed : Word) (b : Block) :
    (b.loaded q c m seed).nout = b.nout := rfl
@[simp] theorem Block.loaded_sym (q : Byte) (c : BitVec 3) (m : BitVec 5) (seed : Word) (b : Block) :
    (b.loaded q c m seed).sym = b.sym := rfl
@[simp] theorem Block.loaded_ax (q : Byte) (c : BitVec 3) (m : BitVec 5) (seed : Word) (b : Block) :
    (b.loaded q c m seed).ax = b.ax := rfl
@[simp] theorem Block.loaded_ovf (q : Byte) (c : BitVec 3) (m : BitVec 5) (seed : Word) (b : Block) :
    (b.loaded q c m seed).ovf = b.ovf := rfl
@[simp] theorem Block.loaded_status (q : Byte) (c : BitVec 3) (m : BitVec 5) (seed : Word) (b : Block) :
    (b.loaded q c m seed).status = b.status := rfl
@[simp] theorem Block.loaded_cause (q : Byte) (c : BitVec 3) (m : BitVec 5) (seed : Word) (b : Block) :
    (b.loaded q c m seed).cause = b.cause := rfl
@[simp] theorem Block.loaded_resBytes (q : Byte) (c : BitVec 3) (m : BitVec 5) (seed : Word) (b : Block) :
    (b.loaded q c m seed).resBytes = b.resBytes := rfl
@[simp] theorem Block.loaded_resSamples (q : Byte) (c : BitVec 3) (m : BitVec 5) (seed : Word) (b : Block) :
    (b.loaded q c m seed).resSamples = b.resSamples := rfl

/-! ### `Block.ckAdded` -/

@[simp] theorem Block.ckAdded_regS (sym : Int) (b : Block) :
    (b.ckAdded sym).regS = b.regS := rfl
@[simp] theorem Block.ckAdded_regW (sym : Int) (b : Block) :
    (b.ckAdded sym).regW = b.regW := rfl
@[simp] theorem Block.ckAdded_rstate (sym : Int) (b : Block) :
    (b.ckAdded sym).rstate = b.rstate := rfl
@[simp] theorem Block.ckAdded_cur (sym : Int) (b : Block) :
    (b.ckAdded sym).cur = b.cur := rfl
@[simp] theorem Block.ckAdded_qs (sym : Int) (b : Block) :
    (b.ckAdded sym).qs = b.qs := rfl
@[simp] theorem Block.ckAdded_mi (sym : Int) (b : Block) :
    (b.ckAdded sym).mi = b.mi := rfl
@[simp] theorem Block.ckAdded_hck (sym : Int) (b : Block) :
    (b.ckAdded sym).hck = b.hck := rfl
@[simp] theorem Block.ckAdded_ck (sym : Int) (b : Block) :
    (b.ckAdded sym).ck = checksumAdd b.ck sym := rfl
@[simp] theorem Block.ckAdded_nreq (sym : Int) (b : Block) :
    (b.ckAdded sym).nreq = b.nreq := rfl
@[simp] theorem Block.ckAdded_nout (sym : Int) (b : Block) :
    (b.ckAdded sym).nout = b.nout := rfl
@[simp] theorem Block.ckAdded_sym (sym : Int) (b : Block) :
    (b.ckAdded sym).sym = b.sym := rfl
@[simp] theorem Block.ckAdded_ax (sym : Int) (b : Block) :
    (b.ckAdded sym).ax = b.ax := rfl
@[simp] theorem Block.ckAdded_ovf (sym : Int) (b : Block) :
    (b.ckAdded sym).ovf = b.ovf := rfl
@[simp] theorem Block.ckAdded_status (sym : Int) (b : Block) :
    (b.ckAdded sym).status = b.status := rfl
@[simp] theorem Block.ckAdded_cause (sym : Int) (b : Block) :
    (b.ckAdded sym).cause = b.cause := rfl
@[simp] theorem Block.ckAdded_resBytes (sym : Int) (b : Block) :
    (b.ckAdded sym).resBytes = b.resBytes := rfl
@[simp] theorem Block.ckAdded_resSamples (sym : Int) (b : Block) :
    (b.ckAdded sym).resSamples = b.resSamples := rfl

/-! ### `Block.withAx` -/

@[simp] theorem Block.withAx_regS (i : Axis) (b : Block) :
    (b.withAx i).regS = b.regS := rfl
@[simp] theorem Block.withAx_regW (i : Axis) (b : Block) :
    (b.withAx i).regW = b.regW := rfl
@[simp] theorem Block.withAx_rstate (i : Axis) (b : Block) :
    (b.withAx i).rstate = b.rstate := rfl
@[simp] theorem Block.withAx_cur (i : Axis) (b : Block) :
    (b.withAx i).cur = b.cur := rfl
@[simp] theorem Block.withAx_qs (i : Axis) (b : Block) :
    (b.withAx i).qs = b.qs := rfl
@[simp] theorem Block.withAx_mi (i : Axis) (b : Block) :
    (b.withAx i).mi = b.mi := rfl
@[simp] theorem Block.withAx_hck (i : Axis) (b : Block) :
    (b.withAx i).hck = b.hck := rfl
@[simp] theorem Block.withAx_ck (i : Axis) (b : Block) :
    (b.withAx i).ck = b.ck := rfl
@[simp] theorem Block.withAx_nreq (i : Axis) (b : Block) :
    (b.withAx i).nreq = b.nreq := rfl
@[simp] theorem Block.withAx_nout (i : Axis) (b : Block) :
    (b.withAx i).nout = b.nout := rfl
@[simp] theorem Block.withAx_sym (i : Axis) (b : Block) :
    (b.withAx i).sym = b.sym := rfl
@[simp] theorem Block.withAx_ax (i : Axis) (b : Block) :
    (b.withAx i).ax = i.code := rfl
@[simp] theorem Block.withAx_ovf (i : Axis) (b : Block) :
    (b.withAx i).ovf = b.ovf := rfl
@[simp] theorem Block.withAx_status (i : Axis) (b : Block) :
    (b.withAx i).status = b.status := rfl
@[simp] theorem Block.withAx_cause (i : Axis) (b : Block) :
    (b.withAx i).cause = b.cause := rfl
@[simp] theorem Block.withAx_resBytes (i : Axis) (b : Block) :
    (b.withAx i).resBytes = b.resBytes := rfl
@[simp] theorem Block.withAx_resSamples (i : Axis) (b : Block) :
    (b.withAx i).resSamples = b.resSamples := rfl

/-! ### `Block.latched` -/

@[simp] theorem Block.latched_regS (i : Axis) (v : BitVec 9) (b : Block) :
    (b.latched i v).regS = b.regS := rfl
@[simp] theorem Block.latched_regW (i : Axis) (v : BitVec 9) (b : Block) :
    (b.latched i v).regW = b.regW := rfl
@[simp] theorem Block.latched_rstate (i : Axis) (v : BitVec 9) (b : Block) :
    (b.latched i v).rstate = b.rstate := rfl
@[simp] theorem Block.latched_cur (i : Axis) (v : BitVec 9) (b : Block) :
    (b.latched i v).cur = b.cur := rfl
@[simp] theorem Block.latched_qs (i : Axis) (v : BitVec 9) (b : Block) :
    (b.latched i v).qs = b.qs := rfl
@[simp] theorem Block.latched_mi (i : Axis) (v : BitVec 9) (b : Block) :
    (b.latched i v).mi = b.mi := rfl
@[simp] theorem Block.latched_hck (i : Axis) (v : BitVec 9) (b : Block) :
    (b.latched i v).hck = b.hck := rfl
@[simp] theorem Block.latched_ck (i : Axis) (v : BitVec 9) (b : Block) :
    (b.latched i v).ck = b.ck := rfl
@[simp] theorem Block.latched_nreq (i : Axis) (v : BitVec 9) (b : Block) :
    (b.latched i v).nreq = b.nreq := rfl
@[simp] theorem Block.latched_nout (i : Axis) (v : BitVec 9) (b : Block) :
    (b.latched i v).nout = b.nout := rfl
@[simp] theorem Block.latched_sym (i : Axis) (v : BitVec 9) (b : Block) :
    (b.latched i v).sym = setAxis b.sym i v := rfl
@[simp] theorem Block.latched_ax (i : Axis) (v : BitVec 9) (b : Block) :
    (b.latched i v).ax = b.ax := rfl
@[simp] theorem Block.latched_ovf (i : Axis) (v : BitVec 9) (b : Block) :
    (b.latched i v).ovf = b.ovf := rfl
@[simp] theorem Block.latched_status (i : Axis) (v : BitVec 9) (b : Block) :
    (b.latched i v).status = b.status := rfl
@[simp] theorem Block.latched_cause (i : Axis) (v : BitVec 9) (b : Block) :
    (b.latched i v).cause = b.cause := rfl
@[simp] theorem Block.latched_resBytes (i : Axis) (v : BitVec 9) (b : Block) :
    (b.latched i v).resBytes = b.resBytes := rfl
@[simp] theorem Block.latched_resSamples (i : Axis) (v : BitVec 9) (b : Block) :
    (b.latched i v).resSamples = b.resSamples := rfl

/-! ### `Block.begun` -/

@[simp] theorem Block.begun_regS (n : BitVec 16) (b : Block) :
    (b.begun n).regS = b.regS := rfl
@[simp] theorem Block.begun_regW (n : BitVec 16) (b : Block) :
    (b.begun n).regW = b.regS := rfl
@[simp] theorem Block.begun_rstate (n : BitVec 16) (b : Block) :
    (b.begun n).rstate = b.rstate := rfl
@[simp] theorem Block.begun_cur (n : BitVec 16) (b : Block) :
    (b.begun n).cur = 0 := rfl
@[simp] theorem Block.begun_qs (n : BitVec 16) (b : Block) :
    (b.begun n).qs = b.qs := rfl
@[simp] theorem Block.begun_mi (n : BitVec 16) (b : Block) :
    (b.begun n).mi = b.mi := rfl
@[simp] theorem Block.begun_hck (n : BitVec 16) (b : Block) :
    (b.begun n).hck = b.hck := rfl
@[simp] theorem Block.begun_ck (n : BitVec 16) (b : Block) :
    (b.begun n).ck = 0 := rfl
@[simp] theorem Block.begun_nreq (n : BitVec 16) (b : Block) :
    (b.begun n).nreq = n := rfl
@[simp] theorem Block.begun_nout (n : BitVec 16) (b : Block) :
    (b.begun n).nout = 0 := rfl
@[simp] theorem Block.begun_sym (n : BitVec 16) (b : Block) :
    (b.begun n).sym = b.sym := rfl
@[simp] theorem Block.begun_ax (n : BitVec 16) (b : Block) :
    (b.begun n).ax = b.ax := rfl
@[simp] theorem Block.begun_ovf (n : BitVec 16) (b : Block) :
    (b.begun n).ovf = b.ovf := rfl
@[simp] theorem Block.begun_status (n : BitVec 16) (b : Block) :
    (b.begun n).status = b.status := rfl
@[simp] theorem Block.begun_cause (n : BitVec 16) (b : Block) :
    (b.begun n).cause = b.cause := rfl
@[simp] theorem Block.begun_resBytes (n : BitVec 16) (b : Block) :
    (b.begun n).resBytes = b.resBytes := rfl
@[simp] theorem Block.begun_resSamples (n : BitVec 16) (b : Block) :
    (b.begun n).resSamples = b.resSamples := rfl

/-! ### `Block.committed` -/

@[simp] theorem Block.committed_regS (b : Block) :
    (b.committed).regS = b.regW := rfl
@[simp] theorem Block.committed_regW (b : Block) :
    (b.committed).regW = b.regW := rfl
@[simp] theorem Block.committed_rstate (b : Block) :
    (b.committed).rstate = b.rstate := rfl
@[simp] theorem Block.committed_cur (b : Block) :
    (b.committed).cur = b.cur := rfl
@[simp] theorem Block.committed_qs (b : Block) :
    (b.committed).qs = b.qs := rfl
@[simp] theorem Block.committed_mi (b : Block) :
    (b.committed).mi = b.mi := rfl
@[simp] theorem Block.committed_hck (b : Block) :
    (b.committed).hck = b.hck := rfl
@[simp] theorem Block.committed_ck (b : Block) :
    (b.committed).ck = b.ck := rfl
@[simp] theorem Block.committed_nreq (b : Block) :
    (b.committed).nreq = b.nreq := rfl
@[simp] theorem Block.committed_nout (b : Block) :
    (b.committed).nout = b.nout := rfl
@[simp] theorem Block.committed_sym (b : Block) :
    (b.committed).sym = b.sym := rfl
@[simp] theorem Block.committed_ax (b : Block) :
    (b.committed).ax = b.ax := rfl
@[simp] theorem Block.committed_ovf (b : Block) :
    (b.committed).ovf = b.ovf := rfl
@[simp] theorem Block.committed_status (b : Block) :
    (b.committed).status = .done := rfl
@[simp] theorem Block.committed_cause (b : Block) :
    (b.committed).cause = .none := rfl
@[simp] theorem Block.committed_resBytes (b : Block) :
    (b.committed).resBytes = b.cur := rfl
@[simp] theorem Block.committed_resSamples (b : Block) :
    (b.committed).resSamples = b.nout := rfl

/-! ### `Container.ended` -/

@[simp] theorem Container.ended_clockUs (h : Container) :
    (h.ended).clockUs = h.clockUs := rfl
@[simp] theorem Container.ended_gyroBuf (h : Container) :
    (h.ended).gyroBuf = h.gyroBuf := rfl
@[simp] theorem Container.ended_accBuf (h : Container) :
    (h.ended).accBuf = h.accBuf := rfl
@[simp] theorem Container.ended_capacity (h : Container) :
    (h.ended).capacity = h.capacity := rfl
@[simp] theorem Container.ended_accCount (h : Container) :
    (h.ended).accCount = h.accCount := rfl
@[simp] theorem Container.ended_rangeExp (h : Container) :
    (h.ended).rangeExp = h.rangeExp := rfl
@[simp] theorem Container.ended_orient (h : Container) :
    (h.ended).orient = h.orient := rfl
@[simp] theorem Container.ended_gyroOut (h : Container) :
    (h.ended).gyroOut = h.gyroOut := rfl
@[simp] theorem Container.ended_accOut (h : Container) :
    (h.ended).accOut = h.accOut := rfl
@[simp] theorem Container.ended_pos (h : Container) :
    (h.ended).pos = h.pos := rfl
@[simp] theorem Container.ended_streamLen (h : Container) :
    (h.ended).streamLen = h.streamLen := rfl
@[simp] theorem Container.ended_phase (h : Container) :
    (h.ended).phase = .finished (outcomeOf h) := rfl
@[simp] theorem Container.ended_cancel (h : Container) :
    (h.ended).cancel = h.cancel := rfl
@[simp] theorem Container.ended_ioError (h : Container) :
    (h.ended).ioError = h.ioError := rfl

/-! ### `Container.failedWith` -/

@[simp] theorem Container.failedWith_clockUs (o : ParseOutcome) (h : Container) :
    (h.failedWith o).clockUs = h.clockUs := rfl
@[simp] theorem Container.failedWith_gyroBuf (o : ParseOutcome) (h : Container) :
    (h.failedWith o).gyroBuf = h.gyroBuf := rfl
@[simp] theorem Container.failedWith_accBuf (o : ParseOutcome) (h : Container) :
    (h.failedWith o).accBuf = h.accBuf := rfl
@[simp] theorem Container.failedWith_capacity (o : ParseOutcome) (h : Container) :
    (h.failedWith o).capacity = h.capacity := rfl
@[simp] theorem Container.failedWith_accCount (o : ParseOutcome) (h : Container) :
    (h.failedWith o).accCount = h.accCount := rfl
@[simp] theorem Container.failedWith_rangeExp (o : ParseOutcome) (h : Container) :
    (h.failedWith o).rangeExp = h.rangeExp := rfl
@[simp] theorem Container.failedWith_orient (o : ParseOutcome) (h : Container) :
    (h.failedWith o).orient = h.orient := rfl
@[simp] theorem Container.failedWith_gyroOut (o : ParseOutcome) (h : Container) :
    (h.failedWith o).gyroOut = [] := rfl
@[simp] theorem Container.failedWith_accOut (o : ParseOutcome) (h : Container) :
    (h.failedWith o).accOut = [] := rfl
@[simp] theorem Container.failedWith_pos (o : ParseOutcome) (h : Container) :
    (h.failedWith o).pos = h.pos := rfl
@[simp] theorem Container.failedWith_streamLen (o : ParseOutcome) (h : Container) :
    (h.failedWith o).streamLen = h.streamLen := rfl
@[simp] theorem Container.failedWith_phase (o : ParseOutcome) (h : Container) :
    (h.failedWith o).phase = .finished o := rfl
@[simp] theorem Container.failedWith_cancel (o : ParseOutcome) (h : Container) :
    (h.failedWith o).cancel = h.cancel := rfl
@[simp] theorem Container.failedWith_ioError (o : ParseOutcome) (h : Container) :
    (h.failedWith o).ioError = h.ioError := rfl

/-! ### `Container.fresh` -/

@[simp] theorem Container.fresh_clockUs (h : Container) :
    (h.fresh).clockUs = 0 := rfl
@[simp] theorem Container.fresh_gyroBuf (h : Container) :
    (h.fresh).gyroBuf = [] := rfl
@[simp] theorem Container.fresh_accBuf (h : Container) :
    (h.fresh).accBuf = [] := rfl
@[simp] theorem Container.fresh_capacity (h : Container) :
    (h.fresh).capacity = 0 := rfl
@[simp] theorem Container.fresh_accCount (h : Container) :
    (h.fresh).accCount = 0 := rfl
@[simp] theorem Container.fresh_rangeExp (h : Container) :
    (h.fresh).rangeExp = 0 := rfl
@[simp] theorem Container.fresh_orient (h : Container) :
    (h.fresh).orient = defaultOrient := rfl
@[simp] theorem Container.fresh_gyroOut (h : Container) :
    (h.fresh).gyroOut = [] := rfl
@[simp] theorem Container.fresh_accOut (h : Container) :
    (h.fresh).accOut = [] := rfl
@[simp] theorem Container.fresh_pos (h : Container) :
    (h.fresh).pos = h.pos := rfl
@[simp] theorem Container.fresh_streamLen (h : Container) :
    (h.fresh).streamLen = h.streamLen := rfl
@[simp] theorem Container.fresh_phase (h : Container) :
    (h.fresh).phase = h.phase := rfl
@[simp] theorem Container.fresh_cancel (h : Container) :
    (h.fresh).cancel = h.cancel := rfl
@[simp] theorem Container.fresh_ioError (h : Container) :
    (h.fresh).ioError = h.ioError := rfl

/-! ### `Container.pastHeader` -/

@[simp] theorem Container.pastHeader_clockUs (h : Container) :
    (h.pastHeader).clockUs = h.clockUs := rfl
@[simp] theorem Container.pastHeader_gyroBuf (h : Container) :
    (h.pastHeader).gyroBuf = h.gyroBuf := rfl
@[simp] theorem Container.pastHeader_accBuf (h : Container) :
    (h.pastHeader).accBuf = h.accBuf := rfl
@[simp] theorem Container.pastHeader_capacity (h : Container) :
    (h.pastHeader).capacity = h.capacity := rfl
@[simp] theorem Container.pastHeader_accCount (h : Container) :
    (h.pastHeader).accCount = h.accCount := rfl
@[simp] theorem Container.pastHeader_rangeExp (h : Container) :
    (h.pastHeader).rangeExp = h.rangeExp := rfl
@[simp] theorem Container.pastHeader_orient (h : Container) :
    (h.pastHeader).orient = h.orient := rfl
@[simp] theorem Container.pastHeader_gyroOut (h : Container) :
    (h.pastHeader).gyroOut = h.gyroOut := rfl
@[simp] theorem Container.pastHeader_accOut (h : Container) :
    (h.pastHeader).accOut = h.accOut := rfl
@[simp] theorem Container.pastHeader_pos (h : Container) :
    (h.pastHeader).pos = h.pos + Config.magicLen := rfl
@[simp] theorem Container.pastHeader_streamLen (h : Container) :
    (h.pastHeader).streamLen = h.streamLen := rfl
@[simp] theorem Container.pastHeader_phase (h : Container) :
    (h.pastHeader).phase = .records := rfl
@[simp] theorem Container.pastHeader_cancel (h : Container) :
    (h.pastHeader).cancel = h.cancel := rfl
@[simp] theorem Container.pastHeader_ioError (h : Container) :
    (h.pastHeader).ioError = h.ioError := rfl

/-! ### `Container.flushed` -/

@[simp] theorem Container.flushed_clockUs (dtUs free : Nat) (h : Container) :
    (h.flushed dtUs free).clockUs = h.clockUs + dtUs := rfl
@[simp] theorem Container.flushed_gyroBuf (dtUs free : Nat) (h : Container) :
    (h.flushed dtUs free).gyroBuf = [] := rfl
@[simp] theorem Container.flushed_accBuf (dtUs free : Nat) (h : Container) :
    (h.flushed dtUs free).accBuf = [] := rfl
@[simp] theorem Container.flushed_capacity (dtUs free : Nat) (h : Container) :
    (h.flushed dtUs free).capacity = h.capacity := rfl
@[simp] theorem Container.flushed_accCount (dtUs free : Nat) (h : Container) :
    (h.flushed dtUs free).accCount = h.accCount := rfl
@[simp] theorem Container.flushed_rangeExp (dtUs free : Nat) (h : Container) :
    (h.flushed dtUs free).rangeExp = h.rangeExp := rfl
@[simp] theorem Container.flushed_orient (dtUs free : Nat) (h : Container) :
    (h.flushed dtUs free).orient = h.orient := rfl
@[simp] theorem Container.flushed_gyroOut (dtUs free : Nat) (h : Container) :
    (h.flushed dtUs free).gyroOut = h.gyroOut ++ flushGyro h.clockUs dtUs h.gyroBuf.length free 0 h.gyroBuf := rfl
@[simp] theorem Container.flushed_accOut (dtUs free : Nat) (h : Container) :
    (h.flushed dtUs free).accOut = h.accOut ++ flushAcc h.clockUs dtUs h.accBuf.length 0 h.accBuf := rfl
@[simp] theorem Container.flushed_pos (dtUs free : Nat) (h : Container) :
    (h.flushed dtUs free).pos = h.pos := rfl
@[simp] theorem Container.flushed_streamLen (dtUs free : Nat) (h : Container) :
    (h.flushed dtUs free).streamLen = h.streamLen := rfl
@[simp] theorem Container.flushed_phase (dtUs free : Nat) (h : Container) :
    (h.flushed dtUs free).phase = h.phase := rfl
@[simp] theorem Container.flushed_cancel (dtUs free : Nat) (h : Container) :
    (h.flushed dtUs free).cancel = h.cancel := rfl
@[simp] theorem Container.flushed_ioError (dtUs free : Nat) (h : Container) :
    (h.flushed dtUs free).ioError = h.ioError := rfl

end Sys2Proof.Machine
end

