-- ==== Sys2Proof/Laws/Memory.lean ====
section
/-! SUPPORT. Numbered items, byte memory and output slots: reads after writes, and that every operation keeps the
canonical form. -/

namespace Sys2Proof.Machine

variable {α : Type}

/-! ### Numbered items -/

theorem risingFrom_mono {lo lo' : Nat} (h : lo' ≤ lo) {l : List (Nat × α)}
    (hl : risingFrom lo l = true) : risingFrom lo' l = true := by
  cases l with
  | nil => rfl
  | cons c rest =>
    obtain ⟨a, v⟩ := c
    simp only [risingFrom, Bool.and_eq_true, decide_eq_true_eq] at hl ⊢
    exact ⟨h.trans hl.1, hl.2⟩

theorem lookupAt_of_rising {lo k : Nat} (h : k < lo) {l : List (Nat × α)}
    (hl : risingFrom lo l = true) : lookupAt k l = none := by
  induction l generalizing lo with
  | nil => rfl
  | cons c rest ih =>
    obtain ⟨a, v⟩ := c
    simp only [risingFrom, Bool.and_eq_true, decide_eq_true_eq] at hl
    have hne : a ≠ k := by omega
    simpa [lookupAt, hne] using ih (lo := a + 1) (by omega) hl.2

@[simp] theorem lookupAt_insertAt_same (k : Nat) (v : α) (l : List (Nat × α)) :
    lookupAt k (insertAt k v l) = some v := by
  induction l with
  | nil => simp [insertAt, lookupAt]
  | cons c rest ih =>
    obtain ⟨a, w⟩ := c
    rcases Nat.lt_trichotomy k a with h | h | h
    · simp [insertAt, lookupAt, h]
    · simp [insertAt, lookupAt, h]
    · have h1 : ¬ k < a := by omega
      have h2 : ¬ k = a := by omega
      have h3 : ¬ a = k := by omega
      simpa [insertAt, lookupAt, h1, h2, h3] using ih

theorem lookupAt_insertAt_other {j k : Nat} (h : j ≠ k) (v : α) (l : List (Nat × α)) :
    lookupAt j (insertAt k v l) = lookupAt j l := by
  induction l with
  | nil => simp [insertAt, lookupAt, h.symm]
  | cons c rest ih =>
    obtain ⟨a, w⟩ := c
    rcases Nat.lt_trichotomy k a with hk | hk | hk
    · simp [insertAt, lookupAt, hk, h.symm]
    · subst hk
      simp [insertAt, lookupAt, h.symm]
    · have h1 : ¬ k < a := by omega
      have h2 : ¬ k = a := by omega
      simp [insertAt, lookupAt, h1, h2, ih]

theorem risingFrom_insertAt {lo k : Nat} (h : lo ≤ k) (v : α) {l : List (Nat × α)}
    (hl : risingFrom lo l = true) : risingFrom lo (insertAt k v l) = true := by
  induction l generalizing lo with
  | nil => simp [insertAt, risingFrom, h]
  | cons c rest ih =>
    obtain ⟨a, w⟩ := c
    simp only [risingFrom, Bool.and_eq_true, decide_eq_true_eq] at hl
    rcases Nat.lt_trichotomy k a with hk | hk | hk
    · simp only [insertAt, hk, if_true, risingFrom, Bool.and_eq_true, decide_eq_true_eq]
      exact ⟨h, by omega, hl.2⟩
    · subst hk
      simp [insertAt, risingFrom, hl.1, hl.2]
    · have h1 : ¬ k < a := by omega
      have h2 : ¬ k = a := by omega
      simpa [insertAt, risingFrom, h1, h2, hl.1] using ih (lo := a + 1) (by omega) hl.2

theorem risingFrom_eraseAt {lo : Nat} (k : Nat) {l : List (Nat × α)}
    (hl : risingFrom lo l = true) : risingFrom lo (eraseAt k l) = true := by
  induction l generalizing lo with
  | nil => rfl
  | cons c rest ih =>
    obtain ⟨a, w⟩ := c
    simp only [risingFrom, Bool.and_eq_true, decide_eq_true_eq] at hl
    by_cases hk : a = k
    · simpa [eraseAt, hk] using risingFrom_mono (by omega) hl.2
    · simpa [eraseAt, hk, risingFrom, hl.1] using ih (lo := a + 1) hl.2

theorem lookupAt_eraseAt_other {j k : Nat} (h : j ≠ k) (l : List (Nat × α)) :
    lookupAt j (eraseAt k l) = lookupAt j l := by
  induction l with
  | nil => rfl
  | cons c rest ih =>
    obtain ⟨a, w⟩ := c
    by_cases hk : a = k
    · subst hk
      simp [eraseAt, lookupAt, h.symm]
    · simp [eraseAt, lookupAt, hk, ih]

theorem lookupAt_eraseAt_same {lo k : Nat} {l : List (Nat × α)} (hl : risingFrom lo l = true) :
    lookupAt k (eraseAt k l) = none := by
  induction l generalizing lo with
  | nil => rfl
  | cons c rest ih =>
    obtain ⟨a, w⟩ := c
    simp only [risingFrom, Bool.and_eq_true, decide_eq_true_eq] at hl
    by_cases hk : a = k
    · subst hk
      simpa [eraseAt] using lookupAt_of_rising (lo := a + 1) (by omega) hl.2
    · simpa [eraseAt, lookupAt, hk] using ih hl.2

theorem risingFrom_filter {lo : Nat} (p : Nat × α → Bool) {l : List (Nat × α)}
    (hl : risingFrom lo l = true) : risingFrom lo (l.filter p) = true := by
  induction l generalizing lo with
  | nil => rfl
  | cons c rest ih =>
    obtain ⟨a, w⟩ := c
    simp only [risingFrom, Bool.and_eq_true, decide_eq_true_eq] at hl
    by_cases hp : p (a, w) = true
    · simpa [List.filter_cons, hp, risingFrom, hl.1] using ih hl.2
    · simpa [List.filter_cons, hp] using risingFrom_mono (by omega) (ih hl.2)

theorem mem_insertAt {k : Nat} {v : α} {l : List (Nat × α)} {c : Nat × α}
    (h : c ∈ insertAt k v l) : c = (k, v) ∨ c ∈ l := by
  induction l with
  | nil => simpa [insertAt] using h
  | cons d rest ih =>
    obtain ⟨a, w⟩ := d
    simp only [insertAt] at h
    split at h
    · simpa using h
    · split at h
      · rcases List.mem_cons.1 h with rfl | h
        · exact .inl rfl
        · exact .inr (List.mem_cons_of_mem _ h)
      · rcases List.mem_cons.1 h with rfl | h
        · exact .inr (List.mem_cons_self ..)
        · rcases ih h with h | h
          · exact .inl h
          · exact .inr (List.mem_cons_of_mem _ h)

theorem mem_eraseAt {k : Nat} {l : List (Nat × α)} {c : Nat × α}
    (h : c ∈ eraseAt k l) : c ∈ l := by
  induction l with
  | nil => exact h
  | cons d rest ih =>
    obtain ⟨a, w⟩ := d
    simp only [eraseAt] at h
    split at h
    · exact List.mem_cons_of_mem _ h
    · rcases List.mem_cons.1 h with rfl | h
      · exact List.mem_cons_self ..
      · exact List.mem_cons_of_mem _ (ih h)

/-! ### Byte memory -/

theorem Memory.read_write_same {m : Memory} (hm : m.wf = true) (a : Nat) (b : Byte) :
    (m.write a b).read a = b := by
  simp only [Memory.wf, Bool.and_eq_true] at hm
  by_cases hb : b = Memory.unlisted
  · simp [Memory.write, Memory.read, hb, lookupAt_eraseAt_same hm.1]
  · simp [Memory.write, Memory.read, hb]

theorem Memory.read_write_other {a c : Nat} (h : c ≠ a) (m : Memory) (b : Byte) :
    (m.write a b).read c = m.read c := by
  by_cases hb : b = Memory.unlisted
  · simp [Memory.write, Memory.read, hb, lookupAt_eraseAt_other h]
  · simp [Memory.write, Memory.read, hb, lookupAt_insertAt_other h]

theorem Memory.wf_write {m : Memory} (hm : m.wf = true) (a : Nat) (b : Byte) :
    (m.write a b).wf = true := by
  simp only [Memory.wf, Bool.and_eq_true, List.all_eq_true, decide_eq_true_eq] at hm ⊢
  unfold Memory.write
  split
  · exact ⟨risingFrom_eraseAt a hm.1, fun c hc => hm.2 c (mem_eraseAt hc)⟩
  · rename_i hb
    refine ⟨risingFrom_insertAt (Nat.zero_le a) b hm.1, fun c hc => ?_⟩
    rcases mem_insertAt hc with rfl | hc
    · exact hb
    · exact hm.2 c hc

theorem Memory.wf_writeBytes {m : Memory} (hm : m.wf = true) (a : Nat) (bs : List Byte) :
    (m.writeBytes a bs).wf = true := by
  induction bs generalizing m a with
  | nil => exact hm
  | cons b rest ih => exact ih (Memory.wf_write hm a b) (a + 1)

theorem Memory.wf_clearRange {m : Memory} (hm : m.wf = true) (a n : Nat) :
    (m.clearRange a n).wf = true := by
  simp only [Memory.wf, Bool.and_eq_true, List.all_eq_true, decide_eq_true_eq] at hm ⊢
  exact ⟨risingFrom_filter _ hm.1, fun c hc => hm.2 c (List.mem_of_mem_filter hc)⟩

theorem Memory.wf_reset : State.reset.mem.wf = true := rfl

@[simp] theorem Memory.readBytes_length (m : Memory) (a n : Nat) :
    (m.readBytes a n).length = n := by
  induction n generalizing a with
  | zero => rfl
  | succ n ih => simp [Memory.readBytes, ih]

theorem Memory.readBytes_getElem? (m : Memory) (a n k : Nat) (h : k < n) :
    (m.readBytes a n)[k]? = some (m.read (a + k)) := by
  induction n generalizing a k with
  | zero => omega
  | succ n ih =>
    cases k with
    | zero => simp [Memory.readBytes]
    | succ k =>
      have := ih (a + 1) k (by omega)
      simpa [Memory.readBytes, Nat.add_assoc, Nat.add_comm 1 k] using this

theorem Memory.readBytes_drop (m : Memory) (a n k : Nat) (h : k < n) :
    (m.readBytes a n).drop k = m.read (a + k) :: (m.readBytes a n).drop (k + 1) := by
  have hlen : k < (m.readBytes a n).length := by simpa using h
  rw [List.drop_eq_getElem_cons hlen]
  congr 1
  have := Memory.readBytes_getElem? m a n k h
  rw [List.getElem?_eq_getElem hlen] at this
  exact Option.some.inj this

/-! ### Output slots -/

@[simp] theorem outSlot_memWriteOut_same (s : State) (k : Nat) (v : Triple Word) :
    outSlot (memWriteOut s k v) k = some v := by
  simp [outSlot]

theorem outSlot_memWriteOut_other {j k : Nat} (h : j ≠ k) (s : State) (v : Triple Word) :
    outSlot (memWriteOut s k v) j = outSlot s j := by
  simp [outSlot, lookupAt_insertAt_other h]

theorem OutBuffer.wf_memWriteOut {s : State} (h : OutBuffer.wf s.out = true) (k : Nat)
    (v : Triple Word) : OutBuffer.wf (memWriteOut s k v).out = true :=
  risingFrom_insertAt (Nat.zero_le k) v h

theorem OutBuffer.wf_resized {o : OutBuffer} (h : OutBuffer.wf o = true) (capacity : BitVec 16) :
    OutBuffer.wf (resized capacity o) = true :=
  risingFrom_filter _ h

end Sys2Proof.Machine
end

