-- ==== Sys2Proof/Laws/Cdf.lean ====
section
/-! SUPPORT. What the constraints P1, P2 and P3 of R81 give, and what `CDF` and `ICDF` return. -/

namespace Sys2Proof.Machine

/-! ### The parameters' constraints -/

theorem params_scale_ge (p : Params) : 9 ≤ p.scale := by
  have h := p.conforms
  simp only [paramsConform, Bool.and_eq_true, decide_eq_true_eq] at h
  exact h.1.1.1

theorem params_scale_le (p : Params) : p.scale ≤ 23 := by
  have h := p.conforms
  simp only [paramsConform, Bool.and_eq_true, decide_eq_true_eq] at h
  exact h.1.1.2

theorem params_two_pow_scale_pos (p : Params) : 0 < 2 ^ p.scale := Nat.two_pow_pos _

theorem params_two_pow_scale_le (p : Params) : 2 ^ p.scale ≤ 2 ^ 23 :=
  Nat.pow_le_pow_right (by decide) (params_scale_le p)

/-- Table `m` conforms. -/
theorem params_row_conforms (p : Params) {m : Nat} (hm : m < 16) :
    tableConforms p.scale (p.rom.getD m []) = true := by
  have h := p.conforms
  simp only [paramsConform, Bool.and_eq_true, decide_eq_true_eq, List.all_eq_true] at h
  have hlen : m < p.rom.length := by omega
  have : p.rom.getD m [] = p.rom[m] := by simp [hlen]
  rw [this]
  exact h.2 _ (List.getElem_mem hlen)

/-- In a strictly rising list each entry is below the next. -/
theorem strictlyRising_getD {l : List Nat} (h : strictlyRising l = true) {i : Nat}
    (hi : i + 1 < l.length) : l.getD i 0 < l.getD (i + 1) 0 := by
  induction l generalizing i with
  | nil => simp at hi
  | cons a rest ih =>
    cases rest with
    | nil => simp at hi
    | cons b rest =>
      simp only [strictlyRising, Bool.and_eq_true, decide_eq_true_eq] at h
      cases i with
      | zero => simpa using h.1
      | succ i =>
        have hi' : i + 1 < (b :: rest).length := by simp at hi ⊢; omega
        simpa using ih h.2 hi'

/-- P1. -/
theorem romAt_first (p : Params) {m : Nat} (hm : m < 16) : romAt p m (-128) = 0 := by
  have h := params_row_conforms p hm
  simp only [tableConforms, Bool.and_eq_true, decide_eq_true_eq] at h
  have hlen : 0 < (p.rom.getD m []).length := by omega
  have := h.1.1.2
  rw [List.getD_eq_getElem _ _ hlen] at this
  simp only [romAt]
  rw [List.getD_eq_getElem _ _ (by simpa using hlen)]
  exact this

/-- P2. -/
theorem romAt_last (p : Params) {m : Nat} (hm : m < 16) : romAt p m 129 = 2 ^ p.scale := by
  have h := params_row_conforms p hm
  simp only [tableConforms, Bool.and_eq_true, decide_eq_true_eq] at h
  simpa [romAt] using h.1.2

/-- P3. -/
theorem romAt_lt_succ (p : Params) {m : Nat} (hm : m < 16) {x : Int} (h1 : -128 ≤ x) (h2 : x ≤ 128) :
    romAt p m x < romAt p m (x + 1) := by
  have h := params_row_conforms p hm
  simp only [tableConforms, Bool.and_eq_true, decide_eq_true_eq] at h
  have e : (x + 1 + 128).toNat = (x + 128).toNat + 1 := by omega
  simp only [romAt, e]
  exact strictlyRising_getD h.2 (by omega)

theorem romAt_add_lt (p : Params) {m : Nat} (hm : m < 16) {x : Int} (h1 : -128 ≤ x) (k : Nat)
    (h2 : x + k ≤ 128) : romAt p m x < romAt p m (x + k + 1) := by
  induction k with
  | zero => simpa using romAt_lt_succ p hm h1 (by omega)
  | succ k ih =>
    have := ih (by omega)
    have step := romAt_lt_succ p hm (x := x + k + 1) (by omega) (by omega)
    push_cast
    rw [show x + ((k : Int) + 1) + 1 = x + k + 1 + 1 by ring]
    omega

/-- The table rises strictly. -/
theorem romAt_lt (p : Params) {m : Nat} (hm : m < 16) {x y : Int} (h1 : -128 ≤ x) (hxy : x < y)
    (h2 : y ≤ 129) : romAt p m x < romAt p m y := by
  have e : y = x + ((y - x - 1).toNat : Nat) + 1 := by omega
  rw [e]
  exact romAt_add_lt p hm h1 _ (by omega)

theorem romAt_le_last (p : Params) {m : Nat} (hm : m < 16) {x : Int} (h1 : -128 ≤ x) (h2 : x ≤ 129) :
    romAt p m x ≤ 2 ^ p.scale := by
  rw [← romAt_last p hm]
  rcases lt_or_eq_of_le h2 with h | rfl
  · exact (romAt_lt p hm h1 h le_rfl).le
  · exact le_rfl

/-- At most one symbol's interval holds a value. -/
theorem interval_unique (p : Params) {m : Nat} (hm : m < 16) {x y : Int} {c : Nat}
    (hx1 : -128 ≤ x) (hx2 : x ≤ 128) (hy1 : -128 ≤ y) (hy2 : y ≤ 128)
    (hx : romAt p m x ≤ c ∧ c < romAt p m (x + 1)) (hy : romAt p m y ≤ c ∧ c < romAt p m (y + 1)) :
    x = y := by
  rcases lt_trichotomy x y with h | h | h
  · have : romAt p m (x + 1) ≤ romAt p m y := by
      rcases lt_or_eq_of_le (show x + 1 ≤ y by omega) with h' | h'
      · exact (romAt_lt p hm (by omega) h' (by omega)).le
      · rw [h']
    omega
  · exact h
  · have : romAt p m (y + 1) ≤ romAt p m x := by
      rcases lt_or_eq_of_le (show y + 1 ≤ x by omega) with h' | h'
      · exact (romAt_lt p hm (by omega) h' (by omega)).le
      · rw [h']
    omega

/-! ### `CDF` -/

/-- `CDF` reads the table everywhere from -128 to 129 (R80's uniform form). -/
theorem cdf_eq_romAt (p : Params) {m : Nat} (hm : m < 16) {x : Int} (h1 : -128 ≤ x) (h2 : x ≤ 129) :
    cdf p m x = romAt p m x := by
  unfold cdf
  split
  · have : x = -128 := by omega
    rw [this, romAt_first p hm]
  · split
    · have : x = 129 := by omega
      rw [this, romAt_last p hm]
    · rfl

theorem cdf_low (p : Params) (m : Nat) {x : Int} (h : x ≤ -128) : cdf p m x = 0 := by
  simp [cdf, h]

theorem cdf_high (p : Params) (m : Nat) {x : Int} (h : 128 < x) : cdf p m x = 2 ^ p.scale := by
  have : ¬ x ≤ -128 := by omega
  simp [cdf, h, this]

/-! ### `ICDF` -/

/-- The search keeps `CDF(m, lo) <= y < CDF(m, hi)` and ends with neighbours (R84). -/
theorem icdfSearch_between (p : Params) (m y : Nat) (k : Nat) (lo hi : Int) (hlt : lo < hi)
    (hk : hi - lo ≤ 2 ^ k) (h1 : cdf p m lo ≤ y) (h2 : y < cdf p m hi) :
    lo ≤ icdfSearch p m y k lo hi ∧ icdfSearch p m y k lo hi < hi ∧
      cdf p m (icdfSearch p m y k lo hi) ≤ y ∧ y < cdf p m (icdfSearch p m y k lo hi + 1) := by
  induction k generalizing lo hi with
  | zero =>
    have : hi = lo + 1 := by simp at hk; omega
    subst this
    exact ⟨le_rfl, hlt, h1, h2⟩
  | succ k ih =>
    unfold icdfSearch
    have hk' : hi - lo ≤ 2 * 2 ^ k := by rw [pow_succ] at hk; omega
    split
    · have : hi = lo + 1 := by omega
      subst this
      exact ⟨le_rfl, hlt, h1, h2⟩
    · split
      · rename_i hmid
        obtain ⟨a, b, c⟩ := ih ((lo + hi) / 2) hi (by omega) (by omega) hmid h2
        exact ⟨by omega, b, c⟩
      · rename_i hmid
        obtain ⟨a, b, c⟩ := ih lo ((lo + hi) / 2) (by omega) (by omega) h1 (by omega)
        exact ⟨a, by omega, c⟩

/-- `ICDF` answers the symbol whose interval holds `y` (R83). -/
theorem icdf_interval (p : Params) {m y : Nat} (hm : m < 16) (hy : y < 2 ^ p.scale) :
    -128 ≤ icdf p m y ∧ icdf p m y ≤ 128 ∧ romAt p m (icdf p m y) ≤ y ∧
      y < romAt p m (icdf p m y + 1) := by
  obtain ⟨a, b, c, d⟩ := icdfSearch_between p m y 9 (-129) 129 (by decide) (by decide)
    (by rw [cdf_low p m (by decide)]; omega) (by rw [cdf_high p m (by decide)]; exact hy)
  change -129 ≤ icdf p m y at a
  change icdf p m y < 129 at b
  change cdf p m (icdf p m y) ≤ y at c
  change y < cdf p m (icdf p m y + 1) at d
  have hlow : -128 ≤ icdf p m y := by
    by_contra hc
    rw [cdf_low p m (by omega)] at d
    omega
  refine ⟨hlow, by omega, ?_, ?_⟩
  · rwa [← cdf_eq_romAt p hm hlow (by omega)]
  · rwa [← cdf_eq_romAt p hm (x := icdf p m y + 1) (by omega) (by omega)]

end Sys2Proof.Machine
end

