-- ==== Sys2Proof/Laws/Rans.lean ====
section
/-! SUPPORT. What `RENORM` and `DECSYM` do, said once: the equation of `renorm` with `refill`, and the cases of
`decsym`. -/

namespace Sys2Proof.Machine

/-! ### The unread bytes -/

@[simp] theorem unreadOf_length (s : State) :
    (unreadOf s).length = s.len.toNat - s.blk.cur.toNat := by
  simp [unreadOf, sliceOf]

theorem unreadOf_eq_nil {s : State} (h : s.len.toNat ≤ s.blk.cur.toNat) : unreadOf s = [] := by
  apply List.length_eq_zero_iff.1
  simp [h]

theorem cur_add_one_toNat {s : State} (h : s.blk.cur.toNat < s.len.toNat) :
    (s.blk.cur + 1).toNat = s.blk.cur.toNat + 1 := by
  have := s.len.isLt
  rw [BitVec.toNat_add]
  simp
  omega

theorem unreadOf_eq_cons {s : State} (h : s.blk.cur.toNat < s.len.toNat) (byte : Byte) :
    unreadOf s = inByte s s.blk.cur.toNat :: unreadOf (s.mapBlk (Block.pullByte byte)) := by
  have e := cur_add_one_toNat h
  unfold unreadOf sliceOf
  rw [Memory.readBytes_drop _ _ _ _ h]
  simp only [mapBlk_mem, mapBlk_inBase, mapBlk_len, mapBlk_blk, Block.pullByte_cur, e, inByte]

/-! ### `RENORM` -/

/-- A byte enters a register below `2^23` without losing a bit (R91). -/
theorem pullByte_toNat {r : Word} (h : r.toNat < 2 ^ 23) (byte : Byte) :
    ((r <<< 8) ||| byte.zeroExtend 32).toNat = r.toNat * 256 + byte.toNat := by
  have hb := byte.isLt
  have e1 : (r <<< 8).toNat = r.toNat * 256 := by
    rw [BitVec.toNat_shiftLeft, Nat.shiftLeft_eq]
    omega
  have e2 : (byte.zeroExtend 32).toNat = byte.toNat := by
    simp [BitVec.toNat_setWidth]
    omega
  rw [BitVec.toNat_or, e1, e2, show r.toNat * 256 = 2 ^ 8 * r.toNat by ring]
  exact (Nat.two_pow_add_eq_or_of_lt (by omega) _).symm

/-- The registers `RENORM` leaves when it has pulled `k` bytes and the register holds `r`. -/
def Block.pulledTo (r k : Nat) (b : Block) : Block :=
  { b with rstate := BitVec.ofNat 32 r, cur := b.cur + BitVec.ofNat 32 k }

/-- All the bytes of a list drawn into a register value. -/
def drawAll (r : Nat) (bytes : List Byte) : Nat := bytes.foldl (fun r b => r * 256 + b.toNat) r

/-- What `RENORM` does (R91), by whether the unread bytes suffice. -/
def renormResult (s : State) : Option (Nat × List Byte) → Micro Unit
  | some (r, left) =>
    .ok () (s.mapBlk (Block.pulledTo r ((unreadOf s).length - left.length)))
  | none =>
    .fail .truncRenorm (s.mapBlk (Block.pulledTo (drawAll s.blk.rstate.toNat (unreadOf s))
      (unreadOf s).length))

theorem refill_of_le {r : Nat} (h : 2 ^ 23 ≤ r) (bytes : List Byte) : refill r bytes = some (r, bytes) := by
  cases bytes <;> simp only [refill, h, if_true]

theorem refill_length {r : Nat} {bytes : List Byte} {r' : Nat} {left : List Byte}
    (h : refill r bytes = some (r', left)) : left.length ≤ bytes.length := by
  induction bytes generalizing r with
  | nil =>
    simp only [refill] at h
    split at h
    · cases h; exact le_rfl
    · cases h
  | cons b rest ih =>
    simp only [refill] at h
    split at h
    · cases h; exact le_rfl
    · exact (ih h).trans (by simp)

theorem pulledTo_zero (s : State) : s.mapBlk (Block.pulledTo s.blk.rstate.toNat 0) = s := by
  simp [State.mapBlk, Block.pulledTo]

theorem pulledTo_pullByte (s : State) (byte : Byte) (r k : Nat) :
    (s.mapBlk (Block.pullByte byte)).mapBlk (Block.pulledTo r k) = s.mapBlk (Block.pulledTo r (k + 1)) := by
  simp only [State.mapBlk, Block.pulledTo, Block.pullByte]
  congr 2
  rw [BitVec.add_assoc]
  congr 1
  apply BitVec.eq_of_toNat_eq
  simp [Nat.add_comm]

theorem renormLoop_eq (k : Nat) (s : State) (hk : s.len.toNat - s.blk.cur.toNat = k) :
    renormLoop k s = renormResult s (refill s.blk.rstate.toNat (unreadOf s)) := by
  induction k generalizing s with
  | zero =>
    rw [unreadOf_eq_nil (by omega)]
    unfold renormLoop refill
    split
    · simp [renormResult, unreadOf_eq_nil (show s.len.toNat ≤ s.blk.cur.toNat by omega), pulledTo_zero]
    · simp [renormResult, unreadOf_eq_nil (show s.len.toNat ≤ s.blk.cur.toNat by omega), drawAll,
        pulledTo_zero]
  | succ k ih =>
    have hlt : s.blk.cur.toNat < s.len.toNat := by omega
    have hcur := cur_add_one_toNat hlt
    unfold renormLoop
    split
    · rename_i h
      rw [refill_of_le h]
      simp [renormResult, pulledTo_zero]
    · rename_i h
      have h23 : s.blk.rstate.toNat < 2 ^ 23 := Nat.lt_of_not_le h
      have hread : memRead s s.blk.cur.toNat = some (inByte s s.blk.cur.toNat) := by
        simp [memRead, hlt]
      rw [hread]
      simp only
      rw [ih _ (by simp only [mapBlk_len, mapBlk_blk, Block.pullByte_cur, hcur]; omega)]
      have hr : ((s.mapBlk (Block.pullByte (inByte s s.blk.cur.toNat))).blk.rstate).toNat =
          s.blk.rstate.toNat * 256 + (inByte s s.blk.cur.toNat).toNat := by
        exact pullByte_toNat h23 _
      rw [hr, unreadOf_eq_cons hlt (inByte s s.blk.cur.toNat)]
      rw [show refill s.blk.rstate.toNat (inByte s s.blk.cur.toNat ::
          unreadOf (s.mapBlk (Block.pullByte (inByte s s.blk.cur.toNat)))) =
          refill (s.blk.rstate.toNat * 256 + (inByte s s.blk.cur.toNat).toNat)
            (unreadOf (s.mapBlk (Block.pullByte (inByte s s.blk.cur.toNat)))) by
        rw [refill, if_neg h]]
      have hlen := congrArg List.length (unreadOf_eq_cons hlt (inByte s s.blk.cur.toNat))
      rw [List.length_cons] at hlen
      rcases href : refill (s.blk.rstate.toNat * 256 + (inByte s s.blk.cur.toNat).toNat)
          (unreadOf (s.mapBlk (Block.pullByte (inByte s s.blk.cur.toNat)))) with _ | ⟨r, left⟩
      · simp only [renormResult]
        rw [pulledTo_pullByte, hr, unreadOf_eq_cons hlt (inByte s s.blk.cur.toNat)]
        simp [drawAll]
      · simp only [renormResult]
        rw [pulledTo_pullByte, hlen]
        have := refill_length href
        congr 4
        omega

/-- `RENORM` is `refill` on the unread bytes. -/
theorem renorm_eq (s : State) : renorm s = renormResult s (refill s.blk.rstate.toNat (unreadOf s)) :=
  renormLoop_eq _ s rfl

/-- What a successful `refill` gives: the value is in range; bytes were drawn only into a value below `2^23`,
and then the value is below `2^31` (R93). -/
theorem refill_spec {r : Nat} {bytes : List Byte} {r' : Nat} {left : List Byte}
    (h : refill r bytes = some (r', left)) :
    2 ^ 23 ≤ r' ∧ (left.length = bytes.length → r' = r ∧ left = bytes) ∧
      (left.length < bytes.length → r < 2 ^ 23 ∧ r' < 2 ^ 31) := by
  induction bytes generalizing r with
  | nil =>
    simp only [refill] at h
    split at h
    · rename_i hr
      cases h
      exact ⟨hr, fun _ => ⟨rfl, rfl⟩, fun hc => absurd hc (by simp)⟩
    · cases h
  | cons b rest ih =>
    simp only [refill] at h
    split at h
    · rename_i hr
      cases h
      exact ⟨hr, fun _ => ⟨rfl, rfl⟩, fun hc => absurd hc (by simp)⟩
    · rename_i hr
      obtain ⟨h1, h2, h3⟩ := ih h
      have hle := refill_length h
      have hb := b.isLt
      refine ⟨h1, fun hc => ?_, fun _ => ⟨by omega, ?_⟩⟩
      · simp at hc
        omega
      · rcases lt_or_eq_of_le hle with hlt | heq
        · exact (h3 hlt).2
        · rw [(h2 heq).1]
          omega

theorem refill_lt {r : Nat} {bytes : List Byte} {r' : Nat} {left : List Byte} (hr : r < 2 ^ 32)
    (h : refill r bytes = some (r', left)) : r' < 2 ^ 32 := by
  obtain ⟨_, h2, h3⟩ := refill_spec h
  rcases lt_or_eq_of_le (refill_length h) with hlt | heq
  · have := (h3 hlt).2
    omega
  · rw [(h2 heq).1]
    exact hr

/-! ### `DECSYM` -/

theorem cumOf_lt (s : State) : cumOf s < 2 ^ s.params.scale :=
  Nat.mod_lt _ (Nat.two_pow_pos _)

/-- The symbol under the register (R83). -/
theorem symbolUnder_interval {s : State} (hm : modelOf s < 16) :
    inInterval s.params (modelOf s) (cumOf s) (symbolUnder s) :=
  icdf_interval s.params hm (cumOf_lt s)

/-- The symbol whose interval holds `cum` is the one decoded. -/
theorem symbolUnder_eq {s : State} (hm : modelOf s < 16) {x : Int}
    (h : inInterval s.params (modelOf s) (cumOf s) x) : symbolUnder s = x := by
  obtain ⟨a, b, c, d⟩ := symbolUnder_interval hm
  exact interval_unique s.params hm a b h.1 h.2.1 ⟨c, d⟩ h.2.2

/-- The value R90 writes is `symbolUpdate`. -/
theorem rstateAfter_eq {s : State} (hm : modelOf s < 16) :
    rstateAfter s (symbolUnder s) =
      BitVec.ofNat 32 (symbolUpdate s.params (modelOf s) s.blk.rstate.toNat (symbolUnder s)) := by
  obtain ⟨h1, h2, h3, h4⟩ := symbolUnder_interval hm
  have e1 := cdf_eq_romAt s.params hm h1 (by omega)
  have e2 := cdf_eq_romAt s.params hm (x := symbolUnder s + 1) (by omega) (by omega)
  unfold rstateAfter symbolUpdate freqOf startOf quotientOf
  rw [e1, e2, Nat.add_sub_assoc h3]
  rfl

/-- R92: the update fits in 32 bits and does not raise the register; it lowers it unless the symbol is -128. -/
theorem symbolUpdate_lt {s : State} (hm : modelOf s < 16) (hne : symbolUnder s ≠ -128) :
    symbolUpdate s.params (modelOf s) s.blk.rstate.toNat (symbolUnder s) < s.blk.rstate.toNat := by
  obtain ⟨h1, h2, h3, h4⟩ := symbolUnder_interval hm
  have hlast := romAt_le_last s.params hm (x := symbolUnder s + 1) (by omega) (by omega)
  have hpos : 0 < romAt s.params (modelOf s) (symbolUnder s) := by
    have := romAt_lt s.params hm (x := -128) (y := symbolUnder s) (by omega) (by omega) (by omega)
    omega
  have hmod : s.blk.rstate.toNat =
      2 ^ s.params.scale * (s.blk.rstate.toNat / 2 ^ s.params.scale) + cumOf s :=
    (Nat.div_add_mod _ _).symm
  change (romAt s.params (modelOf s) (symbolUnder s + 1) - romAt s.params (modelOf s) (symbolUnder s)) *
    (s.blk.rstate.toNat / 2 ^ s.params.scale) +
      (cumOf s - romAt s.params (modelOf s) (symbolUnder s)) < s.blk.rstate.toNat
  have hmul : (romAt s.params (modelOf s) (symbolUnder s + 1) -
      romAt s.params (modelOf s) (symbolUnder s)) * (s.blk.rstate.toNat / 2 ^ s.params.scale) ≤
      2 ^ s.params.scale * (s.blk.rstate.toNat / 2 ^ s.params.scale) :=
    Nat.mul_le_mul_right _ (by omega)
  generalize hA : (romAt s.params (modelOf s) (symbolUnder s + 1) -
      romAt s.params (modelOf s) (symbolUnder s)) * (s.blk.rstate.toNat / 2 ^ s.params.scale) = A at *
  generalize hB : 2 ^ s.params.scale * (s.blk.rstate.toNat / 2 ^ s.params.scale) = B at *
  omega

theorem withRstate_pulledTo (s : State) (v : Word) (r k : Nat) :
    (s.mapBlk (Block.withRstate v)).mapBlk (Block.pulledTo r k) = s.mapBlk (Block.pulledTo r k) := rfl

theorem unreadOf_withRstate (s : State) (v : Word) :
    unreadOf (s.mapBlk (Block.withRstate v)) = unreadOf s := rfl

/-- What `DECSYM` does (R90), in full. -/
theorem decsym_eq (s : State) :
    decsym s =
      if 16 ≤ modelOf s then .fault .noSuchTable
      else if symbolUnder s = -128 then .fail .sentinel s
      else
        match refill (symbolUpdate s.params (modelOf s) s.blk.rstate.toNat (symbolUnder s)) (unreadOf s) with
        | some (r, left) =>
          .ok (symbolUnder s)
            (s.mapBlk (Block.pulledTo r ((unreadOf s).length - left.length)))
        | none =>
          .fail .truncRenorm (s.mapBlk (Block.pulledTo
            (drawAll (symbolUpdate s.params (modelOf s) s.blk.rstate.toNat (symbolUnder s)) (unreadOf s))
            (unreadOf s).length)) := by
  unfold decsym
  split
  · rfl
  · rename_i hm
    split
    · rfl
    · rename_i hne
      have hm' : modelOf s < 16 := by omega
      have hlt := symbolUpdate_lt hm' hne
      have h32 := s.blk.rstate.isLt
      rw [renorm_eq, rstateAfter_eq hm']
      simp only [unreadOf_withRstate, mapBlk_blk, Block.withRstate_rstate, BitVec.toNat_ofNat,
        Nat.mod_eq_of_lt (hlt.trans h32)]
      rcases refill (symbolUpdate s.params (modelOf s) s.blk.rstate.toNat (symbolUnder s)) (unreadOf s)
        with _ | ⟨r, left⟩
      · simp only [renormResult, Micro.andThen, withRstate_pulledTo, unreadOf_withRstate, mapBlk_blk,
          Block.withRstate_rstate, BitVec.toNat_ofNat, Nat.mod_eq_of_lt (hlt.trans h32)]
      · simp only [renormResult, Micro.andThen, withRstate_pulledTo, unreadOf_withRstate]

/-- What a `DECSYM` that returns does: the symbol of the register, and only `RSTATE` and `CUR` written. -/
theorem decsym_ok {s t : State} {x : Int} (h : decsym s = .ok x t) :
    modelOf s < 16 ∧ x = symbolUnder s ∧ x ≠ -128 ∧
      ∃ r left, refill (symbolUpdate s.params (modelOf s) s.blk.rstate.toNat x) (unreadOf s) = some (r, left) ∧
        t = s.mapBlk (Block.pulledTo r ((unreadOf s).length - left.length)) := by
  rw [decsym_eq] at h
  split at h
  · cases h
  · rename_i hm
    split at h
    · cases h
    · rename_i hne
      split at h
      · rename_i r left href
        cases h
        exact ⟨by omega, rfl, hne, r, left, href, rfl⟩
      · cases h

/-- A failing `DECSYM` names `SENTINEL` or `TRUNC_RENORM`, and wrote only `RSTATE` and `CUR`. -/
theorem decsym_fail {s t : State} {c : Cause} (h : decsym s = .fail c t) :
    (c = .sentinel ∨ c = .truncRenorm) ∧
      ∃ r k, k ≤ (unreadOf s).length ∧ t = s.mapBlk (Block.pulledTo r k) := by
  rw [decsym_eq] at h
  split at h
  · cases h
  · split at h
    · cases h
      exact ⟨.inl rfl, s.blk.rstate.toNat, 0, Nat.zero_le _, (pulledTo_zero s).symm⟩
    · split at h
      · cases h
      · cases h
        exact ⟨.inr rfl, _, _, le_rfl, rfl⟩

/-- With a table to read, `DECSYM` does not stop the model. -/
theorem decsym_no_fault {s : State} (hm : modelOf s < 16) (f : Fault) : decsym s ≠ .fault f := by
  intro h
  rw [decsym_eq] at h
  split at h
  · omega
  · split at h
    · cases h
    · split at h <;> cases h

end Sys2Proof.Machine
end

