-- ==== Sys2Proof/Laws/Sequencer.lean ====
section
/-! SUPPORT. What the sequencer's operations can do, said once: how a chain of micro-operations ends, the cases of
each pass of the two loops, what the loop leaves alone, and that its fuel suffices (R97, R183). -/

namespace Sys2Proof.Machine

/-! ### Chains -/

section Chains

variable {α β : Type} {m : Micro α} {next : α → State → Micro β}

theorem andThen_ok {b : β} {t : State} (h : m.andThen next = .ok b t) :
    ∃ a s, m = .ok a s ∧ next a s = .ok b t := by
  cases m with
  | ok a s => exact ⟨a, s, rfl, h⟩
  | fail c s => cases h
  | fault f => cases h

theorem andThen_fail {c : Cause} {t : State} (h : m.andThen next = .fail c t) :
    m = .fail c t ∨ ∃ a s, m = .ok a s ∧ next a s = .fail c t := by
  cases m with
  | ok a s => exact .inr ⟨a, s, rfl, h⟩
  | fail c s => cases h; exact .inl rfl
  | fault f => cases h

theorem andThen_fault {f : Fault} (h : m.andThen next = .fault f) :
    m = .fault f ∨ ∃ a s, m = .ok a s ∧ next a s = .fault f := by
  cases m with
  | ok a s => exact .inr ⟨a, s, rfl, h⟩
  | fail c s => cases h
  | fault f => cases h; exact .inl rfl

end Chains

/-! ### One symbol -/

/-- The state after a symbol that was decoded, counted and stored (R112). -/
def symbolStored (i : Axis) (sym : Int) (t : State) : State :=
  (t.mapBlk (Block.ckAdded sym)).mapBlk (Block.latched i (storedSymbol t.params.sym128 sym))

theorem decodeSymbol_ok {i : Axis} {s t : State} (h : decodeSymbol i s = .ok () t) :
    ∃ sym s1, decsym (s.mapBlk (Block.withAx i)) = .ok sym s1 ∧
      symbolRejected s1.params.sym128 sym = false ∧ t = symbolStored i sym s1 := by
  obtain ⟨sym, s1, h1, h2⟩ := andThen_ok h
  split at h2
  · cases h2
  · rename_i hr
    cases h2
    exact ⟨sym, s1, h1, by simpa using hr, rfl⟩

theorem decodeSymbol_fail {i : Axis} {s t : State} {c : Cause} (h : decodeSymbol i s = .fail c t) :
    decsym (s.mapBlk (Block.withAx i)) = .fail c t ∨
      (c = .sym128 ∧ ∃ sym, decsym (s.mapBlk (Block.withAx i)) = .ok sym t ∧
        symbolRejected t.params.sym128 sym = true) := by
  rcases andThen_fail h with h1 | ⟨sym, s1, h1, h2⟩
  · exact .inl h1
  · split at h2
    · rename_i hr
      cases h2
      exact .inr ⟨rfl, sym, h1, hr⟩
    · cases h2

theorem decodeSymbol_fault {i : Axis} {s : State} {f : Fault} (h : decodeSymbol i s = .fault f) :
    decsym (s.mapBlk (Block.withAx i)) = .fault f := by
  rcases andThen_fault h with h1 | ⟨sym, s1, h1, h2⟩
  · exact h1
  · split at h2 <;> cases h2

/-! ### What decoding leaves alone -/

/-- From `s` to `t` only decoding has happened: the inputs, the host and the committed registers are as they were;
the cursor moved forward in the slice; `OVF` was not cleared; slots were written only from `NOUT` on. -/
structure DecodeFrame (s t : State) : Prop where
  params : t.params = s.params
  mem : t.mem = s.mem
  inBase : t.inBase = s.inBase
  len : t.len = s.len
  host : t.host = s.host
  request : t.request = s.request
  ret : t.ret = s.ret
  freeCtr : t.freeCtr = s.freeCtr
  regS : t.blk.regS = s.blk.regS
  qs : t.blk.qs = s.blk.qs
  mi : t.blk.mi = s.blk.mi
  hck : t.blk.hck = s.blk.hck
  nreq : t.blk.nreq = s.blk.nreq
  status : t.blk.status = s.blk.status
  cause : t.blk.cause = s.blk.cause
  resBytes : t.blk.resBytes = s.blk.resBytes
  resSamples : t.blk.resSamples = s.blk.resSamples
  ovf : s.blk.ovf = true → t.blk.ovf = true
  cursor : s.blk.cur.toNat ≤ s.len.toNat →
    s.blk.cur.toNat ≤ t.blk.cur.toNat ∧ t.blk.cur.toNat ≤ s.len.toNat
  count : s.blk.nout.toNat ≤ s.blk.nreq.toNat →
    s.blk.nout.toNat ≤ t.blk.nout.toNat ∧ t.blk.nout.toNat ≤ s.blk.nreq.toNat
  slots : s.blk.nout.toNat ≤ s.blk.nreq.toNat →
    ∀ k, k < s.blk.nout.toNat ∨ s.blk.nreq.toNat ≤ k → outSlot t k = outSlot s k

theorem DecodeFrame.refl (s : State) : DecodeFrame s s := by
  constructor <;> first | rfl | exact id | exact fun h => ⟨le_rfl, h⟩ | exact fun _ _ _ => rfl

theorem DecodeFrame.trans {s t u : State} (h1 : DecodeFrame s t) (h2 : DecodeFrame t u) :
    DecodeFrame s u where
  params := h2.params.trans h1.params
  mem := h2.mem.trans h1.mem
  inBase := h2.inBase.trans h1.inBase
  len := h2.len.trans h1.len
  host := h2.host.trans h1.host
  request := h2.request.trans h1.request
  ret := h2.ret.trans h1.ret
  freeCtr := h2.freeCtr.trans h1.freeCtr
  regS := h2.regS.trans h1.regS
  qs := h2.qs.trans h1.qs
  mi := h2.mi.trans h1.mi
  hck := h2.hck.trans h1.hck
  nreq := h2.nreq.trans h1.nreq
  status := h2.status.trans h1.status
  cause := h2.cause.trans h1.cause
  resBytes := h2.resBytes.trans h1.resBytes
  resSamples := h2.resSamples.trans h1.resSamples
  ovf := fun h => h2.ovf (h1.ovf h)
  cursor := fun h => by
    have a := h1.cursor h
    have b := h2.cursor (by rw [h1.len]; exact a.2)
    rw [h1.len] at b
    omega
  count := fun h => by
    have a := h1.count h
    have b := h2.count (by rw [h1.nreq]; exact a.2)
    rw [h1.nreq] at b
    omega
  slots := fun h k hk => by
    have a := h1.count h
    have e := h2.slots (by rw [h1.nreq]; exact a.2) k (by rw [h1.nreq]; omega)
    rw [e]
    exact h1.slots h k hk

theorem pulledTo_cursor {s : State} {r k : Nat} (hk : k ≤ (unreadOf s).length)
    (h : s.blk.cur.toNat ≤ s.len.toNat) :
    ((s.mapBlk (Block.pulledTo r k)).blk.cur).toNat = s.blk.cur.toNat + k := by
  have := s.len.isLt
  rw [unreadOf_length] at hk
  simp only [mapBlk_blk, Block.pulledTo, BitVec.toNat_add, BitVec.toNat_ofNat]
  omega

theorem frame_withAx (i : Axis) (s : State) : DecodeFrame s (s.mapBlk (Block.withAx i)) := by
  constructor <;> first | rfl | exact id | exact fun h => ⟨le_rfl, h⟩ | exact fun _ _ _ => rfl

theorem frame_pulledTo {s : State} {r k : Nat} (hk : k ≤ (unreadOf s).length) :
    DecodeFrame s (s.mapBlk (Block.pulledTo r k)) := by
  constructor
  case cursor =>
    intro h
    rw [pulledTo_cursor hk h]
    rw [unreadOf_length] at hk
    omega
  all_goals first | rfl | exact id | exact fun h => ⟨le_rfl, h⟩ | exact fun _ _ _ => rfl

theorem frame_symbolStored (i : Axis) (sym : Int) (s : State) : DecodeFrame s (symbolStored i sym s) := by
  constructor <;> first | rfl | exact id | exact fun h => ⟨le_rfl, h⟩ | exact fun _ _ _ => rfl

theorem frame_applied (s : State) : DecodeFrame s (s.mapBlk Block.applied) := by
  constructor
  case ovf => intro h; simp [h]
  all_goals first | rfl | exact fun h => ⟨le_rfl, h⟩ | exact fun _ _ _ => rfl

/-- The state after `EMIT`. -/
def emitted (s : State) : State :=
  (memWriteOut s s.blk.nout.toNat s.blk.regW).mapBlk Block.counted

theorem nout_counted {s : State} (h : s.blk.nout.toNat < s.blk.nreq.toNat) :
    (s.blk.nout + 1).toNat = s.blk.nout.toNat + 1 := by
  have := s.blk.nreq.isLt
  rw [BitVec.toNat_add]
  simp
  omega

theorem frame_emitted {s : State} (h : s.blk.nout.toNat < s.blk.nreq.toNat) : DecodeFrame s (emitted s) := by
  constructor
  case count =>
    intro _
    have := nout_counted h
    simp only [emitted, mapBlk_blk, memWriteOut_blk, Block.counted_nout, this]
    omega
  case slots =>
    intro _ k hk
    change outSlot (memWriteOut s s.blk.nout.toNat s.blk.regW) k = outSlot s k
    exact outSlot_memWriteOut_other (by omega) s _
  all_goals first | rfl | exact id | exact fun h => ⟨le_rfl, h⟩

theorem decsym_frame_ok {s t : State} {x : Int} (h : decsym s = .ok x t) : DecodeFrame s t := by
  obtain ⟨_, _, _, r, left, _, rfl⟩ := decsym_ok h
  exact frame_pulledTo (Nat.sub_le _ _)

theorem decsym_frame_fail {s t : State} {c : Cause} (h : decsym s = .fail c t) : DecodeFrame s t := by
  obtain ⟨_, r, k, hk, rfl⟩ := decsym_fail h
  exact frame_pulledTo hk

theorem decodeSymbol_frame_ok {i : Axis} {s t : State} (h : decodeSymbol i s = .ok () t) :
    DecodeFrame s t := by
  obtain ⟨sym, s1, h1, _, rfl⟩ := decodeSymbol_ok h
  exact ((frame_withAx i s).trans (decsym_frame_ok h1)).trans (frame_symbolStored i sym s1)

theorem decodeSymbol_frame_fail {i : Axis} {s t : State} {c : Cause}
    (h : decodeSymbol i s = .fail c t) : DecodeFrame s t := by
  rcases decodeSymbol_fail h with h1 | ⟨_, sym, h1, _⟩
  · exact (frame_withAx i s).trans (decsym_frame_fail h1)
  · exact (frame_withAx i s).trans (decsym_frame_ok h1)

/-- The output counters, which a symbol does not touch. -/
theorem decodeSymbol_nout {i : Axis} {s t : State} (h : decodeSymbol i s = .ok () t) :
    t.blk.nout = s.blk.nout ∧ t.blk.regW = s.blk.regW ∧ t.out = s.out := by
  obtain ⟨sym, s1, h1, _, rfl⟩ := decodeSymbol_ok h
  obtain ⟨_, _, _, r, left, _, rfl⟩ := decsym_ok h1
  exact ⟨rfl, rfl, rfl⟩

/-! ### One triple -/

theorem decodeTriple_ok {s t : State} (h : decodeTriple s = .ok () t) :
    ∃ s1 s2, decodeSymbol .x s = .ok () s1 ∧ decodeSymbol .y s1 = .ok () s2 ∧
      decodeSymbol .z s2 = .ok () t := by
  obtain ⟨⟨⟩, s1, h1, h⟩ := andThen_ok h
  obtain ⟨⟨⟩, s2, h2, h3⟩ := andThen_ok h
  exact ⟨s1, s2, h1, h2, h3⟩

theorem decodeTriple_frame_ok {s t : State} (h : decodeTriple s = .ok () t) :
    DecodeFrame s t ∧ t.blk.nout = s.blk.nout := by
  obtain ⟨s1, s2, h1, h2, h3⟩ := decodeTriple_ok h
  exact ⟨((decodeSymbol_frame_ok h1).trans (decodeSymbol_frame_ok h2)).trans (decodeSymbol_frame_ok h3),
    ((decodeSymbol_nout h3).1.trans (decodeSymbol_nout h2).1).trans (decodeSymbol_nout h1).1⟩

theorem decodeTriple_frame_fail {s t : State} {c : Cause} (h : decodeTriple s = .fail c t) :
    DecodeFrame s t := by
  rcases andThen_fail h with h | ⟨⟨⟩, s1, h1, h⟩
  · exact decodeSymbol_frame_fail h
  · rcases andThen_fail h with h | ⟨⟨⟩, s2, h2, h⟩
    · exact (decodeSymbol_frame_ok h1).trans (decodeSymbol_frame_fail h)
    · exact ((decodeSymbol_frame_ok h1).trans (decodeSymbol_frame_ok h2)).trans (decodeSymbol_frame_fail h)

/-- A pass of the outer loop that does not fail: a triple, `APPLY`, and `EMIT` unless it is saturated. -/
theorem tripleStep_ok {s t : State} (h : tripleStep s = .ok () t) :
    ∃ s1, decodeTriple s = .ok () s1 ∧
      t = if saturated s1.blk.sym then s1.mapBlk Block.applied
        else emitted (s1.mapBlk Block.applied) := by
  obtain ⟨⟨⟩, s1, h1, h⟩ := andThen_ok h
  obtain ⟨sat, s2, h2, h⟩ := andThen_ok h
  cases h2
  refine ⟨s1, h1, ?_⟩
  split at h <;> rename_i hs
  · cases h; simp [hs]
  · cases h; simp [hs, emitted]

theorem tripleStep_fail {s t : State} {c : Cause} (h : tripleStep s = .fail c t) :
    decodeTriple s = .fail c t := by
  rcases andThen_fail h with h | ⟨⟨⟩, s1, h1, h⟩
  · exact h
  · rcases andThen_fail h with h | ⟨sat, s2, h2, h⟩
    · cases h
    · split at h <;> cases h

theorem tripleStep_frame_ok {s t : State} (hlt : s.blk.nout.toNat < s.blk.nreq.toNat)
    (h : tripleStep s = .ok () t) : DecodeFrame s t := by
  obtain ⟨s1, h1, rfl⟩ := tripleStep_ok h
  obtain ⟨f1, e1⟩ := decodeTriple_frame_ok h1
  split
  · exact f1.trans (frame_applied s1)
  · refine (f1.trans (frame_applied s1)).trans (frame_emitted ?_)
    simp only [mapBlk_blk, Block.applied_nout, Block.applied_nreq, e1, f1.nreq]
    exact hlt

/-! ### The loop -/

theorem tripleLoop_frame_ok {k : Nat} {s t : State} (hle : s.blk.nout.toNat ≤ s.blk.nreq.toNat)
    (h : tripleLoop k s = .ok () t) : DecodeFrame s t ∧ t.blk.nout = t.blk.nreq := by
  induction k generalizing s with
  | zero =>
    simp only [tripleLoop] at h
    split at h
    · cases h
    · cases h
      exact ⟨.refl _, BitVec.eq_of_toNat_eq (by omega)⟩
  | succ k ih =>
    simp only [tripleLoop] at h
    split at h
    · rename_i hlt
      obtain ⟨⟨⟩, s1, h1, h2⟩ := andThen_ok h
      have f := tripleStep_frame_ok hlt h1
      have hc := f.count hle
      obtain ⟨f2, e⟩ := ih (s := s1) (by rw [f.nreq]; exact hc.2) h2
      exact ⟨f.trans f2, e⟩
    · cases h
      exact ⟨.refl _, BitVec.eq_of_toNat_eq (by omega)⟩

theorem tripleLoop_frame_fail {k : Nat} {s t : State} {c : Cause}
    (hle : s.blk.nout.toNat ≤ s.blk.nreq.toNat) (h : tripleLoop k s = .fail c t) : DecodeFrame s t := by
  induction k generalizing s with
  | zero =>
    simp only [tripleLoop] at h
    split at h <;> cases h
  | succ k ih =>
    simp only [tripleLoop] at h
    split at h
    · rename_i hlt
      rcases andThen_fail h with h1 | ⟨⟨⟩, s1, h1, h2⟩
      · exact decodeTriple_frame_fail (tripleStep_fail h1)
      · have f := tripleStep_frame_ok hlt h1
        have hc := f.count hle
        exact f.trans (ih (s := s1) (by rw [f.nreq]; exact hc.2) h2)
    · cases h

/-! ### The fuel suffices -/

theorem decsym_bound {s t : State} {x : Int} (h : decsym s = .ok x t) : decodeBound t < decodeBound s := by
  obtain ⟨hm, rfl, hne, r, left, href, rfl⟩ := decsym_ok h
  have hlt := symbolUpdate_lt hm hne
  have h32 := s.blk.rstate.isLt
  have hr := refill_lt (by omega) href
  have hle := refill_length href
  obtain ⟨_, hsame, _⟩ := refill_spec href
  have hu := unreadOf_length s
  have hlen := s.len.isLt
  have hr' : (BitVec.ofNat 32 r).toNat = r := by simp; omega
  have hcur : left.length < (unreadOf s).length →
      ((s.mapBlk (Block.pulledTo r ((unreadOf s).length - left.length))).blk.cur).toNat =
        s.blk.cur.toNat + ((unreadOf s).length - left.length) := by
    intro hl
    exact pulledTo_cursor (Nat.sub_le _ _) (by omega)
  have hrs : ((s.mapBlk (Block.pulledTo r ((unreadOf s).length - left.length))).blk.rstate).toNat = r := hr'
  unfold decodeBound
  rw [hrs]
  simp only [mapBlk_len]
  rcases lt_or_eq_of_le hle with hl | he
  · rw [hcur hl]
    omega
  · have : r = symbolUpdate s.params (modelOf s) s.blk.rstate.toNat (symbolUnder s) := (hsame he).1
    have hc0 : (s.mapBlk (Block.pulledTo r ((unreadOf s).length - left.length))).blk.cur = s.blk.cur := by
      simp [Block.pulledTo, he]
    rw [hc0]
    omega

theorem decodeSymbol_bound {i : Axis} {s t : State} (h : decodeSymbol i s = .ok () t) :
    decodeBound t < decodeBound s := by
  obtain ⟨sym, s1, h1, _, rfl⟩ := decodeSymbol_ok h
  exact (decsym_bound h1 : decodeBound s1 < decodeBound (s.mapBlk (Block.withAx i)))

theorem tripleStep_bound {s t : State} (h : tripleStep s = .ok () t) : decodeBound t < decodeBound s := by
  obtain ⟨s1, h1, rfl⟩ := tripleStep_ok h
  obtain ⟨a, b, ha, hb, hc⟩ := decodeTriple_ok h1
  have h := (decodeSymbol_bound hc).trans ((decodeSymbol_bound hb).trans (decodeSymbol_bound ha))
  split <;> exact h

theorem decodeSymbol_no_fault {i : Axis} {s : State} (hm : s.blk.mi.toNat < 16) (f : Fault) :
    decodeSymbol i s ≠ .fault f :=
  fun h => decsym_no_fault (s := s.mapBlk (Block.withAx i)) hm f (decodeSymbol_fault h)

theorem tripleStep_no_fault {s : State} (hm : s.blk.mi.toNat < 16) (f : Fault) :
    tripleStep s ≠ .fault f := by
  intro h
  rcases andThen_fault h with h | ⟨⟨⟩, s1, h1, h⟩
  · rcases andThen_fault h with h | ⟨⟨⟩, a, ha, h⟩
    · exact decodeSymbol_no_fault hm f h
    · have fa := decodeSymbol_frame_ok ha
      rcases andThen_fault h with h | ⟨⟨⟩, b, hb, h⟩
      · exact decodeSymbol_no_fault (by rw [fa.mi]; exact hm) f h
      · have fb := fa.trans (decodeSymbol_frame_ok hb)
        exact decodeSymbol_no_fault (by rw [fb.mi]; exact hm) f h
  · rcases andThen_fault h with h | ⟨sat, s2, h2, h⟩
    · cases h
    · split at h <;> cases h

/-- With fuel above `decodeBound` the loop ends (R97). -/
theorem tripleLoop_no_fault {k : Nat} {s : State} (hm : s.blk.mi.toNat < 16) (hk : decodeBound s < k)
    (f : Fault) : tripleLoop k s ≠ .fault f := by
  induction k generalizing s with
  | zero => omega
  | succ k ih =>
    intro h
    simp only [tripleLoop] at h
    split at h
    · rename_i hlt
      rcases andThen_fault h with h | ⟨⟨⟩, s1, h1, h⟩
      · exact tripleStep_no_fault hm f h
      · have fr := tripleStep_frame_ok hlt h1
        have hb := tripleStep_bound h1
        exact ih (s := s1) (by rw [fr.mi]; exact hm) (by omega) h
    · cases h

/-! ### Header and command -/

/-- What `HDR` does (R113). -/
theorem hdr_eq (s : State) :
    hdr s =
      if s.len.toNat < 6 then .fail .truncHdr s
      else
        if 16 ≤ (headerModel (inByte s 1)).toNat then
          .fail .badModel (s.mapBlk (Block.loaded (inByte s 0) (headerChecksum (inByte s 1))
            (headerModel (inByte s 1)) (headerSeed s)))
        else
          .ok () (s.mapBlk (Block.loaded (inByte s 0) (headerChecksum (inByte s 1))
            (headerModel (inByte s 1)) (headerSeed s))) := rfl

theorem hdr_ok {s t : State} (h : hdr s = .ok () t) :
    6 ≤ s.len.toNat ∧ (headerModel (inByte s 1)).toNat < 16 ∧
      t = s.mapBlk (Block.loaded (inByte s 0) (headerChecksum (inByte s 1))
        (headerModel (inByte s 1)) (headerSeed s)) := by
  rw [hdr_eq] at h
  split at h
  · cases h
  · split at h
    · cases h
    · cases h
      exact ⟨by omega, by omega, rfl⟩

theorem hdr_fail {s t : State} {c : Cause} (h : hdr s = .fail c t) :
    (c = .truncHdr ∧ s.len.toNat < 6 ∧ t = s) ∨
      (c = .badModel ∧ 6 ≤ s.len.toNat ∧ 16 ≤ (headerModel (inByte s 1)).toNat ∧
        t = s.mapBlk (Block.loaded (inByte s 0) (headerChecksum (inByte s 1))
          (headerModel (inByte s 1)) (headerSeed s))) := by
  rw [hdr_eq] at h
  split at h
  · cases h
    exact .inl ⟨rfl, by omega, rfl⟩
  · split at h
    · cases h
      exact .inr ⟨rfl, by omega, by omega, rfl⟩
    · cases h

theorem hdr_no_fault (s : State) (f : Fault) : hdr s ≠ .fault f := by
  intro h
  rw [hdr_eq] at h
  split at h
  · cases h
  · split at h <;> cases h

theorem verify_ok {s t : State} (h : verify s = .ok () t) : checksumMatches s.blk = true ∧ t = s := by
  unfold verify at h
  split at h
  · cases h
    exact ⟨by assumption, rfl⟩
  · cases h

theorem verify_fail {s t : State} {c : Cause} (h : verify s = .fail c t) :
    c = .checksum ∧ checksumMatches s.blk = false ∧ t = s := by
  unfold verify at h
  split at h
  · cases h
  · rename_i hc
    cases h
    exact ⟨rfl, by simpa using hc, rfl⟩

/-- A `DECBLK` that succeeds: the header, the loop, the check, the commit (R112, R117). -/
theorem decblk_ok {n : BitVec 16} {s t : State} (h : decblk n s = .ok () t) :
    ∃ s1 s2, hdr (s.mapBlk (Block.begun n)) = .ok () s1 ∧
      allTriples s1 = .ok () s2 ∧ checksumMatches s2.blk = true ∧
      t = s2.mapBlk Block.committed := by
  obtain ⟨⟨⟩, s1, h1, h⟩ := andThen_ok h
  obtain ⟨⟨⟩, s2, h2, h⟩ := andThen_ok h
  obtain ⟨⟨⟩, s3, h3, h4⟩ := andThen_ok h
  obtain ⟨hc, e⟩ := verify_ok h3
  exact ⟨s1, s2, h1, h2, hc, by rw [e] at h4; exact (Micro.ok.inj h4).2.symm⟩

/-- A `DECBLK` that fails: in the header, in the loop, or at the check. -/
theorem decblk_fail {n : BitVec 16} {s t : State} {c : Cause} (h : decblk n s = .fail c t) :
    hdr (s.mapBlk (Block.begun n)) = .fail c t ∨
      ∃ s1, hdr (s.mapBlk (Block.begun n)) = .ok () s1 ∧
        (allTriples s1 = .fail c t ∨
          (allTriples s1 = .ok () t ∧ c = .checksum ∧
            checksumMatches t.blk = false)) := by
  rcases andThen_fail h with h | ⟨⟨⟩, s1, h1, h⟩
  · exact .inl h
  · rcases andThen_fail h with h | ⟨⟨⟩, s2, h2, h⟩
    · exact .inr ⟨s1, h1, .inl h⟩
    · rcases andThen_fail h with h | ⟨⟨⟩, s3, h3, h⟩
      · obtain ⟨hc, hm, rfl⟩ := verify_fail h
        exact .inr ⟨s1, h1, .inr ⟨h2, hc, hm⟩⟩
      · cases h

end Sys2Proof.Machine
end

