-- ==== Sys2Proof/Laws/Blocks.lean ====
section
/-! SUPPORT. The sequencer against `decodesSymbols`: what a symbol, a triple and the whole loop of `DECBLK` do, in
both directions. A proof about `DECBLK` cites `tripleLoop_decoded`, `tripleLoop_of_bytes` and `decblk_of`. -/

namespace Sys2Proof.Machine

/-! ### Chains, forwards

These are not `rfl` lemmas, so that the kernel never compares two chains by running them. -/

@[simp] theorem ok_andThen {α β : Type} (a : α) (s : State) (f : α → State → Micro β) :
    (Micro.ok a s).andThen f = f a s := (rfl)

@[simp] theorem fail_andThen {α β : Type} (c : Cause) (s : State) (f : α → State → Micro β) :
    (Micro.fail c s : Micro α).andThen f = .fail c s := (rfl)

@[simp] theorem fault_andThen {α β : Type} (e : Fault) (f : α → State → Micro β) :
    (Micro.fault e : Micro α).andThen f = .fault e := (rfl)

/-! ### Symbols of bytes -/

theorem decodesSymbols_append {p : Params} {m r1 r2 r3 : Nat} {b1 b2 b3 : List Byte} {xs ys : List Int}
    (h1 : decodesSymbols p m r1 b1 xs r2 b2) (h2 : decodesSymbols p m r2 b2 ys r3 b3) :
    decodesSymbols p m r1 b1 (xs ++ ys) r3 b3 := by
  induction xs generalizing r1 b1 with
  | nil =>
    obtain ⟨rfl, rfl⟩ := h1
    exact h2
  | cons x xs ih =>
    obtain ⟨hi, hne, r, b, href, h⟩ := h1
    exact ⟨hi, hne, r, b, href, ih h⟩

theorem decodesSymbols_split {p : Params} {m r1 r3 : Nat} {b1 b3 : List Byte} {xs ys : List Int}
    (h : decodesSymbols p m r1 b1 (xs ++ ys) r3 b3) :
    ∃ r2 b2, decodesSymbols p m r1 b1 xs r2 b2 ∧ decodesSymbols p m r2 b2 ys r3 b3 := by
  induction xs generalizing r1 b1 with
  | nil => exact ⟨r1, b1, ⟨rfl, rfl⟩, h⟩
  | cons x xs ih =>
    obtain ⟨hi, hne, r, b, href, h⟩ := h
    obtain ⟨r2, b2, h1, h2⟩ := ih h
    exact ⟨r2, b2, ⟨hi, hne, r, b, href, h1⟩, h2⟩

/-- A decoded symbol lies in `[-127, 128]`. -/
theorem decodesSymbols_range {p : Params} {m r r' : Nat} {b b' : List Byte} {xs : List Int}
    (h : decodesSymbols p m r b xs r' b') : ∀ x ∈ xs, -127 ≤ x ∧ x ≤ 128 := by
  induction xs generalizing r b with
  | nil => simp
  | cons x xs ih =>
    obtain ⟨hi, hne, r, b, href, h⟩ := h
    intro y hy
    rcases List.mem_cons.1 hy with rfl | hy
    · have h1 := hi.1
      have h2 := hi.2.1
      omega
    · exact ih h y hy

/-- What `refill` leaves is the end of what it was given. -/
theorem refill_drop {r : Nat} {bytes : List Byte} {r' : Nat} {left : List Byte}
    (h : refill r bytes = some (r', left)) : left = bytes.drop (bytes.length - left.length) := by
  induction bytes generalizing r with
  | nil =>
    simp only [refill] at h
    split at h <;> cases h
    rfl
  | cons b rest ih =>
    simp only [refill] at h
    split at h
    · cases h
      simp
    · have hl := refill_length h
      rw [List.length_cons, show rest.length + 1 - left.length = (rest.length - left.length) + 1 by omega,
        List.drop_succ_cons]
      exact ih h

theorem unreadOf_pulledTo {s : State} {r k : Nat} (hc : s.blk.cur.toNat ≤ s.len.toNat)
    (hk : k ≤ (unreadOf s).length) :
    unreadOf (s.mapBlk (Block.pulledTo r k)) = (unreadOf s).drop k := by
  have h := pulledTo_cursor (r := r) hk hc
  unfold unreadOf at *
  rw [h, List.drop_drop]
  rfl

/-! ### One symbol -/

/-- From `s` to `t` the symbol `x` was decoded, counted and stored on axis `i` (R112). -/
structure SymbolDecoded (i : Axis) (x : Int) (s t : State) : Prop where
  frame : DecodeFrame s t
  nout : t.blk.nout = s.blk.nout
  regW : t.blk.regW = s.blk.regW
  out : t.out = s.out
  ovf : t.blk.ovf = s.blk.ovf
  ck : t.blk.ck = checksumAdd s.blk.ck x
  sym : t.blk.sym = setAxis s.blk.sym i (storedSymbol s.params.sym128 x)
  bytes : decodesSymbols s.params s.blk.mi.toNat s.blk.rstate.toNat (unreadOf s) [x]
    t.blk.rstate.toNat (unreadOf t)
  accepted : symbolRejected s.params.sym128 x = false

theorem decodeSymbol_decoded {i : Axis} {s t : State} (hc : s.blk.cur.toNat ≤ s.len.toNat)
    (h : decodeSymbol i s = .ok () t) : ∃ x, SymbolDecoded i x s t := by
  have f := decodeSymbol_frame_ok h
  obtain ⟨x, s1, h1, hr, rfl⟩ := decodeSymbol_ok h
  obtain ⟨hm, hx, hne, r, left, href, rfl⟩ := decsym_ok h1
  have hu := symbolUnder_interval hm
  rw [← hx] at hu
  have hlt := symbolUpdate_lt hm (hx ▸ hne)
  have hr32 : r < 2 ^ 32 := refill_lt (by rw [← hx] at hlt; exact hlt.trans (BitVec.isLt _)) href
  refine ⟨x, f, rfl, rfl, rfl, rfl, rfl, rfl, ⟨hu, hne, r, left, href, ?_, ?_⟩, hr⟩
  · change r = (BitVec.ofNat 32 r).toNat
    rw [BitVec.toNat_ofNat, Nat.mod_eq_of_lt hr32]
  · have hd := refill_drop href
    change left = unreadOf ((s.mapBlk (Block.withAx i)).mapBlk (Block.pulledTo r _))
    rw [unreadOf_pulledTo (s := s.mapBlk (Block.withAx i)) hc (Nat.sub_le _ _), ← hd]

theorem decodeSymbol_of_bytes {i : Axis} {s : State} {x : Int} {r : Nat} {left : List Byte}
    (hm : s.blk.mi.toNat < 16) (hc : s.blk.cur.toNat ≤ s.len.toNat)
    (h : decodesSymbols s.params s.blk.mi.toNat s.blk.rstate.toNat (unreadOf s) [x] r left)
    (ha : symbolRejected s.params.sym128 x = false) :
    ∃ t, decodeSymbol i s = .ok () t ∧ SymbolDecoded i x s t ∧ t.blk.rstate.toNat = r ∧
      unreadOf t = left := by
  obtain ⟨hi, hne, r1, b1, href, rfl, rfl⟩ := h
  have hx : symbolUnder (s.mapBlk (Block.withAx i)) = x :=
    symbolUnder_eq (s := s.mapBlk (Block.withAx i)) hm hi
  have e := decsym_eq (s.mapBlk (Block.withAx i))
  rw [if_neg (by change ¬ 16 ≤ s.blk.mi.toNat; omega), hx, if_neg hne] at e
  change _ = match refill (symbolUpdate s.params s.blk.mi.toNat s.blk.rstate.toNat x) (unreadOf s) with
      | some (r, left) => _
      | none => _ at e
  rw [href] at e
  simp only at e
  have hok : ∃ t, decodeSymbol i s = .ok () t := by
    unfold decodeSymbol
    rw [e, ok_andThen, if_neg (by change ¬ symbolRejected s.params.sym128 x = true; simp [ha])]
    exact ⟨_, rfl⟩
  obtain ⟨t, ht⟩ := hok
  obtain ⟨y, hy⟩ := decodeSymbol_decoded hc ht
  obtain ⟨hiy, hney, r2, b2, href2, h1, h2⟩ := hy.bytes
  have hyx : y = x := interval_unique s.params hm hiy.1 hiy.2.1 hi.1 hi.2.1 hiy.2.2 hi.2.2
  subst hyx
  rw [href] at href2
  cases href2
  exact ⟨t, ht, hy, h1.symm, h2.symm⟩

/-! ### One triple -/

/-- From `s` to `t` the triple `q` was decoded. -/
structure TripleDecoded (q : Triple Int) (s t : State) : Prop where
  frame : DecodeFrame s t
  nout : t.blk.nout = s.blk.nout
  regW : t.blk.regW = s.blk.regW
  out : t.out = s.out
  ovf : t.blk.ovf = s.blk.ovf
  ck : t.blk.ck = checksumAdd (checksumAdd (checksumAdd s.blk.ck q.x) q.y) q.z
  sym : t.blk.sym = q.map (storedSymbol s.params.sym128)
  bytes : decodesSymbols s.params s.blk.mi.toNat s.blk.rstate.toNat (unreadOf s) [q.x, q.y, q.z]
    t.blk.rstate.toNat (unreadOf t)
  accepted : ∀ x ∈ [q.x, q.y, q.z], symbolRejected s.params.sym128 x = false

theorem tripleDecoded_of_symbols {x y z : Int} {s a b t : State} (h1 : SymbolDecoded .x x s a)
    (h2 : SymbolDecoded .y y a b) (h3 : SymbolDecoded .z z b t) : TripleDecoded ⟨x, y, z⟩ s t := by
  have e1 := h1.frame.params
  have e2 := h2.frame.params.trans e1
  have m1 := h1.frame.mi
  have m2 := h2.frame.mi.trans m1
  refine ⟨(h1.frame.trans h2.frame).trans h3.frame, (h3.nout.trans h2.nout).trans h1.nout,
    (h3.regW.trans h2.regW).trans h1.regW, (h3.out.trans h2.out).trans h1.out,
    (h3.ovf.trans h2.ovf).trans h1.ovf, ?_, ?_, ?_, ?_⟩
  · rw [h3.ck, h2.ck, h1.ck]
  · rw [h3.sym, h2.sym, h1.sym, e1, e2]
    rfl
  · have b2 := h2.bytes
    have b3 := h3.bytes
    rw [e1, m1] at b2
    rw [e2, m2] at b3
    exact decodesSymbols_append (decodesSymbols_append h1.bytes b2) b3
  · have a2 := h2.accepted
    have a3 := h3.accepted
    rw [e1] at a2
    rw [e2] at a3
    simp [h1.accepted, a2, a3]

theorem decodeTriple_decoded {s t : State} (hc : s.blk.cur.toNat ≤ s.len.toNat)
    (h : decodeTriple s = .ok () t) : ∃ q, TripleDecoded q s t := by
  obtain ⟨a, b, ha, hb, ht⟩ := decodeTriple_ok h
  obtain ⟨x, rx⟩ := decodeSymbol_decoded hc ha
  have c1 := rx.frame.cursor hc
  obtain ⟨y, ry⟩ := decodeSymbol_decoded (s := a) (by rw [rx.frame.len]; exact c1.2) hb
  have c2 := (rx.frame.trans ry.frame).cursor hc
  obtain ⟨z, rz⟩ := decodeSymbol_decoded (s := b) (by rw [(rx.frame.trans ry.frame).len]; exact c2.2) ht
  exact ⟨⟨x, y, z⟩, tripleDecoded_of_symbols rx ry rz⟩

theorem decodeTriple_of_bytes {s : State} {q : Triple Int} {r : Nat} {left : List Byte}
    (hm : s.blk.mi.toNat < 16) (hc : s.blk.cur.toNat ≤ s.len.toNat)
    (h : decodesSymbols s.params s.blk.mi.toNat s.blk.rstate.toNat (unreadOf s) [q.x, q.y, q.z] r left)
    (ha : ∀ x ∈ [q.x, q.y, q.z], symbolRejected s.params.sym128 x = false) :
    ∃ t, decodeTriple s = .ok () t ∧ TripleDecoded q s t ∧ t.blk.rstate.toNat = r ∧ unreadOf t = left := by
  obtain ⟨r1, b1, h1, h⟩ := decodesSymbols_split (xs := [q.x]) (ys := [q.y, q.z]) h
  obtain ⟨r2, b2, h2, h3⟩ := decodesSymbols_split (xs := [q.y]) (ys := [q.z]) h
  obtain ⟨a, ha', ra, rfl, rfl⟩ := decodeSymbol_of_bytes (i := .x) hm hc h1 (ha _ (by simp))
  have c1 := ra.frame.cursor hc
  rw [← ra.frame.params, ← ra.frame.mi] at h2
  obtain ⟨b, hb', rb, rfl, rfl⟩ := decodeSymbol_of_bytes (i := .y) (s := a) (by rw [ra.frame.mi]; exact hm)
    (by rw [ra.frame.len]; exact c1.2) h2 (by rw [ra.frame.params]; exact ha _ (by simp))
  have fr := ra.frame.trans rb.frame
  have c2 := fr.cursor hc
  rw [← fr.params, ← fr.mi] at h3
  obtain ⟨t, ht', rt, rfl, rfl⟩ := decodeSymbol_of_bytes (i := .z) (s := b) (by rw [fr.mi]; exact hm)
    (by rw [fr.len]; exact c2.2) h3 (by rw [fr.params]; exact ha _ (by simp))
  refine ⟨t, ?_, tripleDecoded_of_symbols ra rb rt, rfl, rfl⟩
  rw [decodeTriple, ha', ok_andThen, hb', ok_andThen, ht']

/-! ### The integrator on a decoded triple -/

theorem storedSymbol_toInt {mode : Sym128Mode} {x : Int} (h1 : -128 ≤ x) (h2 : x ≤ 128) :
    (storedSymbol mode x).toInt = deltaOf mode x := by
  unfold storedSymbol deltaOf
  split
  · rfl
  · rw [BitVec.toInt_ofInt]
    simp [Int.bmod]
    omega

theorem axisSum_storedSymbol {mode : Sym128Mode} {x : Int} (h1 : -128 ≤ x) (h2 : x ≤ 128) (w : Word)
    (qs : Byte) : axisSum w (storedSymbol mode x) qs = movedSum mode qs.toNat w x := by
  unfold axisSum movedSum
  rw [storedSymbol_toInt h1 h2]
  push_cast
  rfl

theorem overflows_eq_outsideI32 (t : Int) : overflows t = outsideI32 t := by
  unfold overflows outsideI32
  norm_num

theorem isEscape_storedSymbol {mode : Sym128Mode} {x : Int} (h1 : -127 ≤ x) (h2 : x ≤ 128) :
    isEscape (storedSymbol mode x) = decide (x.natAbs = 127) := by
  unfold isEscape
  rw [storedSymbol_toInt (by omega) h2]
  unfold deltaOf
  split
  · rename_i h
    rw [h.1]
    rfl
  · rw [← Bool.decide_or]
    congr 1
    apply propext
    omega

/-- Some axis of the triple overflows (R104). -/
def tripleOverflows (mode : Sym128Mode) (qs : Nat) (w : Triple Word) (q : Triple Int) : Bool :=
  outsideI32 (movedSum mode qs w.x q.x) || outsideI32 (movedSum mode qs w.y q.y) ||
    outsideI32 (movedSum mode qs w.z q.z)

/-- From `s` to `t` the loop ran once, with the triple `q` (R112). -/
structure TripleIntegrated (q : Triple Int) (s t : State) : Prop where
  frame : DecodeFrame s t
  nout : t.blk.nout.toNat = s.blk.nout.toNat + (if escapes q then 0 else 1)
  regW : t.blk.regW = moved s.params.sym128 s.blk.qs.toNat s.blk.regW q
  out : t.out = if escapes q then s.out else insertAt s.blk.nout.toNat t.blk.regW s.out
  ovf : t.blk.ovf = (s.blk.ovf || tripleOverflows s.params.sym128 s.blk.qs.toNat s.blk.regW q)
  ck : t.blk.ck = checksumAdd (checksumAdd (checksumAdd s.blk.ck q.x) q.y) q.z
  bytes : decodesSymbols s.params s.blk.mi.toNat s.blk.rstate.toNat (unreadOf s) [q.x, q.y, q.z]
    t.blk.rstate.toNat (unreadOf t)
  accepted : ∀ x ∈ [q.x, q.y, q.z], symbolRejected s.params.sym128 x = false

theorem tripleIntegrated_of_decoded {q : Triple Int} {s a t : State}
    (hlt : s.blk.nout.toNat < s.blk.nreq.toNat) (ht : tripleStep s = .ok () t)
    (h1 : decodeTriple s = .ok () a) (h : TripleDecoded q s a) : TripleIntegrated q s t := by
  have f := tripleStep_frame_ok hlt ht
  obtain ⟨a', h1', e⟩ := tripleStep_ok ht
  rw [h1] at h1'
  cases h1'
  have hr := decodesSymbols_range h.bytes
  have hx := hr q.x (by simp)
  have hy := hr q.y (by simp)
  have hz := hr q.z (by simp)
  have hsat : saturated a.blk.sym = escapes q := by
    rw [h.sym]
    simp only [saturated, escapes, Triple.map]
    rw [isEscape_storedSymbol hx.1 hx.2, isEscape_storedSymbol hy.1 hy.2, isEscape_storedSymbol hz.1 hz.2]
  rw [hsat] at e
  have hw : integrated a.blk = moved s.params.sym128 s.blk.qs.toNat s.blk.regW q := by
    simp only [integrated, moved, h.sym, Triple.map, h.regW, h.frame.qs]
    rw [axisSum_storedSymbol (by omega) hx.2, axisSum_storedSymbol (by omega) hy.2,
      axisSum_storedSymbol (by omega) hz.2]
  have ho : applyOverflows a.blk = tripleOverflows s.params.sym128 s.blk.qs.toNat s.blk.regW q := by
    simp only [applyOverflows, tripleOverflows, h.sym, Triple.map, h.regW, h.frame.qs,
      overflows_eq_outsideI32]
    rw [axisSum_storedSymbol (by omega) hx.2, axisSum_storedSymbol (by omega) hy.2,
      axisSum_storedSymbol (by omega) hz.2]
  cases hes : escapes q
  · simp only [hes] at e
    subst e
    refine ⟨f, ?_, hw, ?_, ?_, h.ck, h.bytes, h.accepted⟩
    · simp only [hes]
      have hn := nout_counted hlt
      change (a.blk.nout + 1).toNat = _
      rw [h.nout, hn]
      rfl
    · simp only [hes]
      change insertAt a.blk.nout.toNat _ a.out = insertAt s.blk.nout.toNat _ s.out
      rw [h.nout, h.out]
      rfl
    · rw [← ho, ← h.ovf]
      rfl
  · simp only [hes, if_true] at e
    subst e
    refine ⟨f, ?_, hw, ?_, ?_, h.ck, h.bytes, h.accepted⟩
    · simp only [hes, if_true]
      change a.blk.nout.toNat = _
      rw [h.nout]
      rfl
    · simp only [hes, if_true]
      exact h.out
    · rw [← ho, ← h.ovf]
      rfl

theorem tripleStep_integrated {s t : State} (hc : s.blk.cur.toNat ≤ s.len.toNat)
    (hlt : s.blk.nout.toNat < s.blk.nreq.toNat) (h : tripleStep s = .ok () t) :
    ∃ q, TripleIntegrated q s t := by
  obtain ⟨a, ha, _⟩ := tripleStep_ok h
  obtain ⟨q, hq⟩ := decodeTriple_decoded hc ha
  exact ⟨q, tripleIntegrated_of_decoded hlt h ha hq⟩

theorem tripleStep_of_bytes {s : State} {q : Triple Int} {r : Nat} {left : List Byte}
    (hm : s.blk.mi.toNat < 16) (hc : s.blk.cur.toNat ≤ s.len.toNat)
    (hlt : s.blk.nout.toNat < s.blk.nreq.toNat)
    (h : decodesSymbols s.params s.blk.mi.toNat s.blk.rstate.toNat (unreadOf s) [q.x, q.y, q.z] r left)
    (ha : ∀ x ∈ [q.x, q.y, q.z], symbolRejected s.params.sym128 x = false) :
    ∃ t, tripleStep s = .ok () t ∧ TripleIntegrated q s t ∧ t.blk.rstate.toNat = r ∧
      unreadOf t = left := by
  obtain ⟨a, ha', hq, h1, h2⟩ := decodeTriple_of_bytes hm hc h ha
  have hstep : ∃ t, tripleStep s = .ok () t ∧ t.blk.rstate = a.blk.rstate ∧ unreadOf t = unreadOf a := by
    unfold tripleStep
    rw [ha', ok_andThen, applyTriple, ok_andThen]
    cases saturated a.blk.sym
    · exact ⟨_, rfl, rfl, rfl⟩
    · exact ⟨_, rfl, rfl, rfl⟩
  obtain ⟨t, ht, e1, e2⟩ := hstep
  exact ⟨t, ht, tripleIntegrated_of_decoded hlt ht ha' hq, by rw [e1, h1], by rw [e2, h2]⟩

/-! ### The loop -/

/-- How many samples the triples give: one for each that does not escape (R103). -/
def sampleCount (ts : List (Triple Int)) : Nat := (ts.filter fun q => !escapes q).length

theorem sampleCount_cons (q : Triple Int) (ts : List (Triple Int)) :
    sampleCount (q :: ts) = sampleCount ts + (if escapes q then 0 else 1) := by
  cases h : escapes q <;> simp [sampleCount, h]

theorem samplesOf_length (mode : Sym128Mode) (qs : Nat) (w : Triple Word) (ts : List (Triple Int)) :
    (samplesOf mode qs w ts).length = sampleCount ts := by
  induction ts generalizing w with
  | nil => rfl
  | cons q ts ih =>
    rw [sampleCount_cons, samplesOf]
    split
    · exact ih _
    · rw [List.length_cons, ih]

/-- From `s` to `t` the loop of `DECBLK` decoded the triples `ts` (R112). -/
structure TriplesDecoded (ts : List (Triple Int)) (s t : State) : Prop where
  frame : DecodeFrame s t
  nout : t.blk.nout.toNat = s.blk.nout.toNat + sampleCount ts
  regW : t.blk.regW = movedAll s.params.sym128 s.blk.qs.toNat s.blk.regW ts
  ovf : t.blk.ovf = (s.blk.ovf || overflowsAny s.params.sym128 s.blk.qs.toNat s.blk.regW ts)
  ck : t.blk.ck = (symbolsOf ts).foldl checksumAdd s.blk.ck
  slots : ∀ k, outSlot t (s.blk.nout.toNat + k) =
    if k < sampleCount ts then (samplesOf s.params.sym128 s.blk.qs.toNat s.blk.regW ts)[k]?
    else outSlot s (s.blk.nout.toNat + k)
  low : ∀ k, k < s.blk.nout.toNat → outSlot t k = outSlot s k
  bytes : decodesSymbols s.params s.blk.mi.toNat s.blk.rstate.toNat (unreadOf s) (symbolsOf ts)
    t.blk.rstate.toNat (unreadOf t)
  accepted : ∀ x ∈ symbolsOf ts, symbolRejected s.params.sym128 x = false

theorem triplesDecoded_nil (s : State) : TriplesDecoded [] s s :=
  ⟨.refl s, rfl, rfl, by simp [overflowsAny], rfl, by simp [sampleCount], fun _ _ => rfl, ⟨rfl, rfl⟩,
    by simp [symbolsOf]⟩

theorem triplesDecoded_cons {q : Triple Int} {ts : List (Triple Int)} {s a t : State}
    (h1 : TripleIntegrated q s a) (h2 : TriplesDecoded ts a t) : TriplesDecoded (q :: ts) s t := by
  have ep := h1.frame.params
  have em := h1.frame.mi
  have eq := h1.frame.qs
  have hn := h1.nout
  refine ⟨h1.frame.trans h2.frame, ?_, ?_, ?_, ?_, ?_, ?_, ?_, ?_⟩
  · rw [h2.nout, hn, sampleCount_cons]
    omega
  · rw [h2.regW, h1.regW, ep, eq]
    rfl
  · rw [h2.ovf, h1.ovf, h1.regW, ep, eq]
    simp [overflowsAny, tripleOverflows, Bool.or_assoc]
  · rw [h2.ck, h1.ck]
    rfl
  · intro k
    have hlow := h2.low
    have hsl := h2.slots
    have ho := h1.out
    simp only [samplesOf, ← h1.regW, sampleCount_cons]
    cases hes : escapes q <;> simp only [hes] at hn ho ⊢
    · simp only [Bool.false_eq_true, if_false] at hn ho ⊢
      cases k with
      | zero =>
        rw [hlow _ (by omega)]
        simp [outSlot, ho]
      | succ k =>
        have h := hsl k
        rw [hn, ep, eq, show s.blk.nout.toNat + 1 + k = s.blk.nout.toNat + (k + 1) by omega] at h
        rw [h]
        simp only [Nat.add_lt_add_iff_right, List.getElem?_cons_succ]
        congr 1
        unfold outSlot
        rw [ho, lookupAt_insertAt_other (by omega)]
    · simp only [if_true] at hn ho ⊢
      have h := hsl k
      rw [hn, ep, eq] at h
      simp only [Nat.add_zero] at h ⊢
      rw [h]
      unfold outSlot
      rw [ho]
  · intro k hk
    rw [h2.low k (by rw [hn]; omega)]
    unfold outSlot
    rw [h1.out]
    split
    · rfl
    · rw [lookupAt_insertAt_other (by omega)]
  · have b2 := h2.bytes
    rw [ep, em] at b2
    exact decodesSymbols_append h1.bytes b2
  · intro x hx
    have a2 := h2.accepted
    rw [ep] at a2
    rcases List.mem_append.1 (show x ∈ [q.x, q.y, q.z] ++ symbolsOf ts from hx) with hx | hx
    · exact h1.accepted x hx
    · exact a2 x hx

/-- What a loop that ends decoded; the last triple does not escape (R123). -/
theorem tripleLoop_decoded {k : Nat} {s t : State} (hc : s.blk.cur.toNat ≤ s.len.toNat)
    (hle : s.blk.nout.toNat ≤ s.blk.nreq.toNat) (h : tripleLoop k s = .ok () t) :
    ∃ ts, TriplesDecoded ts s t ∧ t.blk.nout = s.blk.nreq ∧
      ∀ q, ts.getLast? = some q → escapes q = false := by
  induction k generalizing s with
  | zero =>
    simp only [tripleLoop] at h
    split at h
    · cases h
    · cases h
      exact ⟨[], triplesDecoded_nil _, BitVec.eq_of_toNat_eq (by omega), by simp⟩
  | succ k ih =>
    simp only [tripleLoop] at h
    split at h
    · rename_i hlt
      obtain ⟨⟨⟩, a, h1, h2⟩ := andThen_ok h
      obtain ⟨q, hq⟩ := tripleStep_integrated hc hlt h1
      have hcc := hq.frame.count hle
      obtain ⟨ts, h3, h4, h5⟩ := ih (s := a) (by rw [hq.frame.len]; exact (hq.frame.cursor hc).2)
        (by rw [hq.frame.nreq]; exact hcc.2) h2
      refine ⟨q :: ts, triplesDecoded_cons hq h3, by rw [h4, hq.frame.nreq], ?_⟩
      intro u hu
      cases ts with
      | nil =>
        simp only [List.getLast?_singleton, Option.some.injEq] at hu
        subst hu
        by_contra hes
        have hn := h3.nout
        have hn' := hq.nout
        rw [h4, hq.frame.nreq] at hn
        simp only [sampleCount, List.filter_nil, List.length_nil, Bool.not_eq_false] at hn hes
        rw [hes] at hn'
        simp only [if_true] at hn'
        omega
      | cons v vs =>
        rw [List.getLast?_cons_cons] at hu
        exact h5 u hu
    · cases h
      exact ⟨[], triplesDecoded_nil _, BitVec.eq_of_toNat_eq (by omega), by simp⟩

/-- A loop whose bytes hold the triples ends, and decodes them. -/
theorem tripleLoop_of_bytes {ts : List (Triple Int)} {k : Nat} {s : State} {r : Nat} {left : List Byte}
    (hm : s.blk.mi.toNat < 16) (hk : decodeBound s < k) (hc : s.blk.cur.toNat ≤ s.len.toNat)
    (hn : s.blk.nout.toNat + sampleCount ts = s.blk.nreq.toNat)
    (hl : ∀ q, ts.getLast? = some q → escapes q = false)
    (h : decodesSymbols s.params s.blk.mi.toNat s.blk.rstate.toNat (unreadOf s) (symbolsOf ts) r left)
    (ha : ∀ x ∈ symbolsOf ts, symbolRejected s.params.sym128 x = false) :
    ∃ t, tripleLoop k s = .ok () t ∧ TriplesDecoded ts s t ∧ t.blk.rstate.toNat = r ∧
      unreadOf t = left := by
  induction ts generalizing s k with
  | nil =>
    obtain ⟨rfl, rfl⟩ := h
    obtain ⟨k, rfl⟩ : ∃ j, k = j + 1 := ⟨k - 1, by omega⟩
    refine ⟨s, ?_, triplesDecoded_nil s, rfl, rfl⟩
    simp only [sampleCount, List.filter_nil, List.length_nil, Nat.add_zero] at hn
    simp [tripleLoop, hn]
  | cons q ts ih =>
    obtain ⟨k, rfl⟩ : ∃ j, k = j + 1 := ⟨k - 1, by omega⟩
    have hpos : s.blk.nout.toNat < s.blk.nreq.toNat := by
      have h0 : 0 < sampleCount (q :: ts) := by
        obtain ⟨u, hu⟩ : ∃ u, (q :: ts).getLast? = some u :=
          ⟨_, List.getLast?_eq_some_getLast (by simp)⟩
        unfold sampleCount
        rw [List.length_pos_iff_exists_mem]
        exact ⟨u, List.mem_filter.2 ⟨List.mem_of_getLast? hu, by rw [hl u hu]; rfl⟩⟩
      omega
    rw [show symbolsOf (q :: ts) = [q.x, q.y, q.z] ++ symbolsOf ts from rfl] at h ha
    obtain ⟨r1, b1, h1, h2⟩ := decodesSymbols_split h
    obtain ⟨a, ha', rel, rfl, rfl⟩ := tripleStep_of_bytes hm hc hpos h1
      fun x hx => ha x (List.mem_append_left _ hx)
    rw [← rel.frame.params, ← rel.frame.mi] at h2
    have hcc := rel.frame.cursor hc
    have hb := tripleStep_bound ha'
    obtain ⟨t, ht, rel2, e1, e2⟩ := ih (k := k) (s := a) (by rw [rel.frame.mi]; exact hm) (by omega)
      (by rw [rel.frame.len]; exact hcc.2)
      (by rw [rel.nout, rel.frame.nreq, ← hn, sampleCount_cons]; omega)
      (by
        intro u hu
        apply hl
        cases ts with
        | nil => simp at hu
        | cons v vs => rw [List.getLast?_cons_cons]; exact hu)
      h2 (by rw [rel.frame.params]; exact fun x hx => ha x (List.mem_append_right _ hx))
    refine ⟨t, ?_, triplesDecoded_cons rel rel2, e1, e2⟩
    rw [tripleLoop, if_pos hpos, ha', ok_andThen, ht]

/-! ### The header and the command, forwards -/

theorem headerModel_toNat (b : Byte) : (headerModel b).toNat = b.toNat % 32 := by
  simp [headerModel]

theorem headerChecksum_toNat (b : Byte) : (headerChecksum b).toNat = b.toNat / 32 := by
  have := b.isLt
  simp only [headerChecksum, BitVec.extractLsb'_toNat, Nat.shiftRight_eq_div_pow]
  omega

/-- A slice of 6 bytes or more is its header and its payload (R61). -/
theorem sliceOf_header {s : State} (h : 6 ≤ s.len.toNat) :
    sliceOf s = inByte s 0 :: inByte s 1 :: inByte s 2 :: inByte s 3 :: inByte s 4 :: inByte s 5 ::
      (sliceOf s).drop 6 := by
  have g (k : Nat) (hk : k < s.len.toNat) : (sliceOf s)[k]? = some (inByte s k) :=
    Memory.readBytes_getElem? _ _ _ _ hk
  have g0 := g 0 (by omega)
  have g1 := g 1 (by omega)
  have g2 := g 2 (by omega)
  have g3 := g 3 (by omega)
  have g4 := g 4 (by omega)
  have g5 := g 5 (by omega)
  match sliceOf s, g0, g1, g2, g3, g4, g5 with
  | a :: b :: c :: d :: e :: f :: rest, g0, g1, g2, g3, g4, g5 =>
    simp at g0 g1 g2 g3 g4 g5
    simp [g0, g1, g2, g3, g4, g5]

theorem sliceOf_length (s : State) : (sliceOf s).length = s.len.toNat := by
  simp [sliceOf]

theorem checksumMatches_iff (b : Block) :
    checksumMatches b = true ↔ b.ck.toNat % 8 = b.hck.toNat := by
  unfold checksumMatches
  rw [decide_eq_true_eq, ← BitVec.toNat_inj]
  simp

theorem checksumAdd_toNat (ck : BitVec 8) (x : Int) :
    ((checksumAdd ck x).toNat : Int) = ((ck.toNat : Int) + x) % 256 := by
  unfold checksumAdd
  rw [BitVec.toNat_ofInt]
  omega

/-- `DECBLK` from its three parts (R112). -/
theorem decblk_of {n : BitVec 16} {s a t : State} (ha : hdr (s.mapBlk (Block.begun n)) = .ok () a)
    (ht : allTriples a = .ok () t) (hc : checksumMatches t.blk = true) :
    decblk n s = .ok () (t.mapBlk Block.committed) := by
  unfold decblk
  rw [ha, ok_andThen, ht, ok_andThen, verify, if_pos hc, ok_andThen]

/-- `DECBLK` never stops the model: the fuel of its loop suffices (R97, R183). -/
theorem decblk_no_fault (n : BitVec 16) (s : State) (f : Fault) : decblk n s ≠ .fault f := by
  intro h
  rcases andThen_fault h with h | ⟨⟨⟩, a, ha, h⟩
  · exact hdr_no_fault _ f h
  · obtain ⟨_, hm, e⟩ := hdr_ok ha
    have hmi : a.blk.mi.toNat < 16 := by rw [e]; exact hm
    rcases andThen_fault h with h | ⟨⟨⟩, b, hb, h⟩
    · unfold allTriples at h
      exact tripleLoop_no_fault hmi (Nat.lt_succ_self (decodeBound a)) f h
    · rcases andThen_fault h with h | ⟨⟨⟩, c, hc, h⟩
      · unfold verify at h
        split at h <;> cases h
      · cases h

end Sys2Proof.Machine
end

