-- ==== Sys2Proof/Laws/Fetch.lean ====
section
/-! SUPPORT. Fetching: what the decoder accepts is of the format asked for and lies in its bytes; the bytes a fetch
looks at suffice. -/

namespace Sys2Proof

/-- An accepted micro-operation with operands. -/
theorem decodeTableOperands_ok {bytes : List Byte} {mx : BitVec 4 × Word}
    (h : decodeTableOperands bytes = .ok mx) : 5 ≤ bytes.length := by
  unfold decodeTableOperands at h
  split at h
  · simp
  · cases h

theorem decodeSymbolOperand_ok {bytes : List Byte} {sym : BitVec 9}
    (h : decodeSymbolOperand bytes = .ok sym) : 2 ≤ bytes.length ∧ symbolInRange sym = true := by
  unfold decodeSymbolOperand at h
  split at h
  · split at h
    · rename_i hc
      cases h
      simp only [Bool.and_eq_true] at hc
      exact ⟨by simp, hc.2⟩
    · cases h
  · cases h

theorem decodeUop_ok {bytes : List Byte} {i : Instr} {n : Nat} (h : decodeUop bytes = .ok (i, n)) :
    0 < n ∧ n ≤ bytes.length ∧ n ≤ Config.maxInstrLen ∧ i.format = .uop := by
  have key {α : Type} {r : Except DecodeError α} {f : α → Instr × Nat} (hr : r.map f = .ok (i, n)) :
      ∃ a, r = .ok a ∧ f a = (i, n) := by
    cases r with
    | error e => cases hr
    | ok a =>
      exact ⟨a, rfl, Except.ok.inj hr⟩
  have hmax : Config.maxInstrLen = 1531 := rfl
  match bytes with
  | [] => cases h
  | code :: rest =>
    simp only [decodeUop] at h
    split at h
    case h_2 =>
      obtain ⟨a, ha, he⟩ := key h
      cases he
      have := decodeTableOperands_ok ha
      exact ⟨by omega, by simp; omega, by omega, rfl⟩
    case h_3 =>
      obtain ⟨a, ha, he⟩ := key h
      cases he
      have := decodeTableOperands_ok ha
      exact ⟨by omega, by simp; omega, by omega, rfl⟩
    case h_6 =>
      obtain ⟨a, ha, he⟩ := key h
      cases he
      have := (decodeSymbolOperand_ok ha).1
      exact ⟨by omega, by simp; omega, by omega, rfl⟩
    all_goals
      cases h
      try exact ⟨by omega, by simp, by omega, rfl⟩

theorem decodeRecord_ok {count : Nat} {bytes : List Byte} {i : Instr} {n : Nat} (hc : count ≤ 255)
    (h : decodeRecord count bytes = .ok (i, n)) :
    0 < n ∧ n ≤ bytes.length ∧ n ≤ Config.maxInstrLen ∧ i.format = .record := by
  have hmax : Config.maxInstrLen = 1531 := rfl
  match bytes with
  | [] => cases h
  | tag :: rest =>
    simp only [decodeRecord] at h
    split at h
    case h_5 =>
      split at h
      · rename_i hts
        cases h
        have := (decodeTriples_some hts).2.1
        exact ⟨by omega, by simp; omega, by omega, rfl⟩
      · cases h
    case h_3 =>
      cases h
      exact ⟨by omega, by simp, by omega, rfl⟩
    case h_8 =>
      cases h
      exact ⟨by omega, by simp, by omega, rfl⟩
    all_goals
      split at h
      · cases h
        exact ⟨by omega, by simp, by omega, rfl⟩
      · cases h

/-- A command, a trace entry, a record or a header that is accepted is of its format, is not empty, and lies in
the bytes. -/
theorem decode_ok {f : Format} {count : Nat} {bytes : List Byte} {i : Instr} {n : Nat} (hc : count ≤ 255)
    (h : decode f count bytes = .ok (i, n)) :
    0 < n ∧ n ≤ bytes.length ∧ n ≤ Config.maxInstrLen ∧ i.format = f := by
  have hmax : Config.maxInstrLen = 1531 := rfl
  cases f with
  | cmd =>
    simp only [decode, decodeCmdBytes] at h
    split at h
    · split at h
      · cases h
        refine ⟨by omega, by simp, by omega, ?_⟩
        unfold decodeCmd
        split <;> rfl
      · cases h
    · cases h
  | uop => exact decodeUop_ok h
  | record => exact decodeRecord_ok hc h
  | block =>
    simp only [decode, decodeBlock] at h
    split at h
    · cases h
      exact ⟨by omega, by simp, by omega, rfl⟩
    · cases h

/-- Bytes beyond the longest record do not change how a record is read. -/
theorem decodeRecord_take {count k : Nat} {bytes : List Byte} (hc : count ≤ 255)
    (hk : Config.maxInstrLen ≤ k) : decodeRecord count (bytes.take k) = decodeRecord count bytes := by
  obtain ⟨k, rfl⟩ : ∃ j, k = j + 1531 := ⟨k - 1531, (Nat.sub_add_cancel hk).symm⟩
  match bytes with
  | [] => rfl
  | tag :: rest =>
    rw [List.take_succ_cons]
    simp only [decodeRecord]
    rw [decodeTriples_take (by omega)]
    have h3 : ∀ l : List Byte, l.take (k + 1530) = l ∨ ∃ a b c d r, l = a :: b :: c :: d :: r := by
      intro l
      match l with
      | [] | [_] | [_, _] | [_, _, _] => exact .inl (by simp)
      | a :: b :: c :: d :: r => exact .inr ⟨a, b, c, d, r, rfl⟩
    rcases h3 rest with e | ⟨a, b, c, d, r, rfl⟩
    · rw [e]
    · rfl

namespace Machine

theorem Memory.readBytes_take (m : Memory) (a n k : Nat) :
    (m.readBytes a n).take k = m.readBytes a (min k n) := by
  induction n generalizing a k with
  | zero => simp [Memory.readBytes]
  | succ n ih =>
    cases k with
    | zero => simp [Memory.readBytes]
    | succ k =>
      rw [Memory.readBytes, List.take_succ_cons, ih,
        show min (k + 1) (n + 1) = min k n + 1 by omega, Memory.readBytes]

/-- A record is read alike from the fetched window and from the whole rest of the stream. -/
theorem decode_streamWindow (s : State) :
    decode .record s.host.accCount.toNat (streamWindow s) =
      decode .record s.host.accCount.toNat (s.mem.readBytes s.host.pos (streamLeft s)) := by
  have h := s.host.accCount.isLt
  unfold streamWindow
  rw [← Memory.readBytes_take]
  exact decodeRecord_take (by omega) le_rfl

/-- A header is read alike from its six bytes and from the whole slice. -/
theorem decode_sliceBytes (s : State) :
    decode .block 0 (sliceBytes s Config.hdrLen) = decode .block 0 (sliceOf s) := by
  unfold sliceBytes sliceOf
  rw [← Memory.readBytes_take]
  simp only [decode]
  match s.mem.readBytes s.inBase s.len.toNat with
  | [] | [_] | [_, _] | [_, _, _] | [_, _, _, _] | [_, _, _, _, _] => rfl
  | a :: b :: c :: d :: e :: f :: rest => simp [decodeBlock]

end Machine

end Sys2Proof
end

