-- ==== Sys2Proof/Laws/PerInstr.lean ====
section
/-! SUPPORT. The family `EncodingFits`: the encoding of a well-formed instruction is not empty and no longer than
the longest record, so that a fetch of that many bytes always holds it. One lemma for each constructor. -/

namespace Sys2Proof.Laws.EncodingFits

/-- The encoding of a well-formed instruction has 1 to 1531 bytes. -/
def Statement (i : Instr) : Prop :=
  i.wellFormed = true → 0 < (encode i).length ∧ (encode i).length ≤ Config.maxInstrLen

theorem nop (n : BitVec 16) : Statement (.nop n) := by simp [Statement, encode, Config.maxInstrLen, cmdBytes]

theorem clr (n : BitVec 16) : Statement (.clr n) := by simp [Statement, encode, Config.maxInstrLen, cmdBytes]

theorem decblk (n : BitVec 16) : Statement (.decblk n) := by simp [Statement, encode, Config.maxInstrLen, cmdBytes]

theorem reservedCmd (n : BitVec 16) : Statement (.reservedCmd n) := by simp [Statement, encode, Config.maxInstrLen, cmdBytes]

theorem hdr : Statement .hdr := by simp [Statement, encode, Config.maxInstrLen]

theorem cdf (m : BitVec 4) (x : Word) : Statement (.cdf m x) := by simp [Statement, encode, Config.maxInstrLen, le32Bytes]

theorem icdf (m : BitVec 4) (y : Word) : Statement (.icdf m y) := by simp [Statement, encode, Config.maxInstrLen, le32Bytes]

theorem decsym : Statement .decsym := by simp [Statement, encode, Config.maxInstrLen]

theorem renorm : Statement .renorm := by simp [Statement, encode, Config.maxInstrLen]

theorem ckadd (sym : BitVec 9) : Statement (.ckadd sym) := by simp [Statement, encode, Config.maxInstrLen]

theorem apply : Statement .apply := by simp [Statement, encode, Config.maxInstrLen]

theorem emit : Statement .emit := by simp [Statement, encode, Config.maxInstrLen]

theorem verify : Statement .verify := by simp [Statement, encode, Config.maxInstrLen]

theorem setup (revision : Byte) (capacity : BitVec 16) : Statement (.setup revision capacity) := by
  simp [Statement, encode, Config.maxInstrLen, le16Bytes]

theorem dt (dtUs : Word) : Statement (.dt dtUs) := by simp [Statement, encode, Config.maxInstrLen, le32Bytes]

theorem gyro : Statement .gyro := by simp [Statement, encode, Config.maxInstrLen]

theorem accsetup (count rangeExp : Byte) : Statement (.accsetup count rangeExp) := by
  simp [Statement, encode, Config.maxInstrLen]

theorem acc (triples : List (Triple (BitVec 16))) : Statement (.acc triples) := by
  intro h
  simp only [Instr.wellFormed, accCountFits, decide_eq_true_eq] at h
  simp only [encode, List.length_cons, tripleBytes_length, Config.maxInstrLen]
  omega

theorem toff (offset : Word) : Statement (.toff offset) := by simp [Statement, encode, Config.maxInstrLen, le32Bytes]

theorem orient (axes : Triple Byte) : Statement (.orient axes) := by simp [Statement, encode, Config.maxInstrLen]

theorem endTag (tag : Byte) : Statement (.endTag tag) := by simp [Statement, encode, Config.maxInstrLen]

theorem blk (quantShift : Byte) (checksum : BitVec 3) (modelIndex : BitVec 5) (seed : Word) :
    Statement (.blk quantShift checksum modelIndex seed) := by
  simp [Statement, encode, Config.maxInstrLen, le32Bytes]

end Sys2Proof.Laws.EncodingFits
end

