-- ==== Sys2Proof/Laws/Records.lean ====
section
/-! SUPPORT. The lists a record appends, element by element; the resized scratch buffer; the samples a `GYRO`
record takes; the slice it lends. -/

namespace Sys2Proof.Machine

/-! ### Flushes (R134, R135) -/

@[simp] theorem flushGyro_length (clock : Int) (dtUs n free k : Nat) (l : List (Triple Word)) :
    (flushGyro clock dtUs n free k l).length = l.length := by
  induction l generalizing k with
  | nil => rfl
  | cons a l ih => simp [flushGyro, ih]

@[simp] theorem flushAcc_length (clock : Int) (dtUs n k : Nat) (l : List (Triple Int)) :
    (flushAcc clock dtUs n k l).length = l.length := by
  induction l generalizing k with
  | nil => rfl
  | cons a l ih => simp [flushAcc, ih]

theorem flushGyro_getElem? (clock : Int) (dtUs n free k j : Nat) {l : List (Triple Word)}
    {raw : Triple Word} (h : l[j]? = some raw) :
    (flushGyro clock dtUs n free k l)[j]? = some
      ⟨timestamp clock dtUs n (k + j),
        ⟨gyroScalar dtUs n (free + 3 * (k + j)) raw.x, gyroScalar dtUs n (free + 3 * (k + j) + 1) raw.y,
          gyroScalar dtUs n (free + 3 * (k + j) + 2) raw.z⟩⟩ := by
  induction l generalizing k j with
  | nil => simp at h
  | cons a l ih =>
    cases j with
    | zero =>
      simp only [List.getElem?_cons_zero, Option.some.injEq] at h
      subst h
      rfl
    | succ j =>
      rw [List.getElem?_cons_succ] at h
      rw [flushGyro, List.getElem?_cons_succ, ih (k + 1) j h, show k + 1 + j = k + (j + 1) by omega]

theorem flushAcc_getElem? (clock : Int) (dtUs n k j : Nat) {l : List (Triple Int)} {raw : Triple Int}
    (h : l[j]? = some raw) :
    (flushAcc clock dtUs n k l)[j]? = some ⟨timestamp clock dtUs n (k + j), raw.map accScalar⟩ := by
  induction l generalizing k j with
  | nil => simp at h
  | cons a l ih =>
    cases j with
    | zero =>
      simp only [List.getElem?_cons_zero, Option.some.injEq] at h
      subst h
      rfl
    | succ j =>
      rw [List.getElem?_cons_succ] at h
      rw [flushAcc, List.getElem?_cons_succ, ih (k + 1) j h, show k + 1 + j = k + (j + 1) by omega]

/-! ### Accelerometer triples (R138) -/

@[simp] theorem negatedTriples_length (free k : Nat) (l : List (Triple (BitVec 16))) :
    (negatedTriples free k l).length = l.length := by
  induction l generalizing k with
  | nil => rfl
  | cons a l ih => simp [negatedTriples, ih]

theorem negatedTriples_getElem? (free k j : Nat) {l : List (Triple (BitVec 16))} {raw : Triple (BitVec 16)}
    (h : l[j]? = some raw) :
    (negatedTriples free k l)[j]? = some
      ⟨negated (free + 3 * (k + j)) raw.x, negated (free + 3 * (k + j) + 1) raw.y,
        negated (free + 3 * (k + j) + 2) raw.z⟩ := by
  induction l generalizing k j with
  | nil => simp at h
  | cons a l ih =>
    cases j with
    | zero =>
      simp only [List.getElem?_cons_zero, Option.some.injEq] at h
      subst h
      rfl
    | succ j =>
      rw [List.getElem?_cons_succ] at h
      rw [negatedTriples, List.getElem?_cons_succ, ih (k + 1) j h, show k + 1 + j = k + (j + 1) by omega]

theorem negated_of_ne {raw : BitVec 16} (h : raw.toInt ≠ -32768) (free : Nat) :
    negated free raw = -raw.toInt := by
  simp [negated, h]

/-! ### The scratch buffer (R133) -/

/-- Slots below the capacity stay, the others are gone. -/
theorem lookupAt_resized (capacity : BitVec 16) (o : OutBuffer) (k : Nat) :
    lookupAt k (resized capacity o) = if k < capacity.toNat then lookupAt k o else none := by
  unfold resized
  induction o with
  | nil => simp [lookupAt]
  | cons slot o ih =>
    obtain ⟨a, v⟩ := slot
    by_cases h : a < capacity.toNat
    · simp only [List.filter_cons, h, decide_true, if_true, lookupAt, ih]
      split
      · subst_vars
        simp [h]
      · rfl
    · simp only [List.filter_cons, h, decide_false, lookupAt, Bool.false_eq_true, if_false, ih]
      split
      · rw [if_neg (by omega)]
      · rfl

/-! ### GYRO (R136) -/

/-- The slice lent to a `GYRO` record is the stream from the cursor on. -/
theorem sliceOf_lendRemainder (s : State) : sliceOf (lendRemainder s) = streamRest s := by
  have : Config.lenMax = 4294967295 := rfl
  unfold sliceOf streamRest lendRemainder
  simp only [BitVec.toNat_ofNat]
  congr 1
  omega

/-- A whole list is read back from its indices. -/
theorem filterMap_getElem?_range {α : Type} (l : List α) :
    (List.range l.length).filterMap (fun k => l[k]?) = l := by
  induction l using List.reverseRecOn with
  | nil => rfl
  | append_singleton l a ih =>
    rw [List.length_append, List.length_singleton, List.range_succ, List.filterMap_append]
    have e : (List.range l.length).filterMap (fun k => (l ++ [a])[k]?) =
        (List.range l.length).filterMap (fun k => l[k]?) := by
      apply List.filterMap_congr
      intro j hj
      rw [List.getElem?_append_left (List.mem_range.1 hj)]
    rw [e, ih]
    simp

/-- The samples of a command whose slots hold the list `l`. -/
theorem producedSamples_eq {s : State} {l : List (Triple Word)} (hn : s.blk.resSamples.toNat = l.length)
    (h : ∀ k, k < l.length → outSlot s k = l[k]?) : producedSamples s = l := by
  unfold producedSamples
  rw [hn, List.filterMap_congr fun k hk => h k (List.mem_range.1 hk)]
  exact filterMap_getElem?_range l

end Sys2Proof.Machine
end

