-- ==== Sys2Proof/Tests/Slice0.lean ====
section
/-! SUPPORT. Tests on vectors of spec/95_test_vectors.md (each names its vector; bytes under the fixture `FX`), and
for every statement with hypotheses a concrete state and operands that meet them all. -/

-- One thread: each kernel evaluation would otherwise hold a stack of its own.
set_option Elab.async false

namespace Sys2Proof.Tests

open Sys2Proof.Machine

/-! ## Small states -/

/-- The machine after reset with the fixture's tables. -/
def fixtureState : State := { State.reset with params := fixtureParams .fault }

/-- A slice of these bytes is lent. -/
def sliceState (bytes : List Byte) : State :=
  { fixtureState with mem := Memory.writeBytes [] 0 bytes, len := BitVec.ofNat 32 bytes.length }

/-- The range decoder of section 5 before a `DECSYM`. -/
def decoderState (m : Nat) (r cur : Nat) (bytes : List Byte) : State :=
  { sliceState bytes with
    blk := { Block.reset with mi := BitVec.ofNat 5 m, rstate := BitVec.ofNat 32 r, cur := BitVec.ofNat 32 cur } }

/-- A triple of numbers as words. -/
def words (x y z : Int) : Triple Word := ⟨BitVec.ofInt 32 x, BitVec.ofInt 32 y, BitVec.ofInt 32 z⟩

/-- The integrator of section 6 before an `APPLY`. -/
def laneState (w : Triple Word) (x y z : Int) (q : Nat) : State :=
  { fixtureState with
    blk := { Block.reset with
      regW := w, qs := BitVec.ofNat 8 q, sym := ⟨BitVec.ofInt 9 x, BitVec.ofInt 9 y, BitVec.ofInt 9 z⟩ } }

/-- The host in its dispatch loop, the stream's unread bytes at address 0. -/
def streamState (bytes : List Byte) : State :=
  { fixtureState with
    mem := Memory.writeBytes [] 0 bytes
    host := { Container.reset with streamLen := bytes.length, phase := .records }
    request := .stream }

/-- The block of program P1. -/
def p1Bytes : List Byte := [0x00, 0x40, 0x6F, 0xEC, 0x81, 0x05, 0x55, 0x31]

/-- `S` before the failures of section 7.4. -/
def committed789 (s : State) : State := { s with blk := { s.blk with regS := words 7 8 9 } }

/-- A state of section 7.6. -/
def failedBefore : State :=
  { fixtureState with
    blk := { Block.reset with regS := words 1 2 (-1), ovf := true, status := .err, cause := .checksum } }

/-- The other state of section 7.6. -/
def doneBefore : State :=
  { fixtureState with
    blk := { Block.reset with regS := words 1 2 (-1), status := .done, resBytes := 8, resSamples := 2 } }

/-- The step answers a next state that passes the test. -/
def nextIs (o : Host.Outcome State Fault Refusal) (p : State → Bool) : Bool :=
  match o with
  | .next s => p s
  | .fault _ => false
  | .refused _ => false

theorem exists_of_nextIs {o : Host.Outcome State Fault Refusal} {p : State → Bool} (h : nextIs o p = true) :
    ∃ t, o = .next t ∧ p t = true := by
  cases o with
  | next s => exact ⟨s, rfl, h⟩
  | fault f => cases h
  | refused r => cases h

/-- Status and cause. -/
def ended (st : Status) (c : Cause) (t : State) : Bool :=
  decide (t.blk.status = st) && decide (t.blk.cause = c)

/-! ## WellFormed: an ill-formed term for each check -/

theorem smoke_ckadd_symbol_range : (Instr.ckadd (BitVec.ofInt 9 (-128))).wellFormed = false := by decide

theorem smoke_acc_count : (Instr.acc (List.replicate 256 ⟨0, 0, 0⟩)).wellFormed = false := by decide +kernel

theorem smoke_end_tag : (Instr.endTag 0x07).wellFormed = false ∧ (Instr.endTag 0x01).wellFormed = false := by decide

/-! ## Decoding: words written out from the spec's encodings -/

/-- Section 7.1 and R63: `op` in bits 17 and 16, `n` below. -/
theorem decode_commands :
    decodeCmd 0b000001001000110100#18 = .nop 0x1234 ∧ decodeCmd 0b010000000000000000#18 = .clr 0 ∧
      decodeCmd 0b101111111111111111#18 = .decblk 65535 ∧ decodeCmd 0b110000000000000000#18 = .reservedCmd 0 := by
  decide

/-- R64: the nine codes. -/
theorem decode_micro_operations :
    decode .uop 0 [0x1] = .ok (.hdr, 1) ∧ decode .uop 0 [0x4] = .ok (.decsym, 1) ∧
      decode .uop 0 [0x5] = .ok (.renorm, 1) ∧ decode .uop 0 [0x7] = .ok (.apply, 1) ∧
      decode .uop 0 [0x8] = .ok (.emit, 1) ∧ decode .uop 0 [0x9] = .ok (.verify, 1) ∧
      decode .uop 0 [0x2, 0x0F, 0x80, 0xFF, 0xFF, 0xFF] = .ok (.cdf 15 (BitVec.ofInt 32 (-128)), 6) ∧
      decode .uop 0 [0x3, 0x05, 0x5F, 0x07, 0x00, 0x00] = .ok (.icdf 5 1887, 6) ∧
      decode .uop 0 [0x6, 0x81, 0x01] = .ok (.ckadd (BitVec.ofInt 9 (-127)), 3) := by
  refine ⟨?_, ?_, ?_, ?_, ?_, ?_, ?_, ?_, ?_⟩ <;> rfl

/-- Section 8: the record encodings. -/
theorem decode_records :
    decode .record 0 [0x01, 0x01, 0x04, 0x00] = .ok (.setup 1 4, 4) ∧
      decode .record 0 [0x02, 0x10, 0x27, 0x00, 0x00] = .ok (.dt 10000, 5) ∧
      decode .record 0 [0x03, 0x00] = .ok (.gyro, 1) ∧
      decode .record 0 [0x04, 0x02, 0x01] = .ok (.accsetup 2 1, 3) ∧
      decode .record 2 [0x05, 0x64, 0x00, 0x38, 0xFF, 0x2C, 0x01, 0xFF, 0xFF, 0x02, 0x00, 0xFD, 0xFF] =
        .ok (.acc [⟨100, BitVec.ofInt 16 (-200), 300⟩, ⟨BitVec.ofInt 16 (-1), 2, BitVec.ofInt 16 (-3)⟩], 13) ∧
      decode .record 0 [0x06, 0x24, 0xFA, 0xFF, 0xFF] = .ok (.toff (BitVec.ofInt 32 (-1500)), 5) ∧
      decode .record 0 [0x07, 0x5A, 0x59, 0x78] = .ok (.orient ⟨0x5A, 0x59, 0x78⟩, 4) ∧
      decode .record 0 [0x08] = .ok (.endTag 8, 1) := by
  refine ⟨?_, ?_, ?_, ?_, ?_, ?_, ?_, ?_⟩ <;> rfl

/-- Section 7.2: `0xEF` is `0b111_01111`, the seed bytes are little-endian. -/
theorem decode_block_header :
    decode .block 0 [0x00, 0xEF, 0x78, 0x56, 0x34, 0x12] = .ok (.blk 0 7 15 0x12345678, 6) := by rfl

/-- The words of the opcode table's rows, and the place where the next step takes them from. -/
theorem decode_table_words :
    decodeTableWord 18 0x20002 = some (.decblk 2) ∧ decodeTableWord 4 0x9 = some .verify ∧
      decodeTableWord 8 0x03 = some .gyro ∧
      decodeTableWord 48 0x12345678EF00 = some (.blk 0 7 15 0x12345678) := by
  decide +kernel

theorem step_runs_placed_words :
    nextIs (step (fixtureState.withFetchWord 18 0x30000)) (ended .err .badCmd) = true ∧
      nextIs (step (fixtureState.withFetchWord 4 0x7)) (fun t => decide (t.ret = .sat false)) = true ∧
      nextIs (step (fixtureState.withFetchWord 8 0x00))
        (fun t => decide (t.host.phase = .finished .noSamples)) = true ∧
      nextIs (step (fixtureState.withFetchWord 48 0x12345678EF00))
        (fun t => decide (t.blk.rstate = 0x12345678)) = true := by
  decide +kernel

/-! ## Commands -/

/-- Section 7.6, first and third row. -/
theorem test_nop_and_clr :
    nextIs (exec (.nop 0x1234) failedBefore) (fun t => ended .err .checksum t && decide (t.blk.ovf = true)) = true ∧
      nextIs (exec (.clr 0) failedBefore)
        (fun t => ended .idle .none t && decide (t.blk.regS = words 0 0 0) && !t.blk.ovf) = true := by
  decide +kernel

/-- Section 7.6, fourth row. -/
theorem test_reserved_command :
    nextIs (exec (.reservedCmd 0xFFFF) doneBefore)
      (fun t => ended .err .badCmd t && decide (t.blk.regS = words 1 2 (-1)) && decide (t.blk.resBytes = 0)) =
        true := by
  decide +kernel

/-- P1: two samples. -/
theorem test_decblk_p1 :
    nextIs (exec (.decblk 2) (sliceState p1Bytes))
      (fun t => ended .done .none t && decide (t.blk.regS = words 1 2 (-1)) && decide (t.blk.resBytes = 8) &&
        decide (t.out = [(0, words 1 0 (-1)), (1, words 1 2 (-1))]) && decide (t.blk.rstate = 0x00800000)) =
        true := by
  decide +kernel

/-- P4's second block: a chain of two escapes, `QS = 2`, table 15, from `S = (2, -2, 4)`. -/
theorem test_decblk_p4 :
    nextIs (exec (.decblk 2)
      { sliceState [0x02, 0x2F, 0x01, 0x70, 0x82, 0x03, 0x29, 0x55, 0x01, 0x37, 0xD4, 0x4D, 0x49, 0xA9, 0xD0] with
        blk := { Block.reset with regS := words 2 (-2) 4 } })
      (fun t => ended .done .none t && decide (t.blk.resBytes = 15) && decide (t.blk.ck = 0x09) &&
        decide (t.out = [(0, words (-1054) 14 8), (1, words (-1038) 30 24)])) = true := by
  decide +kernel

/-! ## Micro-operations -/

/-- Section 7.2: byte order and field split; the length test comes first. -/
theorem test_hdr :
    nextIs (exec .hdr (sliceState [0x00, 0xEF, 0x78, 0x56, 0x34, 0x12]))
        (fun t => decide (t.blk.hck = 7) && decide (t.blk.mi = 15) && decide (t.blk.rstate = 0x12345678)) = true ∧
      nextIs (exec .hdr (sliceState [0x00, 0x50, 0x6F, 0xEC, 0x81])) (ended .err .truncHdr) = true ∧
      nextIs (exec .hdr (sliceState [0xFF, 0xFF, 0xFF, 0xFF, 0xFF, 0xFF]))
        (fun t => ended .err .badModel t && decide (t.blk.mi = 31)) = true := by
  decide +kernel

/-- Section 4. -/
theorem test_cdf :
    nextIs (exec (.cdf 5 (BitVec.ofInt 32 (-2))) fixtureState) (fun t => decide (t.ret = .value 1245)) = true ∧
      nextIs (exec (.cdf 15 129) fixtureState) (fun t => decide (t.ret = .value 4096)) = true := by
  decide +kernel

/-- Section 4. -/
theorem test_icdf :
    nextIs (exec (.icdf 5 1886) fixtureState) (fun t => decide (t.ret = .value (-1))) = true ∧
      nextIs (exec (.icdf 0 4095) fixtureState) (fun t => decide (t.ret = .value 128)) = true := by
  decide +kernel

/-- V7 and V12: bytes pulled from `CUR`, a register that stays 0 for two of them. -/
theorem test_decsym :
    nextIs (exec .decsym (decoderState 0 0x00800FFE 1 [0x11, 0xAB, 0xCD, 0xEF]))
        (fun t => decide (t.ret = .value 127) && decide (t.blk.rstate = 0x0800ABCD) && decide (t.blk.cur = 3)) =
        true ∧
      nextIs (exec .decsym (decoderState 0 0x0000043F 0 [0x00, 0x00, 0x80, 0x00, 0x00, 0x07]))
        (fun t => decide (t.ret = .value 0) && decide (t.blk.rstate = 0x00800000) && decide (t.blk.cur = 5)) =
        true := by
  decide +kernel

/-- V2 and V6: the sentinel writes nothing; a slice that ends in the middle keeps what was pulled. -/
theorem test_decsym_fails :
    nextIs (exec .decsym (decoderState 0 0x00800000 0 []))
        (fun t => ended .err .sentinel t && decide (t.blk.rstate = 0x00800000)) = true ∧
      nextIs (exec .decsym (decoderState 0 0x00800FFE 0 [0xAB]))
        (fun t => ended .err .truncRenorm t && decide (t.blk.rstate = 0x000800AB) && decide (t.blk.cur = 1)) =
        true := by
  decide +kernel

/-- The renormalization of V3 and of V16. -/
theorem test_renorm :
    nextIs (exec .renorm (decoderState 0 0x800 0 [0xAB, 0xCD, 0xEF]))
        (fun t => decide (t.blk.rstate = 0x0800ABCD) && decide (t.blk.cur = 2)) = true ∧
      nextIs (exec .renorm (decoderState 0 0x003C0801 0 [])) (ended .err .truncRenorm) = true := by
  decide +kernel

/-- Section 7.3: `00` then -3 gives `FD`; `7F` then 5 gives `84`. -/
theorem test_ckadd :
    nextIs (exec (.ckadd (BitVec.ofInt 9 (-3))) fixtureState) (fun t => decide (t.blk.ck = 0xFD)) = true ∧
      nextIs (exec (.ckadd 5) { fixtureState with blk := { Block.reset with ck := 0x7F } })
        (fun t => decide (t.blk.ck = 0x84)) = true := by
  decide +kernel

/-- A2 and A6. -/
theorem test_apply :
    nextIs (exec .apply (laneState (words 1000 (-2000) 5) (-3) 4 0 3))
        (fun t => decide (t.blk.regW = words 976 (-1968) 5) && decide (t.ret = .sat false) && !t.blk.ovf) = true ∧
      nextIs (exec .apply (laneState (words 10 20 30) 1 (-127) (-1) 0))
        (fun t => decide (t.blk.regW = words 11 (-107) 29) && decide (t.ret = .sat true)) = true := by
  decide +kernel

/-- A10, A12 and A15. -/
theorem test_apply_overflow :
    nextIs (exec .apply (laneState (words (-2147483648) 0 0) (-1) 0 0 0))
        (fun t => decide (t.blk.regW = words 2147483647 0 0) && t.blk.ovf) = true ∧
      nextIs (exec .apply (laneState (words 0 0 0) (-1) 0 0 31))
        (fun t => decide (t.blk.regW = words (-2147483648) 0 0) && !t.blk.ovf) = true ∧
      nextIs (exec .apply (laneState (words 5 6 7) 0 (-1) 0 32))
        (fun t => decide (t.blk.regW = words 5 6 7) && t.blk.ovf) = true := by
  decide +kernel

/-- Section 6: `EMIT` after A2 with `NOUT = 0`. -/
theorem test_emit :
    nextIs (exec .emit (laneState (words 976 (-1968) 5) (-3) 4 0 3))
      (fun t => decide (t.out = [(0, words 976 (-1968) 5)]) && decide (t.blk.nout = 1)) = true := by
  decide +kernel

/-- P2's and F1's end: `CK = 0x84` against 4, `CK = 2` against 3. -/
theorem test_verify :
    nextIs (exec .verify { fixtureState with blk := { Block.reset with ck := 0x84, hck := 4 } })
        (ended .idle .none) = true ∧
      nextIs (exec .verify { fixtureState with blk := { Block.reset with ck := 2, hck := 3 } })
        (ended .err .checksum) = true := by
  decide +kernel

/-- Section 7.2, third row and fourth row. -/
theorem test_blk :
    nextIs (exec (.blk 3 4 5 0x021843E4) fixtureState)
        (fun t => decide (t.blk.qs = 3) && decide (t.blk.mi = 5) && decide (t.blk.cur = 6)) = true ∧
      nextIs (exec (.blk 255 7 31 0xFFFFFFFF) fixtureState) (ended .err .badModel) = true := by
  decide +kernel

/-! ## Records -/

/-- Section 8: revision 1 with capacity 300; revision 2 is a hard error. -/
theorem test_setup :
    nextIs (exec (.setup 1 300) fixtureState) (fun t => decide (t.host.capacity = 300)) = true ∧
      nextIs (exec (.setup 2 4) fixtureState)
        (fun t => decide (t.host.phase = .finished .badRevision)) = true := by
  decide +kernel

/-- P6, last step: timestamps 0 and 0.005, values times `16/32767`. -/
theorem test_dt_p6 :
    nextIs (exec (.dt 10000)
      { fixtureState with host := { Container.reset with accBuf := [⟨-100, 200, -300⟩, ⟨1, -2, 3⟩] } })
      (fun t => decide (t.host.accOut.map Sample.time = [0, 5 / 1000]) && decide (t.host.clockUs = 10000) &&
        decide ((t.host.accOut.map fun v => v.value.y) = [.exact (200 * 16 / 32767), .exact (-2 * 16 / 32767)]) &&
        decide (t.host.accBuf = [])) = true := by
  decide +kernel

/-- P5, step 4: factor `(2/2000) * 10^6 * (180/π) / 2^27`, timestamps 0 and 0.001. -/
theorem test_dt_p5 :
    nextIs (exec (.dt 2000)
      { fixtureState with host := { Container.reset with gyroBuf := [words 1 0 (-1), words 1 2 (-1)] } })
      (fun t => decide (t.host.gyroOut.map Sample.time = [0, 1 / 1000]) &&
        decide ((t.host.gyroOut.map fun v => v.value.y) =
          [.overPi 0, .overPi (2 * (2 / 2000) * 1000000 * 180 / 2 ^ 27)])) = true := by
  decide +kernel

/-- P5, step 3: the block of P1 in the stream, the cursor past it. -/
theorem test_gyro_p5 :
    nextIs (step { streamState (0x03 :: p1Bytes ++ [0x02, 0xD0, 0x07, 0x00, 0x00]) with
        host := { Container.reset with streamLen := 14, phase := .records, capacity := 2 } })
      (fun t => decide (t.host.gyroBuf = [words 1 0 (-1), words 1 2 (-1)]) && decide (t.host.pos = 9)) = true := by
  decide +kernel

/-- P5, steps 5 and 6: the block cut after 7 bytes ends the parse; `OUT[0]` is not kept. -/
theorem test_gyro_truncated_p5 :
    nextIs (step { streamState (0x03 :: p1Bytes.take 7) with
        host := { Container.reset with
          streamLen := 8, phase := .records, capacity := 2, gyroOut := [⟨0, ⟨.overPi 1, .overPi 1, .overPi 1⟩⟩] }
        blk := { Block.reset with regS := words 1 2 (-1) } })
      (fun t => ended .err .truncRenorm t && decide (t.blk.regS = words 1 2 (-1)) &&
        decide (t.host.gyroBuf = []) && decide (t.host.phase = .finished .success)) = true := by
  decide +kernel

/-- P6: `ACCSETUP` and `ACC`. -/
theorem test_accsetup_acc :
    nextIs (exec (.accsetup 2 1) fixtureState)
        (fun t => decide (t.host.accCount = 2) && decide (t.host.rangeExp = 1)) = true ∧
      nextIs (exec (.acc [⟨100, BitVec.ofInt 16 (-200), 300⟩]) fixtureState)
        (fun t => decide (t.host.accBuf = [⟨-100, 200, -300⟩])) = true := by
  decide +kernel

/-- Section 8: `TOFF -1500`; `ORIENT "ZYx"`, and bytes that are not UTF-8 (R140). -/
theorem test_toff_orient :
    nextIs (exec (.toff (BitVec.ofInt 32 (-1500))) fixtureState)
        (fun t => decide (t.host.clockUs = -1500)) = true ∧
      nextIs (exec (.orient ⟨0x5A, 0x59, 0x78⟩) fixtureState)
        (fun t => decide (t.host.orient = ⟨0x5A, 0x59, 0x78⟩)) = true ∧
      nextIs (exec (.orient ⟨0x5A, 0xFF, 0x78⟩) fixtureState)
        (fun t => decide (t.host.orient = ⟨0x78, 0x79, 0x7A⟩)) = true := by
  decide +kernel

/-- R131, R132 and R141: the header is skipped and `CLR` issued; an unknown tag ends the parse. -/
theorem test_parse_begins_and_ends :
    nextIs (step { failedBefore with
        host := { Container.reset with streamLen := 7 }, request := .stream })
        (fun t => ended .idle .none t && decide (t.host.pos = 7) && decide (t.host.phase = .records)) = true ∧
      nextIs (step (streamState [0xFF])) (fun t => decide (t.host.phase = .finished .noSamples)) = true := by
  decide +kernel

/-! ## Witnesses: hypotheses that can be met -/

theorem witness_DecodeOfEncodedInstructionIsIt :
    (Instr.ckadd (BitVec.ofInt 9 (-127))).wellFormed = true ∧ (Instr.ckadd 128).wellFormed = true ∧
      (Instr.acc (List.replicate 255 ⟨1, 2, 3⟩)).wellFormed = true ∧ (Instr.endTag 8).wellFormed = true ∧
      (Instr.endTag 0).wellFormed = true ∧ (Instr.decblk 65535).wellFormed = true := by
  decide +kernel

theorem witness_EncodingOfDecodedBytesIsTheBytes :
    2 ≤ 255 ∧ decode .record 2 [0x05, 1, 0, 2, 0, 3, 0, 4, 0, 5, 0, 6, 0, 9] =
      .ok (.acc [⟨1, 2, 3⟩, ⟨4, 5, 6⟩], 13) :=
  ⟨by decide, rfl⟩

theorem witness_UnnamedTraceCodesAreRefused :
    ({ fixtureState with request := .trace [0x00] } : State).request = .trace (0x00 :: []) ∧
      (0x00 : Byte).toNat = 0 ∧
      ({ fixtureState with request := .trace [0x0A] } : State).request = .trace (0x0A :: []) ∧
      0xA ≤ (0x0A : Byte).toNat := by
  decide

theorem witness_StepRunsTheDecodedInstruction :
    ({ fixtureState with request := .command 0x20002 } : State).request = .command 0x20002 ∧
      (({ fixtureState with request := .trace [0x1] } : State).request = .trace [0x1] ∧
        decode .uop 0 [0x1] = .ok (.hdr, 1)) ∧
      (({ sliceState p1Bytes with request := .slice } : State).request = .slice ∧
        decode .block 0 (sliceOf { sliceState p1Bytes with request := .slice }) = .ok (.blk 0 2 0 0x0581EC6F, 6)) ∧
      ((streamState [0x06, 1, 0, 0, 0]).request = .stream ∧ (streamState [0x06, 1, 0, 0, 0]).host.phase = .records ∧
        (streamState [0x06, 1, 0, 0, 0]).host.cancel = false ∧
        (streamState [0x06, 1, 0, 0, 0]).host.ioError = false ∧
        decode .record (streamState [0x06, 1, 0, 0, 0]).host.accCount.toNat
          ((streamState [0x06, 1, 0, 0, 0]).mem.readBytes (streamState [0x06, 1, 0, 0, 0]).host.pos
            (streamLeft (streamState [0x06, 1, 0, 0, 0]))) = .ok (.toff 1, 5)) :=
  ⟨rfl, ⟨rfl, rfl⟩, ⟨rfl, rfl⟩, rfl, rfl, rfl, rfl, rfl⟩

/-- A parse before its file header, with this many bytes. -/
def headerState (len : Nat) : State :=
  { fixtureState with host := { Container.reset with streamLen := len }, request := .stream }

/-- A dispatch loop that is cancelled. -/
def cancelledState : State :=
  { streamState [0x00] with host := { (streamState [0x00]).host with cancel := true } }

theorem witness_HostStepsOutsideRecords :
    ((headerState 7).request = .stream ∧ (headerState 7).host.phase = .header ∧
        (headerState 7).host.ioError = false ∧ 7 ≤ streamLeft (headerState 7)) ∧
      ((headerState 6).host.phase = .header ∧ (headerState 6).host.ioError = false ∧ streamLeft (headerState 6) < 7) ∧
      (({ headerState 7 with host := { (headerState 7).host with ioError := true } } : State).host.phase = .header ∧
        ({ headerState 7 with host := { (headerState 7).host with ioError := true } } : State).host.ioError = true) ∧
      (cancelledState.request = .stream ∧ cancelledState.host.phase = .records ∧ cancelledState.host.cancel = true) ∧
      ((streamState [0x02, 0xD0]).host.phase = .records ∧ (streamState [0x02, 0xD0]).host.ioError = false ∧
        decode .record (streamState [0x02, 0xD0]).host.accCount.toNat
          ((streamState [0x02, 0xD0]).mem.readBytes (streamState [0x02, 0xD0]).host.pos
            (streamLeft (streamState [0x02, 0xD0]))) = .error .truncated) ∧
      ((streamState []).request = .stream ∧ decode .record 0 [] = .error .truncated) ∧
      ({ headerState 0 with host := { (headerState 0).host with phase := .finished .success } } : State).host.phase =
        .finished .success :=
  ⟨⟨rfl, rfl, rfl, by decide⟩, ⟨rfl, rfl, by decide⟩, ⟨rfl, rfl⟩, ⟨rfl, rfl, rfl⟩, ⟨rfl, rfl, rfl⟩, ⟨rfl, rfl⟩, rfl⟩

theorem witness_SliceTooShortForAHeaderFails :
    ({ sliceState [0, 0, 0, 0, 0] with request := .slice } : State).request = .slice ∧
      ({ sliceState [0, 0, 0, 0, 0] with request := .slice } : State).len.toNat < 6 := by
  decide

theorem witness_TablesMeetTheirConstraints : (0 < 16 ∧ 15 < 16) ∧ (-128 : Int) ≤ -128 ∧ (-128 : Int) ≤ 128 := by
  decide

theorem reset_wf : State.reset.mem.wf = true ∧ OutBuffer.wf State.reset.out = true := by decide

/-- A lent block with its command presented. -/
def commandState : State := { sliceState p1Bytes with request := .command 0x20002 }

theorem witness_EveryStepKeepsTheInvariant : Inv commandState ∧ ∃ t, step commandState = .next t :=
  ⟨⟨by decide +kernel, by decide, by decide, by decide, by decide, by decide, by
      unfold symbolRegisterOk; decide, by decide⟩,
    (exists_of_nextIs (p := fun _ => true) (by decide +kernel)).imp fun _ h => h.1⟩

theorem witness_NoStepWritesInputOrTables : ∃ t, step commandState = .next t ∧ decide (t.out ≠ []) = true :=
  exists_of_nextIs (by decide +kernel)

theorem witness_CommittedStateWrittenOnlyByClrOrSuccess :
    (∃ t, exec (.clr 0) doneBefore = .next t ∧ decide (t.blk.regS ≠ doneBefore.blk.regS) = true) ∧
      (∃ t, exec (.decblk 2) (sliceState p1Bytes) = .next t ∧
        decide (t.blk.regS ≠ (sliceState p1Bytes).blk.regS) = true) :=
  ⟨exists_of_nextIs (by decide +kernel), exists_of_nextIs (by decide +kernel)⟩

theorem witness_OverflowFlagClearedOnlyByClr :
    failedBefore.blk.ovf = true ∧
      ∃ t, exec (.clr 0) failedBefore = .next t ∧ decide (t.blk.ovf = false) = true :=
  ⟨rfl, exists_of_nextIs (by decide +kernel)⟩

theorem witness_BlockAndHostWriteOnlyTheirOwn :
    (∃ t, exec (.decblk 2) (sliceState p1Bytes) = .next t ∧ decide ((Instr.decblk 2).format ≠ .record) = true) ∧
      (∃ t, exec (.dt 1) fixtureState = .next t ∧
        decide ((Instr.dt 1).format = .record ∧ Instr.dt 1 ≠ .gyro) = true) :=
  ⟨exists_of_nextIs (by decide +kernel), exists_of_nextIs (by decide +kernel)⟩

theorem witness_OnlyDecsymWithoutATableStops :
    Instr.decsym = .decsym → (decoderState 15 0x12345678 0 []).blk.mi.toNat < 16 := by
  decide

theorem witness_FailedDecblkKeepsCommittedState :
    ∃ t, exec (.decblk 2) (committed789 (sliceState [0x00, 0x60, 0x6F, 0xEC, 0x81, 0x05, 0x55, 0x31])) = .next t ∧
      (ended .err .checksum t && decide (t.blk.regS = words 7 8 9)) = true :=
  exists_of_nextIs (by decide +kernel)

theorem witness_SuccessfulDecblkCommits :
    (∃ t, exec (.decblk 2) (sliceState p1Bytes) = .next t ∧ ended .done .none t = true) ∧
      (∃ t, exec (.decblk 0) (committed789 (sliceState [0x00, 0x00, 0x00, 0x00, 0x80, 0x00])) = .next t ∧
        ended .done .none t = true) :=
  ⟨exists_of_nextIs (by decide +kernel), exists_of_nextIs (by decide +kernel)⟩

theorem witness_DecblkLeavesTheRestAlone :
    ∃ t, exec (.decblk 2) (sliceState p1Bytes) = .next t ∧ decide (t.out ≠ []) = true :=
  exists_of_nextIs (by decide +kernel)

/-- Which clause of a header statement a slice falls under. -/
def headerClause (bytes : List Byte) (long : Bool) (reserved zero : Bool) : Bool :=
  let s := sliceState bytes
  decide (decide (6 ≤ s.len.toNat) = long) &&
    decide (decide (16 ≤ (s.mem.read (s.inBase + 1)).toNat % 32) = reserved) &&
    decide (decide ((s.mem.read (s.inBase + 1)).toNat / 32 = 0) = zero)

/-- F3, then F6c, F6 and F6b, with the table selectors 31, 16, 15 and 0 and a slice of exactly 6 bytes. -/
theorem witness_DecblkOfNoSamples :
    headerClause [0x00, 0x40, 0x6F, 0xEC, 0x81] false false false = true ∧
      headerClause [0x00, 0x1F, 0x00, 0x00, 0x80, 0x00] true true true = true ∧
      headerClause [0x00, 0x10, 0x00, 0x00, 0x80, 0x00] true true true = true ∧
      headerClause [0x00, 0x0F, 0x00, 0x00, 0x80, 0x00] true false true = true ∧
      headerClause [0x00, 0x20, 0x00, 0x00, 0x80, 0x00] true false false = true := by
  decide +kernel

theorem witness_HeaderFailuresComeFirst :
    headerClause [] false false true = true ∧
      headerClause [0x00, 0x50, 0x6F, 0xEC, 0x81] false true false = true ∧
      headerClause [0x00, 0x50, 0x6F, 0xEC, 0x81, 0x05, 0x55, 0x31] true true false = true := by
  decide +kernel

theorem witness_HdrLoadsTheHeaderFields :
    headerClause [0x00, 0xEF, 0x78, 0x56, 0x34, 0x12] true false false = true := by decide +kernel

theorem witness_HdrFailsOnShortOrReserved :
    headerClause [0x00, 0x50, 0x6F, 0xEC, 0x81] false true false = true ∧
      headerClause [0x00, 0x10, 0x00, 0x00, 0x80, 0x00] true true true = true := by
  decide +kernel

theorem witness_BlkLoadsItsFields : (15 : BitVec 5).toNat < 16 ∧ 16 ≤ (16 : BitVec 5).toNat := by decide

/-! ## Witnesses: blocks -/

theorem decodesSymbols_cons {p : Params} {m r u r1 r' : Nat} {x : Int} {bytes left : List Byte}
    {xs : List Int} (bytes1 : List Byte) (hi : inInterval p m (r % 2 ^ p.scale) x) (hx : x ≠ -128) (hu : symbolUpdate p m r x = u)
    (hr : refill u bytes = some (r1, bytes1)) (hrest : decodesSymbols p m r1 bytes1 xs r' left) :
    decodesSymbols p m r bytes (x :: xs) r' left :=
  ⟨hi, hx, r1, bytes1, hu ▸ hr, hrest⟩

/-- The triples of P1. -/
def p1Triples : List (Triple Int) := [⟨1, 0, -1⟩, ⟨0, 2, 0⟩]

/-- P1's trace: the register after each symbol. -/
theorem p1_symbols (left : List Byte) :
    decodesSymbols (fixtureParams .fault) 0 0x0581EC6F (0x55 :: 0x31 :: left) (symbolsOf p1Triples) 0x00800000
      left :=
  decodesSymbols_cons (u := 0x014AC94D) (r1 := 0x014AC94D) (0x55 :: 0x31 :: left) (by unfold inInterval; decide +kernel) (by decide)
    (by decide +kernel) (by simp [refill]) <|
  decodesSymbols_cons (u := 0x009B23BA) (r1 := 0x009B23BA) (0x55 :: 0x31 :: left) (by unfold inInterval; decide +kernel) (by decide)
    (by decide +kernel) (by simp [refill]) <|
  decodesSymbols_cons (u := 0x00245EBB) (r1 := 0x245EBB55) (0x31 :: left) (by unfold inInterval; decide +kernel) (by decide)
    (by decide +kernel) (by simp [refill]) <|
  decodesSymbols_cons (u := 0x110EAF81) (r1 := 0x110EAF81) (0x31 :: left) (by unfold inInterval; decide +kernel) (by decide)
    (by decide +kernel) (by simp [refill]) <|
  decodesSymbols_cons (u := 0x000110EA) (r1 := 0x0110EA31) (left) (by unfold inInterval; decide +kernel) (by decide)
    (by decide +kernel) (by cases left <;> simp [refill]) <|
  decodesSymbols_cons (u := 0x00800000) (r1 := 0x00800000) (left) (by unfold inInterval; decide +kernel) (by decide)
    (by decide +kernel) (by cases left <;> simp [refill]) ⟨rfl, rfl⟩

/-- P1's block with anything after it. -/
theorem p1_block (left : List Byte) :
    BlockDecodes (fixtureParams .fault) (p1Bytes ++ left) 2 0 p1Triples left where
  decodes := ⟨0x00, 0x40, 0x6F, 0xEC, 0x81, 0x05, 0x55 :: 0x31 :: left, 0x00800000, rfl, rfl, by decide,
    p1_symbols left, by decide⟩
  count := by decide
  closed := by
    intro t ht
    have : t = ⟨0, 2, 0⟩ := (Option.some.inj ht).symm
    subst this
    decide
  accepted := fun _ => by decide

theorem witness_DecblkDecodesWellFormedBlocks :
    BlockDecodes (sliceState p1Bytes).params (sliceOf (sliceState p1Bytes)) (2 : BitVec 16).toNat 0 p1Triples [] := by
  have h : sliceOf (sliceState p1Bytes) = p1Bytes ++ [] := by decide +kernel
  rw [h]
  exact p1_block []

theorem witness_OnlyWellFormedBlocksSucceed :
    ∃ t, exec (.decblk 2) (sliceState p1Bytes) = .next t ∧ decide (t.blk.status = .done) = true :=
  exists_of_nextIs (by decide +kernel)

/-- P1's block at another place, over other registers. -/
def elsewhereState : State :=
  { fixtureState with
    mem := Memory.writeBytes [] 100 p1Bytes, inBase := 100, len := 8
    blk := { Block.reset with regW := words 9 9 9, ck := 77, sym := ⟨1, 2, 3⟩, nout := 5 } }

theorem witness_DecblkDependsOnItsInputsOnly :
    elsewhereState.params = (sliceState p1Bytes).params ∧ sliceOf elsewhereState = sliceOf (sliceState p1Bytes) ∧
      elsewhereState.blk.regS = (sliceState p1Bytes).blk.regS :=
  ⟨rfl, by decide +kernel, rfl⟩

/-- T2: the block of P1 with two more bytes. -/
def trailingState : State := sliceState (p1Bytes ++ [0xDE, 0xAD])

theorem witness_BytesPastTheBlockAreNotRead :
    ∃ t, exec (.decblk 2) (sliceState p1Bytes) = .next t ∧
      (ended .done .none t && decide (trailingState.blk.regS = (sliceState p1Bytes).blk.regS) &&
        decide ((sliceOf trailingState).take t.blk.resBytes.toNat =
          (sliceOf (sliceState p1Bytes)).take t.blk.resBytes.toNat)) = true :=
  exists_of_nextIs (by decide +kernel)

theorem witness_BytesPastTheBlockAreNotRead_params : trailingState.params = (sliceState p1Bytes).params := rfl

/-! ## Witnesses: micro-operations -/

theorem witness_CdfLooksUpTheTable :
    (BitVec.ofInt 32 (-128)).toInt ≤ -128 ∧ 128 < (129 : Word).toInt ∧
      (-128 < (BitVec.ofInt 32 (-127)).toInt ∧ (BitVec.ofInt 32 (-127)).toInt ≤ 128) ∧
      (-128 < (128 : Word).toInt ∧ (128 : Word).toInt ≤ 128) := by
  decide

theorem witness_CdfIsMonotoneWithoutEmptyBuckets :
    15 < 16 ∧ (-129 : Int) < -128 ∧ (128 : Int) < 129 ∧ (-128 : Int) ≤ 128 ∧ (128 : Int) ≤ 128 := by decide

theorem witness_IcdfFindsTheUniqueSymbol :
    (0 : Word).toNat < 2 ^ fixtureState.params.scale ∧ (4095 : Word).toNat < 2 ^ fixtureState.params.scale := by
  decide

theorem witness_IcdfOutsideItsDomainCompletes : 2 ^ fixtureState.params.scale ≤ (4096 : Word).toNat := by decide

theorem witness_CdfAndIcdfRoundTrip :
    15 < 16 ∧ (-128 : Int) ≤ -128 ∧ (-128 : Int) ≤ 128 ∧ (128 : Int) ≤ 128 := by decide

/-- V3. -/
theorem witness_DecsymReturnsTheSymbol :
    let s := decoderState 0 0x00800001 0 [0xAB, 0xCD, 0xEF]
    s.blk.mi.toNat < 16 ∧ (-127 : Int) ≠ -128 ∧ s.blk.cur.toNat ≤ s.len.toNat ∧
      inInterval s.params s.blk.mi.toNat (s.blk.rstate.toNat % 2 ^ s.params.scale) (-127) ∧
      refill (symbolUpdate s.params s.blk.mi.toNat s.blk.rstate.toNat (-127)) (unreadOf s) =
        some (0x0800ABCD, [0xEF]) := by
  unfold inInterval
  decide +kernel

theorem witness_DecsymCompletesInRange :
    let s := decoderState 15 0x00800001 0 [0xAB, 0xCD, 0xEF]
    s.blk.mi.toNat < 16 ∧ 2 ^ 23 ≤ s.blk.rstate.toNat ∧
      romAt s.params s.blk.mi.toNat (-127) ≤ s.blk.rstate.toNat % 2 ^ s.params.scale ∧
      s.blk.cur.toNat + 3 ≤ s.len.toNat := by
  decide +kernel

/-- V2 and V6. -/
theorem witness_DecsymFailsOnSentinelOrTruncation :
    let s := decoderState 0 0x00800000 0 []
    let t := decoderState 0 0x00800FFE 0 [0xAB]
    (s.blk.mi.toNat < 16 ∧ s.blk.rstate.toNat % 2 ^ s.params.scale < romAt s.params s.blk.mi.toNat (-127)) ∧
      (t.blk.mi.toNat < 16 ∧ (127 : Int) ≠ -128 ∧
        inInterval t.params t.blk.mi.toNat (t.blk.rstate.toNat % 2 ^ t.params.scale) 127 ∧
        refill (symbolUpdate t.params t.blk.mi.toNat t.blk.rstate.toNat 127) (unreadOf t) = none) := by
  unfold inInterval
  decide +kernel

/-- The operation ends with a result that passes the test. -/
def okIs (m : Micro Int) (p : Int → State → Bool) : Bool :=
  match m with
  | .ok x s => p x s
  | .fail _ _ => false
  | .fault _ => false

theorem exists_of_okIs {m : Micro Int} {p : Int → State → Bool} (h : okIs m p = true) :
    ∃ x t, m = .ok x t ∧ p x t = true := by
  cases m with
  | ok x t => exact ⟨x, t, rfl, h⟩
  | fail c t => cases h
  | fault f => cases h

/-- V3 pulls two bytes from the smallest in-range register; V1 pulls none. -/
theorem witness_DecsymKeepsTheRegisterInRange :
    (∃ x t, decsym (decoderState 0 0x00800001 0 [0xAB, 0xCD, 0xEF]) = .ok x t ∧
      (decide (2 ^ 23 ≤ (decoderState 0 0x00800001 0 [0xAB, 0xCD, 0xEF]).blk.rstate.toNat) &&
        decide (t.blk.cur ≠ (decoderState 0 0x00800001 0 [0xAB, 0xCD, 0xEF]).blk.cur)) = true) ∧
      (∃ x t, decsym (decoderState 0 0x12345678 0 []) = .ok x t ∧
        decide (t.blk.cur = (decoderState 0 0x12345678 0 []).blk.cur) = true) :=
  ⟨exists_of_okIs (by decide +kernel), exists_of_okIs (by decide +kernel)⟩

theorem witness_DecsymWithoutATableStops :
    16 ≤ (decoderState 16 0x12345678 0 []).blk.mi.toNat ∧ 16 ≤ (decoderState 31 0 0 []).blk.mi.toNat := by decide

theorem witness_RenormPullsBytesUntilInRange :
    let s := decoderState 0 0x800 0 [0xAB, 0xCD, 0xEF]
    let t := decoderState 0 0x003C0801 0 []
    (s.blk.cur.toNat ≤ s.len.toNat ∧ refill s.blk.rstate.toNat (unreadOf s) = some (0x0800ABCD, [0xEF])) ∧
      (t.blk.cur.toNat ≤ t.len.toNat ∧ refill t.blk.rstate.toNat (unreadOf t) = none) := by
  decide +kernel

theorem witness_VerifyComparesThreeBits :
    (0x84 : BitVec 8).toNat % 8 = (4 : BitVec 3).toNat ∧ (2 : BitVec 8).toNat % 8 ≠ (3 : BitVec 3).toNat := by decide

/-- A15 and A14. -/
theorem witness_LargeShiftsLeaveTheStateAndFlagIt :
    (32 ≤ (laneState (words 5 6 7) 0 (-1) 0 32).blk.qs.toNat ∧
        ∃ t, exec .apply (laneState (words 5 6 7) 0 (-1) 0 32) = .next t ∧ t.blk.ovf = true) ∧
      (32 ≤ (laneState (words 5 6 7) 0 0 0 255).blk.qs.toNat ∧
        ∃ t, exec .apply (laneState (words 5 6 7) 0 0 0 255) = .next t ∧ (!t.blk.ovf) = true) :=
  ⟨⟨by decide, exists_of_nextIs (p := fun t => t.blk.ovf) (by decide +kernel)⟩,
    ⟨by decide, exists_of_nextIs (p := fun t => !t.blk.ovf) (by decide +kernel)⟩⟩

/-- A2 and A12. -/
theorem witness_WithoutOverflowTheSumsAreExact :
    (∃ t, exec .apply (laneState (words 1000 (-2000) 5) (-3) 4 0 3) = .next t ∧ decide (t.blk.ovf = false) = true) ∧
      (∃ t, exec .apply (laneState (words 0 0 0) (-1) 0 0 31) = .next t ∧ decide (t.blk.ovf = false) = true) :=
  ⟨exists_of_nextIs (by decide +kernel), exists_of_nextIs (by decide +kernel)⟩

theorem witness_EmitStoresTheSample :
    ({ Block.reset with nout := 65534 } : Block).nout.toNat < 65535 ∧ (1 : Nat) ≠ (0 : BitVec 16).toNat := by decide

/-! ## Witnesses: records -/

theorem witness_SetupSetsTheCapacityOrIsFatal :
    (1 : Byte) = 1 ∧ (2 : Byte) ≠ 1 ∧ 299 < (300 : BitVec 16).toNat ∧ (300 : BitVec 16).toNat ≤ 300 := by decide

/-- P5, step 4 and P6, the flush. -/
def flushState : State :=
  { fixtureState with
    host := { Container.reset with gyroBuf := [words 1 0 (-1), words 1 2 (-1)], accBuf := [⟨-100, 200, -300⟩] } }

theorem witness_DtFlushesBothBuffers :
    (2000 : Word) ≠ 0 ∧ flushState.host.gyroBuf[1]? = some (words 1 2 (-1)) ∧
      flushState.host.accBuf[0]? = some ⟨-100, 200, -300⟩ := by
  decide

theorem witness_DtOfZeroCompletes :
    1 < flushState.host.gyroBuf.length ∧ flushState.host.accBuf[0]? = some ⟨-100, 200, -300⟩ := by decide

/-- The stream of P5 from offset 12 on, its capacity 2. -/
def gyroStream (bytes : List Byte) : State :=
  { streamState bytes with
    host := { Container.reset with streamLen := bytes.length, phase := .records, capacity := 2 } }

theorem witness_GyroAppendsADecodedBlock :
    BlockDecodes (gyroStream (p1Bytes ++ [0x02, 0xD0, 0x07])).params
      (streamRest (gyroStream (p1Bytes ++ [0x02, 0xD0, 0x07])))
      (gyroStream (p1Bytes ++ [0x02, 0xD0, 0x07])).host.capacity.toNat 0 p1Triples [0x02, 0xD0, 0x07] := by
  have h : streamRest (gyroStream (p1Bytes ++ [0x02, 0xD0, 0x07])) = p1Bytes ++ [0x02, 0xD0, 0x07] := by
    decide +kernel
  rw [h]
  exact p1_block _

theorem witness_GyroFailureEndsTheParse :
    ∃ t, exec .gyro (gyroStream (p1Bytes.take 7)) = .next t ∧ decide (t.blk.status ≠ .done) = true :=
  exists_of_nextIs (by decide +kernel)

theorem witness_AccAppendsNegatedTriples :
    ([⟨32767, BitVec.ofInt 16 (-32767), 0⟩] : List (Triple (BitVec 16)))[0]? =
        some ⟨32767, BitVec.ofInt 16 (-32767), 0⟩ ∧
      (32767 : BitVec 16).toInt ≠ -32768 ∧ (BitVec.ofInt 16 (-32767)).toInt ≠ -32768 ∧ (0 : BitVec 16).toInt ≠ -32768 := by
  decide

theorem witness_OrientStoresTheStringOrTheDefault :
    ((0x00 : Byte).toNat < 0x80 ∧ (0x7F : Byte).toNat < 0x80) ∧
      (0x80 ≤ (0x80 : Byte).toNat ∧ (0x80 : Byte).toNat ≤ 0xC1) ∧ (0xC1 : Byte).toNat ≤ 0xC1 ∧
      0xF0 ≤ (0xF0 : Byte).toNat := by
  decide

theorem witness_EndTagEndsTheParse :
    ([⟨0, ⟨.overPi 1, .overPi 1, .overPi 1⟩⟩] : List Sample) ≠ [] ∧ Container.reset.gyroOut = [] ∧
      Container.reset.accOut = [] := by
  decide

end Sys2Proof.Tests
end

section
/-! SUPPORT. What a step can do to the state, said once: the frame `Kept` that every micro-operation keeps, the ways
a `DECBLK` ends, and the inversion `exec_effect` of the dispatch; then the statements about what steps keep. -/

namespace Sys2Proof.Machine

/-! ### What operations of the block keep -/

/-- The triple buffer holds symbols (R27). -/
def SymbolsOk (b : Block) : Prop :=
  symbolRegisterOk b.sym.x ∧ symbolRegisterOk b.sym.y ∧ symbolRegisterOk b.sym.z

/-- The inputs of the block and the host are as they were. -/
structure InputsKept (s t : State) : Prop where
  params : t.params = s.params
  mem : t.mem = s.mem
  len : t.len = s.len
  host : t.host = s.host

/-- From `s` to `t` the block ran without committing or failing: the inputs, the host, `S` and the result registers
are as they were, `OVF` was not cleared, and what `Inv` says of the cursor, the slots and the symbols was kept. It
asks less than `DecodeFrame`, so that the header and an `EMIT` issued alone keep it too. -/
structure Kept (s t : State) : Prop extends InputsKept s t where
  regS : t.blk.regS = s.blk.regS
  status : t.blk.status = s.blk.status
  cause : t.blk.cause = s.blk.cause
  resBytes : t.blk.resBytes = s.blk.resBytes
  resSamples : t.blk.resSamples = s.blk.resSamples
  ovf : s.blk.ovf = true → t.blk.ovf = true
  cursor : s.blk.cur.toNat ≤ s.len.toNat → t.blk.cur.toNat ≤ s.len.toNat
  outCanonical : OutBuffer.wf s.out = true → OutBuffer.wf t.out = true
  symbols : SymbolsOk s.blk → SymbolsOk t.blk

/-- Nothing that `Kept` speaks of changed. -/
theorem Kept.of_eq {s t : State} (hparams : t.params = s.params) (hmem : t.mem = s.mem) (hlen : t.len = s.len)
    (hhost : t.host = s.host) (hout : t.out = s.out) (hblk : t.blk = s.blk) : Kept s t := by
  refine ⟨⟨hparams, hmem, hlen, hhost⟩, ?_, ?_, ?_, ?_, ?_, ?_, ?_, ?_, ?_⟩ <;>
    simp only [hout, hblk, imp_self]

theorem Kept.refl (s : State) : Kept s s := .of_eq rfl rfl rfl rfl rfl rfl

theorem Kept.trans {s t u : State} (h1 : Kept s t) (h2 : Kept t u) : Kept s u where
  params := h2.params.trans h1.params
  mem := h2.mem.trans h1.mem
  len := h2.len.trans h1.len
  host := h2.host.trans h1.host
  regS := h2.regS.trans h1.regS
  status := h2.status.trans h1.status
  cause := h2.cause.trans h1.cause
  resBytes := h2.resBytes.trans h1.resBytes
  resSamples := h2.resSamples.trans h1.resSamples
  ovf := h2.ovf ∘ h1.ovf
  cursor := by
    have h := h2.cursor
    rw [h1.len] at h
    exact h ∘ h1.cursor
  outCanonical := h2.outCanonical ∘ h1.outCanonical
  symbols := h2.symbols ∘ h1.symbols

/-- Decoding keeps what `Kept` asks, where it touched neither the slots nor the triple buffer. -/
theorem DecodeFrame.kept {s t : State} (h : DecodeFrame s t) (hout : t.out = s.out)
    (hsym : t.blk.sym = s.blk.sym) : Kept s t where
  params := h.params
  mem := h.mem
  len := h.len
  host := h.host
  regS := h.regS
  status := h.status
  cause := h.cause
  resBytes := h.resBytes
  resSamples := h.resSamples
  ovf := h.ovf
  cursor := fun hc => (h.cursor hc).2
  outCanonical := by rw [hout]; exact id
  symbols := by rw [SymbolsOk, SymbolsOk, hsym]; exact id

theorem kept_request (s : State) (r : Request) : Kept s { s with request := r } :=
  .of_eq rfl rfl rfl rfl rfl rfl

theorem kept_returning (s : State) (r : UopResult) : Kept s (s.returning r) :=
  .of_eq rfl rfl rfl rfl rfl rfl

theorem kept_useFree (s : State) (k : Nat) : Kept s (s.useFree k) := .of_eq rfl rfl rfl rfl rfl rfl

theorem kept_withAx (i : Axis) (s : State) : Kept s (s.mapBlk (Block.withAx i)) :=
  (frame_withAx i s).kept rfl rfl

theorem kept_pulledTo {s : State} {r k : Nat} (hk : k ≤ (unreadOf s).length) :
    Kept s (s.mapBlk (Block.pulledTo r k)) :=
  (frame_pulledTo hk).kept rfl rfl

theorem kept_applied (s : State) : Kept s (s.mapBlk Block.applied) :=
  (frame_applied s).kept rfl rfl

theorem kept_ckAdded (x : Int) (s : State) : Kept s (s.mapBlk (Block.ckAdded x)) :=
  ⟨⟨rfl, rfl, rfl, rfl⟩, rfl, rfl, rfl, rfl, rfl, id, id, id, id⟩

theorem kept_begun (n : BitVec 16) (s : State) : Kept s (s.mapBlk (Block.begun n)) :=
  ⟨⟨rfl, rfl, rfl, rfl⟩, rfl, rfl, rfl, rfl, rfl, id, fun _ => Nat.zero_le _, id, id⟩

/-- The header is 6 bytes long, so the cursor it leaves is in a slice that holds a header. -/
theorem kept_loaded {s : State} (h : 6 ≤ s.len.toNat) (q : Byte) (c : BitVec 3) (m : BitVec 5) (seed : Word) :
    Kept s (s.mapBlk (Block.loaded q c m seed)) :=
  ⟨⟨rfl, rfl, rfl, rfl⟩, rfl, rfl, rfl, rfl, rfl, id, fun _ => h, id, id⟩

theorem kept_emitted (s : State) : Kept s (emitted s) :=
  ⟨⟨rfl, rfl, rfl, rfl⟩, rfl, rfl, rfl, rfl, rfl, id, id, fun h => OutBuffer.wf_memWriteOut h _ _, id⟩

/-- A symbol is stored as a value of `[-128, 128]` (R27, R106). -/
theorem storedSymbol_ok (mode : Sym128Mode) {x : Int} (h1 : -128 ≤ x) (h2 : x ≤ 128) :
    symbolRegisterOk (storedSymbol mode x) := by
  rw [symbolRegisterOk, storedSymbol_toInt h1 h2, deltaOf]
  split <;> omega

theorem symbolsOk_latched {b : Block} (hb : SymbolsOk b) (i : Axis) {v : BitVec 9} (hv : symbolRegisterOk v) :
    SymbolsOk (b.latched i v) := by
  obtain ⟨hx, hy, hz⟩ := hb
  cases i with
  | x => exact ⟨hv, hy, hz⟩
  | y => exact ⟨hx, hv, hz⟩
  | z => exact ⟨hx, hy, hv⟩

theorem kept_symbolStored (i : Axis) {x : Int} (h1 : -128 ≤ x) (h2 : x ≤ 128) (s : State) :
    Kept s (symbolStored i x s) :=
  ⟨⟨rfl, rfl, rfl, rfl⟩, rfl, rfl, rfl, rfl, rfl, id, id, id,
    fun h => symbolsOk_latched (b := s.blk.ckAdded x) h i (storedSymbol_ok _ h1 h2)⟩

/-! ### Micro-operations -/

/-- However the micro-operation `m` ends, it kept what `Kept` asks since `s`, and a failure has a cause. -/
structure Micro.Keeps {α : Type} (s : State) (m : Micro α) : Prop where
  ok : ∀ a t, m = .ok a t → Kept s t
  fail : ∀ c t, m = .fail c t → c ≠ .none ∧ Kept s t

section Chains

variable {α β : Type} {s t : State}

theorem keeps_ok (a : α) (h : Kept s t) : (Micro.ok a t).Keeps s where
  ok := by rintro _ _ ⟨⟩; exact h
  fail := by rintro _ _ ⟨⟩

theorem keeps_fail {c : Cause} (hc : c ≠ .none) (h : Kept s t) : (Micro.fail c t : Micro α).Keeps s where
  ok := by rintro _ _ ⟨⟩
  fail := by rintro _ _ ⟨⟩; exact ⟨hc, h⟩

theorem keeps_fault (f : Fault) : (Micro.fault f : Micro α).Keeps s where
  ok := by rintro _ _ ⟨⟩
  fail := by rintro _ _ ⟨⟩

theorem Micro.Keeps.since {m : Micro α} (hm : m.Keeps t) (h : Kept s t) : m.Keeps s where
  ok a u e := h.trans (hm.ok a u e)
  fail c u e := (hm.fail c u e).imp_right h.trans

theorem Micro.Keeps.andThen {m : Micro α} {next : α → State → Micro β} (hm : m.Keeps s)
    (hn : ∀ a t, m = .ok a t → (next a t).Keeps t) : (m.andThen next).Keeps s := by
  cases m with
  | ok a t => exact (hn a t rfl).since (hm.ok a t rfl)
  | fail c t =>
    obtain ⟨hc, h⟩ := hm.fail c t rfl
    exact keeps_fail hc h
  | fault f => exact keeps_fault f

end Chains

theorem keeps_renorm (s : State) : (renorm s).Keeps s := by
  rw [renorm_eq]
  cases refill s.blk.rstate.toNat (unreadOf s) with
  | none => exact keeps_fail (by decide) (kept_pulledTo le_rfl)
  | some p => exact keeps_ok () (kept_pulledTo (Nat.sub_le _ _))

theorem keeps_decsym (s : State) : (decsym s).Keeps s where
  ok x t h := by
    obtain ⟨_, _, _, r, left, _, rfl⟩ := decsym_ok h
    exact kept_pulledTo (Nat.sub_le _ _)
  fail c t h := by
    obtain ⟨hc, r, k, hk, rfl⟩ := decsym_fail h
    exact ⟨by rcases hc with rfl | rfl <;> decide, kept_pulledTo hk⟩

/-- The header's fields are tested only after they are loaded (R113). -/
theorem keeps_loadHeader (q : Byte) (c : BitVec 3) (m : BitVec 5) (seed : Word) (s : State) :
    (loadHeader q c m seed s).Keeps (s.mapBlk (Block.loaded q c m seed)) := by
  unfold loadHeader
  split
  · exact keeps_fail (by decide) (.refl _)
  · exact keeps_ok () (.refl _)

theorem keeps_hdr (s : State) : (hdr s).Keeps s := by
  unfold hdr
  split
  · exact keeps_fail (by decide) (.refl s)
  · rename_i h
    exact (keeps_loadHeader _ _ _ _ s).since (kept_loaded (Nat.le_of_not_lt h) _ _ _ _)

theorem keeps_verify (s : State) : (verify s).Keeps s := by
  unfold verify
  split
  · exact keeps_ok () (.refl s)
  · exact keeps_fail (by decide) (.refl s)

theorem keeps_applyTriple (s : State) : (applyTriple s).Keeps s := keeps_ok _ (kept_applied s)

theorem keeps_emitSample (s : State) : (emitSample s).Keeps s := keeps_ok () (kept_emitted s)

/-! ### The loops of the sequencer -/

theorem keeps_decodeSymbol (i : Axis) (s : State) : (decodeSymbol i s).Keeps s := by
  refine ((keeps_decsym _).since (kept_withAx i s)).andThen fun x t h => ?_
  obtain ⟨hm, rfl, -⟩ := decsym_ok h
  obtain ⟨h1, h2, -⟩ := symbolUnder_interval hm
  split
  · exact keeps_fail (by decide) (.refl t)
  · exact keeps_ok () (kept_symbolStored i h1 h2 t)

theorem keeps_decodeTriple (s : State) : (decodeTriple s).Keeps s :=
  (keeps_decodeSymbol .x s).andThen fun _ s1 _ =>
    (keeps_decodeSymbol .y s1).andThen fun _ s2 _ => keeps_decodeSymbol .z s2

theorem keeps_tripleStep (s : State) : (tripleStep s).Keeps s := by
  refine (keeps_decodeTriple s).andThen fun _ s1 _ => (keeps_applyTriple s1).andThen fun sat s2 _ => ?_
  split
  · exact keeps_ok () (.refl s2)
  · exact keeps_emitSample s2

theorem keeps_tripleLoop (k : Nat) (s : State) : (tripleLoop k s).Keeps s := by
  induction k generalizing s with
  | zero =>
    unfold tripleLoop
    split
    · exact keeps_fault _
    · exact keeps_ok () (.refl s)
  | succ k ih =>
    unfold tripleLoop
    split
    · exact (keeps_tripleStep s).andThen fun _ t _ => ih t
    · exact keeps_ok () (.refl s)

/-! ### How a command ends -/

theorem settle_next {m : Micro Unit} {t : State} (h : settle m = .next t) :
    m = .ok () t ∨ ∃ c u, m = .fail c u ∧ t = failExit c u := by
  cases m with
  | ok a u => cases h; exact .inl rfl
  | fail c u => cases h; exact .inr ⟨c, u, rfl, rfl⟩
  | fault f => cases h

/-- The step from `s` to `t` kept what `Kept` asks, but for the failure exit (R153) where it failed. -/
inductive Settled (s t : State) : Prop where
  | ended (h : Kept s t)
  | failed (c : Cause) (u : State) (hc : c ≠ .none) (h : Kept s u) (ht : t = failExit c u)

theorem settled_of_keeps {m : Micro Unit} {s t : State} (hm : m.Keeps s) (h : settle m = .next t) :
    Settled s t := by
  rcases settle_next h with e | ⟨c, u, e, rfl⟩
  · exact .ended (hm.ok () t e)
  · obtain ⟨hc, hu⟩ := hm.fail c u e
    exact .failed c u hc hu rfl

theorem settled_of_keeps_returning {α : Type} {result : α → UopResult} {m : Micro α} {s t : State}
    (hm : m.Keeps s) (h : settleReturning result m = .next t) : Settled s t :=
  settled_of_keeps (m := m.andThen fun a s => .ok () (s.returning (result a)))
    (hm.andThen fun _ t _ => keeps_ok () (kept_returning t _)) h

/-- How a `DECBLK n` from `s` ends in `t` (R112): with the failure exit, or with the commit and the cursor past the
header (R118). -/
inductive Decoded (n : BitVec 16) (s t : State) : Prop where
  | failed (c : Cause) (u : State) (hc : c ≠ .none) (h : Kept (s.mapBlk (Block.begun n)) u)
      (ht : t = failExit c u)
  | committed (u : State) (h : Kept (s.mapBlk (Block.begun n)) u) (hcur : 6 ≤ u.blk.cur.toNat)
      (ht : t = u.mapBlk Block.committed)

/-- The header and the loop of a `DECBLK` together, since its start. -/
theorem keeps_allTriples {n : BitVec 16} {s a : State} (ha : hdr (s.mapBlk (Block.begun n)) = .ok () a) :
    (allTriples a).Keeps (s.mapBlk (Block.begun n)) :=
  (keeps_tripleLoop _ a).since ((keeps_hdr _).ok () a ha)

/-- The loop of `DECBLK` starts with no sample and the cursor past the header. -/
theorem allTriples_frame_ok {n : BitVec 16} {s a t : State} (ha : hdr (s.mapBlk (Block.begun n)) = .ok () a)
    (ht : allTriples a = .ok () t) : DecodeFrame a t := by
  obtain ⟨-, -, rfl⟩ := hdr_ok ha
  exact (tripleLoop_frame_ok (Nat.zero_le _) ht).1

theorem allTriples_frame_fail {n : BitVec 16} {s a t : State} {c : Cause}
    (ha : hdr (s.mapBlk (Block.begun n)) = .ok () a) (ht : allTriples a = .fail c t) : DecodeFrame a t := by
  obtain ⟨-, -, rfl⟩ := hdr_ok ha
  exact tripleLoop_frame_fail (Nat.zero_le _) ht

theorem decoded_of_ok {n : BitVec 16} {s t : State} (h : decblk n s = .ok () t) :
    Decoded n s t := by
  obtain ⟨a, u, ha, hu, -, rfl⟩ := decblk_ok h
  have hcur := (allTriples_frame_ok ha hu).cursor
  refine .committed u ((keeps_allTriples ha).ok () u hu) ?_ rfl
  obtain ⟨hlen, -, rfl⟩ := hdr_ok ha
  exact (hcur hlen).1

theorem decoded_of_fail {n : BitVec 16} {s t : State} {c : Cause} (h : decblk n s = .fail c t) :
    Decoded n s (failExit c t) := by
  rcases decblk_fail h with hhdr | ⟨a, ha, hloop | ⟨hloop, rfl, -⟩⟩
  · obtain ⟨hc, hk⟩ := (keeps_hdr _).fail c t hhdr
    exact .failed c t hc hk rfl
  · obtain ⟨hc, hk⟩ := (keeps_allTriples ha).fail c t hloop
    exact .failed c t hc hk rfl
  · exact .failed .checksum t (by decide) ((keeps_allTriples ha).ok () t hloop) rfl

theorem execDecblk_decoded {n : BitVec 16} {s t : State} (h : execDecblk n s = .next t) : Decoded n s t := by
  rcases settle_next h with e | ⟨c, u, e, rfl⟩
  · exact decoded_of_ok e
  · exact decoded_of_fail e

/-! ### What an instruction can do -/

/-- From `s` to `t` a record acted on the host alone: the block, its inputs and the stream cursor are as they were,
and slots of the scratch buffer at most went away (R133). -/
structure HostOnly (s t : State) : Prop where
  params : t.params = s.params
  mem : t.mem = s.mem
  len : t.len = s.len
  blk : t.blk = s.blk
  pos : t.host.pos = s.host.pos
  streamLen : t.host.streamLen = s.host.streamLen
  outCanonical : OutBuffer.wf s.out = true → OutBuffer.wf t.out = true

theorem HostOnly.refl (s : State) : HostOnly s s := ⟨rfl, rfl, rfl, rfl, rfl, rfl, id⟩

/-- A record that updates the host and leaves its stream cursor where it is. -/
theorem hostOnly_mapHost {f : Container → Container} {s : State} (hpos : (f s.host).pos = s.host.pos)
    (hlen : (f s.host).streamLen = s.host.streamLen) : HostOnly s (s.mapHost f) :=
  ⟨rfl, rfl, rfl, rfl, hpos, hlen, id⟩

theorem HostOnly.useFree {s t : State} (h : HostOnly s t) (k : Nat) : HostOnly s (t.useFree k) :=
  ⟨h.params, h.mem, h.len, h.blk, h.pos, h.streamLen, h.outCanonical⟩

theorem execSetup_hostOnly {revision : Byte} {capacity : BitVec 16} {s t : State}
    (h : execSetup revision capacity s = .next t) : HostOnly s t := by
  unfold execSetup at h
  split at h <;> cases h
  · exact ⟨rfl, rfl, rfl, rfl, rfl, rfl, fun ho => OutBuffer.wf_resized ho capacity⟩
  · exact hostOnly_mapHost rfl rfl

theorem execIcdf_kept {m : BitVec 4} {y : Word} {s t : State} (h : execIcdf m y s = .next t) : Kept s t := by
  unfold execIcdf at h
  split at h <;> cases h
  · exact kept_returning s _
  · exact (kept_returning s _).trans (kept_useFree _ 1)

/-- `GYRO` is a `DECBLK` of the lent stream, then the samples taken or the parse ended (R136, R145). -/
theorem execGyro_decoded {s t : State} (h : execGyro s = .next t) :
    ∃ u, Decoded s.host.capacity (lendRemainder s) u ∧
      (u.blk.status = .done ∧ t = acceptBlock u ∨ t = u.mapHost Container.ended) := by
  unfold execGyro at h
  split at h
  · rename_i u hu
    cases h
    obtain ⟨_, v, _, _, _, rfl⟩ := decblk_ok hu
    exact ⟨_, decoded_of_ok hu, .inl ⟨rfl, rfl⟩⟩
  · rename_i c u hu
    cases h
    exact ⟨_, decoded_of_fail hu, .inr rfl⟩
  · cases h

/-- What an instruction can do to the state. -/
inductive ExecEffect (i : Instr) (s t : State) : Prop where
  /-- `NOP`, the reserved command and the micro-operations -/
  | settled (hi : i.format ≠ .record) (h : Settled s t)
  /-- `CLR` (R111) -/
  | cleared (n : BitVec 16) (hi : i = .clr n) (ht : t = s.mapBlk Block.cleared)
  /-- a block header by itself, whose load does not ask for a slice that holds it (log 12) -/
  | loaded (q : Byte) (c : BitVec 3) (m : BitVec 5) (seed : Word) (hi : i = .blk q c m seed)
      (h : Settled (s.mapBlk (Block.loaded q c m seed)) t)
  /-- `DECBLK` (R112) -/
  | decoded (n : BitVec 16) (hi : i = .decblk n) (h : Decoded n s t)
  /-- `GYRO` (R136) -/
  | gyro (u : State) (hi : i = .gyro) (h : Decoded s.host.capacity (lendRemainder s) u)
      (ht : u.blk.status = .done ∧ t = acceptBlock u ∨ t = u.mapHost Container.ended)
  /-- any other record -/
  | hostOnly (hi : i.format = .record) (h : HostOnly s t)

/-- The one inversion of the dispatch: every claim about what instructions leave alone goes through it. -/
theorem exec_effect {i : Instr} {s t : State} (h : exec i s = .next t) : ExecEffect i s t := by
  cases i with
  | nop n => cases h; exact .settled nofun (.ended (.refl s))
  | clr n => cases h; exact .cleared n rfl rfl
  | decblk n => exact .decoded n rfl (execDecblk_decoded h)
  | reservedCmd n => cases h; exact .settled nofun (.failed .badCmd s (by decide) (.refl s) rfl)
  | hdr => exact .settled nofun (settled_of_keeps (keeps_hdr s) h)
  | cdf m x => cases h; exact .settled nofun (.ended (kept_returning s _))
  | icdf m y => exact .settled nofun (.ended (execIcdf_kept h))
  | decsym => exact .settled nofun (settled_of_keeps_returning (keeps_decsym s) h)
  | renorm => exact .settled nofun (settled_of_keeps (keeps_renorm s) h)
  | ckadd sym => cases h; exact .settled nofun (.ended (kept_ckAdded _ s))
  | apply => exact .settled nofun (settled_of_keeps_returning (keeps_applyTriple s) h)
  | emit => exact .settled nofun (settled_of_keeps (keeps_emitSample s) h)
  | verify => exact .settled nofun (settled_of_keeps (keeps_verify s) h)
  | setup revision capacity => exact .hostOnly rfl (execSetup_hostOnly h)
  | dt dtUs => cases h; exact .hostOnly rfl ((hostOnly_mapHost rfl rfl).useFree _)
  | gyro =>
    obtain ⟨u, hu, ht⟩ := execGyro_decoded h
    exact .gyro u rfl hu ht
  | accsetup count rangeExp => cases h; exact .hostOnly rfl (hostOnly_mapHost rfl rfl)
  | acc triples => cases h; exact .hostOnly rfl ((hostOnly_mapHost rfl rfl).useFree _)
  | toff offset => cases h; exact .hostOnly rfl (hostOnly_mapHost rfl rfl)
  | orient axes => cases h; exact .hostOnly rfl (hostOnly_mapHost rfl rfl)
  | endTag tag => cases h; exact .hostOnly rfl (hostOnly_mapHost rfl rfl)
  | blk q c m seed => exact .loaded q c m seed rfl (settled_of_keeps (keeps_loadHeader q c m seed s) h)

/-! ### What a step can do -/

/-- What a step can do to the state. -/
inductive StepEffect (s t : State) : Prop where
  /-- nothing is presented, or the parse ends or has ended (R145, R146, R170) -/
  | hostOnly (h : HostOnly s t)
  /-- the host skips the file header and issues `CLR` (R131, R132) -/
  | started (hleft : Config.magicLen ≤ streamLeft s)
      (ht : t = (s.mapBlk Block.cleared).mapHost fun h => h.fresh.pastHeader)
  /-- a slice too short for a header (R113) -/
  | rejected (ht : t = failExit .truncHdr { s with request := .none })
  /-- an instruction was fetched and run -/
  | ran (i : Instr) (n : Nat) (hf : fetch s = some (.ok (i, n))) (h : exec i (advance n s) = .next t)

theorem beginParse_effect (s : State) : StepEffect s (beginParse s) := by
  unfold beginParse
  split
  · exact .hostOnly (hostOnly_mapHost rfl rfl)
  · split
    · exact .hostOnly (hostOnly_mapHost rfl rfl)
    · rename_i h
      exact .started (Nat.le_of_not_lt h) rfl

theorem withoutFetch_effect (s : State) : StepEffect s (withoutFetch s) := by
  unfold withoutFetch
  split
  · split
    · exact beginParse_effect s
    · split
      · exact .hostOnly (hostOnly_mapHost rfl rfl)
      · split
        · exact .hostOnly (hostOnly_mapHost rfl rfl)
        · exact .hostOnly (.refl s)
    · exact .hostOnly (.refl s)
  · exact .hostOnly (.refl s)

theorem undecoded_effect {why : DecodeError} {s t : State} (h : undecoded why s = .next t) :
    StepEffect s t := by
  unfold undecoded at h
  split at h <;> cases h
  · exact .hostOnly (hostOnly_mapHost rfl rfl)
  · exact .rejected rfl

/-- The one inversion of `step`. -/
theorem step_effect {s t : State} (h : step s = .next t) : StepEffect s t := by
  unfold step at h
  split at h
  · cases h
    exact withoutFetch_effect s
  · rename_i i n hf
    exact .ran i n hf h
  · exact undecoded_effect h

/-! ### What the fetch gives -/

theorem decodeBlock_ok {bytes : List Byte} {i : Instr} {n : Nat} (h : decodeBlock bytes = .ok (i, n)) :
    6 ≤ bytes.length := by
  unfold decodeBlock at h
  split at h
  · simp
  · cases h

/-- A fetched record lies in the stream. -/
theorem fetch_stream {s : State} {i : Instr} {n : Nat} (h : fetch s = some (.ok (i, n)))
    (hr : s.request = .stream) : n ≤ streamLeft s := by
  have hcount := s.host.accCount.isLt
  simp only [fetch, hr] at h
  split at h
  · obtain ⟨-, hn, -, -⟩ := decode_ok (by omega) (Option.some.inj h)
    rw [streamWindow, Memory.readBytes_length] at hn
    exact hn.trans (min_le_right _ _)
  · cases h

/-- A header is fetched from the slice only, which then holds it. -/
theorem fetch_block {s : State} {i : Instr} {n : Nat} (h : fetch s = some (.ok (i, n)))
    (hi : i.format = .block) : 6 ≤ s.len.toNat := by
  have hcount := s.host.accCount.isLt
  have other {f : Format} {count : Nat} {bytes : List Byte} (hc : count ≤ 255)
      (hd : some (decode f count bytes) = some (.ok (i, n))) (hf : f ≠ .block) : False := by
    obtain ⟨-, -, -, e⟩ := decode_ok hc (Option.some.inj hd)
    exact hf (e.symm.trans hi)
  unfold fetch at h
  split at h
  · cases h
  · exact (other (Nat.zero_le _) h nofun).elim
  · exact (other (Nat.zero_le _) h nofun).elim
  · have hlen := decodeBlock_ok (Option.some.inj h)
    rw [sliceBytes, Memory.readBytes_length] at hlen
    exact hlen.trans (min_le_right _ _)
  · split at h
    · exact (other (by omega) h nofun).elim
    · cases h

/-- Taking the instruction touches the request and the stream cursor only. -/
theorem advance_cases (n : Nat) (s : State) :
    (s.request = .stream ∧ advance n s = s.mapHost fun h => { h with pos := h.pos + n }) ∨
      advance n s = { s with request := .none } := by
  unfold advance
  split
  · rename_i h
    exact .inl ⟨h, rfl⟩
  · exact .inr rfl

@[simp] theorem advance_params (n : Nat) (s : State) : (advance n s).params = s.params := by
  rcases advance_cases n s with ⟨-, e⟩ | e <;> simp [e]

@[simp] theorem advance_mem (n : Nat) (s : State) : (advance n s).mem = s.mem := by
  rcases advance_cases n s with ⟨-, e⟩ | e <;> simp [e]

@[simp] theorem advance_len (n : Nat) (s : State) : (advance n s).len = s.len := by
  rcases advance_cases n s with ⟨-, e⟩ | e <;> simp [e]

/-! ### The inputs and the tables -/

theorem Settled.inputs {s t : State} (h : Settled s t) : InputsKept s t := by
  cases h with
  | ended h => exact h.toInputsKept
  | failed c u hc h ht => subst ht; exact ⟨h.params, h.mem, h.len, h.host⟩

theorem Decoded.inputs {n : BitVec 16} {s t : State} (h : Decoded n s t) : InputsKept s t := by
  cases h with
  | failed c u hc h ht => subst ht; exact ⟨h.params, h.mem, h.len, h.host⟩
  | committed u h hcur ht => subst ht; exact ⟨h.params, h.mem, h.len, h.host⟩

theorem exec_mem_params {i : Instr} {s t : State} (h : exec i s = .next t) :
    t.mem = s.mem ∧ t.params = s.params := by
  cases exec_effect h with
  | settled hi hs => exact ⟨hs.inputs.mem, hs.inputs.params⟩
  | cleared n hi ht => subst ht; exact ⟨rfl, rfl⟩
  | loaded q c m seed hi hs => exact ⟨hs.inputs.mem, hs.inputs.params⟩
  | decoded n hi hd => exact ⟨hd.inputs.mem, hd.inputs.params⟩
  | gyro u hi hd ht => rcases ht with ⟨-, rfl⟩ | rfl <;> exact ⟨hd.inputs.mem, hd.inputs.params⟩
  | hostOnly hi hh => exact ⟨hh.mem, hh.params⟩

/-! ### `S` and `OVF` -/

theorem Settled.regS {s t : State} (h : Settled s t) : t.blk.regS = s.blk.regS := by
  cases h with
  | ended h => exact h.regS
  | failed c u hc h ht => subst ht; exact h.regS

/-- A `DECBLK` writes `S` only where it commits `W` (R117, R153). -/
theorem Decoded.regS {n : BitVec 16} {s t : State} (h : Decoded n s t) (hne : t.blk.regS ≠ s.blk.regS) :
    t.blk.status = .done ∧ t.blk.regS = t.blk.regW := by
  cases h with
  | failed c u hc h ht => subst ht; exact absurd h.regS hne
  | committed u h hcur ht => subst ht; exact ⟨rfl, rfl⟩

theorem Settled.ovf {s t : State} (h : Settled s t) : s.blk.ovf = true → t.blk.ovf = true := by
  cases h with
  | ended h => exact h.ovf
  | failed c u hc h ht => subst ht; exact h.ovf

theorem Decoded.ovf {n : BitVec 16} {s t : State} (h : Decoded n s t) :
    s.blk.ovf = true → t.blk.ovf = true := by
  cases h with
  | failed c u hc h ht => subst ht; exact h.ovf
  | committed u h hcur ht => subst ht; exact h.ovf

/-- After a `GYRO` the block is as its `DECBLK` left it. -/
theorem gyro_blk {u t : State} (ht : u.blk.status = .done ∧ t = acceptBlock u ∨ t = u.mapHost Container.ended) :
    t.blk = u.blk := by
  rcases ht with ⟨-, rfl⟩ | rfl <;> rfl

/-- `OVF` is sticky under every instruction but `CLR`. -/
theorem exec_ovf {i : Instr} {s t : State} (h : exec i s = .next t) :
    (∃ n, i = .clr n) ∨ (s.blk.ovf = true → t.blk.ovf = true) := by
  cases exec_effect h with
  | settled hi hs => exact .inr hs.ovf
  | cleared n hi ht => exact .inl ⟨n, hi⟩
  | loaded q c m seed hi hs => exact .inr hs.ovf
  | decoded n hi hd => exact .inr hd.ovf
  | gyro u hi hd ht => rw [gyro_blk ht]; exact .inr hd.ovf
  | hostOnly hi hh => rw [hh.blk]; exact .inr id

/-! ### What a `DECBLK` leaves alone -/

/-- From `s` to `t` nothing changed but the registers and the slots below `n`. -/
structure DecblkFrame (n : BitVec 16) (s t : State) : Prop where
  params : t.params = s.params
  mem : t.mem = s.mem
  inBase : t.inBase = s.inBase
  len : t.len = s.len
  host : t.host = s.host
  request : t.request = s.request
  ret : t.ret = s.ret
  freeCtr : t.freeCtr = s.freeCtr
  slots : ∀ k, n.toNat ≤ k → outSlot t k = outSlot s k

/-- Decoding between a write `f` of the registers that sets `NREQ` to `n` and `NOUT` to 0, and a last write `g`. -/
theorem DecodeFrame.decblkFrame {n : BitVec 16} {f g : Block → Block} {s u : State}
    (h : DecodeFrame (s.mapBlk f) u) (hreq : (f s.blk).nreq = n) (hout : (f s.blk).nout = 0) :
    DecblkFrame n s (u.mapBlk g) where
  params := h.params
  mem := h.mem
  inBase := h.inBase
  len := h.len
  host := h.host
  request := h.request
  ret := h.ret
  freeCtr := h.freeCtr
  slots k hk := h.slots (by simp [hout]) k (.inr (by simpa [hreq] using hk))

theorem decblk_ok_frame {n : BitVec 16} {s t : State} (h : decblk n s = .ok () t) : DecblkFrame n s t := by
  obtain ⟨a, u, ha, hu, -, rfl⟩ := decblk_ok h
  have hf := allTriples_frame_ok ha hu
  obtain ⟨-, -, rfl⟩ := hdr_ok ha
  exact hf.decblkFrame (s := s) (f := Block.loaded _ _ _ _ ∘ Block.begun n) rfl rfl

theorem decblk_fail_frame {n : BitVec 16} {s t : State} {c : Cause} (h : decblk n s = .fail c t) :
    DecblkFrame n s (failExit c t) := by
  rcases decblk_fail h with hhdr | ⟨a, ha, hloop⟩
  · rcases hdr_fail hhdr with ⟨-, -, rfl⟩ | ⟨-, -, -, rfl⟩
    · exact (DecodeFrame.refl _).decblkFrame (f := Block.begun n) rfl rfl
    · exact (DecodeFrame.refl _).decblkFrame (f := Block.loaded _ _ _ _ ∘ Block.begun n) rfl rfl
  · have hf : DecodeFrame a t :=
      hloop.elim (allTriples_frame_fail ha) fun hok => allTriples_frame_ok ha hok.1
    obtain ⟨-, -, rfl⟩ := hdr_ok ha
    exact hf.decblkFrame (s := s) (f := Block.loaded _ _ _ _ ∘ Block.begun n) rfl rfl

theorem execDecblk_frame {n : BitVec 16} {s t : State} (h : execDecblk n s = .next t) : DecblkFrame n s t := by
  rcases settle_next h with e | ⟨c, u, e, rfl⟩
  · exact decblk_ok_frame e
  · exact decblk_fail_frame e

/-! ### The invariant -/

theorem Kept.inv {s t : State} (h : Kept s t) (hi : Inv s) : Inv t where
  memCanonical := by rw [h.mem]; exact hi.memCanonical
  outCanonical := h.outCanonical hi.outCanonical
  cursorInSlice := by rw [h.len]; exact h.cursor hi.cursorInSlice
  causeIffErr := by rw [h.status, h.cause]; exact hi.causeIffErr
  countsOnlyWhenDone := by rw [h.status, h.resBytes, h.resSamples]; exact hi.countsOnlyWhenDone
  bytesWhenDone := by rw [h.status, h.resBytes, h.len]; exact hi.bytesWhenDone
  symbolsInRange := h.symbols hi.symbolsInRange
  streamCursor := by rw [h.host]; exact hi.streamCursor

theorem HostOnly.inv {s t : State} (h : HostOnly s t) (hi : Inv s) : Inv t where
  memCanonical := by rw [h.mem]; exact hi.memCanonical
  outCanonical := h.outCanonical hi.outCanonical
  cursorInSlice := by rw [h.blk, h.len]; exact hi.cursorInSlice
  causeIffErr := by rw [h.blk]; exact hi.causeIffErr
  countsOnlyWhenDone := by rw [h.blk]; exact hi.countsOnlyWhenDone
  bytesWhenDone := by rw [h.blk, h.len]; exact hi.bytesWhenDone
  symbolsInRange := by rw [h.blk]; exact hi.symbolsInRange
  streamCursor := by rw [h.pos, h.streamLen]; exact hi.streamCursor

/-- The host may do what it likes, as long as its cursor stays in the stream. -/
theorem inv_mapHost {f : Container → Container} {s : State} (hi : Inv s)
    (hpos : (f s.host).pos ≤ (f s.host).streamLen) : Inv (s.mapHost f) where
  memCanonical := hi.memCanonical
  outCanonical := hi.outCanonical
  cursorInSlice := hi.cursorInSlice
  causeIffErr := hi.causeIffErr
  countsOnlyWhenDone := hi.countsOnlyWhenDone
  bytesWhenDone := hi.bytesWhenDone
  symbolsInRange := hi.symbolsInRange
  streamCursor := hpos

theorem inv_cleared {s : State} (hi : Inv s) : Inv (s.mapBlk Block.cleared) where
  memCanonical := hi.memCanonical
  outCanonical := hi.outCanonical
  cursorInSlice := hi.cursorInSlice
  causeIffErr := by simp
  countsOnlyWhenDone := by simp
  bytesWhenDone := by simp
  symbolsInRange := hi.symbolsInRange
  streamCursor := hi.streamCursor

/-- What `Inv` says apart from the result registers and the slice: it does not depend on which slice is lent, and a
`DECBLK` needs no more to establish `Inv`. -/
structure InvBeforeDecode (s : State) : Prop where
  memCanonical : s.mem.wf = true
  outCanonical : OutBuffer.wf s.out = true
  symbolsInRange : SymbolsOk s.blk
  streamCursor : s.host.pos ≤ s.host.streamLen

theorem invBeforeDecode_of_inv {s : State} (hi : Inv s) : InvBeforeDecode s :=
  ⟨hi.memCanonical, hi.outCanonical, hi.symbolsInRange, hi.streamCursor⟩

theorem invBeforeDecode_lendRemainder {s : State} (hi : Inv s) : InvBeforeDecode (lendRemainder s) :=
  ⟨hi.memCanonical, hi.outCanonical, hi.symbolsInRange, hi.streamCursor⟩

theorem Kept.invBeforeDecode {s t : State} (h : Kept s t) (hi : InvBeforeDecode s) : InvBeforeDecode t where
  memCanonical := by rw [h.mem]; exact hi.memCanonical
  outCanonical := h.outCanonical hi.outCanonical
  symbolsInRange := h.symbols hi.symbolsInRange
  streamCursor := by rw [h.host]; exact hi.streamCursor

/-- The failure exit sets the result registers whatever they were (R153). -/
theorem inv_failExit {s : State} {c : Cause} (hc : c ≠ .none) (hi : InvBeforeDecode s)
    (hcur : s.blk.cur.toNat ≤ s.len.toNat) : Inv (failExit c s) where
  memCanonical := hi.memCanonical
  outCanonical := hi.outCanonical
  cursorInSlice := hcur
  causeIffErr := by simp [hc]
  countsOnlyWhenDone := by simp
  bytesWhenDone := by simp
  symbolsInRange := hi.symbolsInRange
  streamCursor := hi.streamCursor

/-- The commit sets the result registers whatever they were (R117). -/
theorem inv_committed {s : State} (hi : InvBeforeDecode s) (hlow : 6 ≤ s.blk.cur.toNat)
    (hcur : s.blk.cur.toNat ≤ s.len.toNat) : Inv (s.mapBlk Block.committed) where
  memCanonical := hi.memCanonical
  outCanonical := hi.outCanonical
  cursorInSlice := hcur
  causeIffErr := by simp
  countsOnlyWhenDone := by simp
  bytesWhenDone := fun _ => ⟨hlow, hcur⟩
  symbolsInRange := hi.symbolsInRange
  streamCursor := hi.streamCursor

theorem Settled.inv {s t : State} (h : Settled s t) (hi : Inv s) : Inv t := by
  cases h with
  | ended h => exact h.inv hi
  | failed c u hc h ht =>
    subst ht
    have hu := h.inv hi
    exact inv_failExit hc (invBeforeDecode_of_inv hu) hu.cursorInSlice

/-- A `DECBLK` establishes the clauses about the slice: it starts with the cursor at 0 (R112). -/
theorem Decoded.inv {n : BitVec 16} {s t : State} (h : Decoded n s t) (hi : InvBeforeDecode s) : Inv t := by
  have hbegun := (kept_begun n s).invBeforeDecode hi
  have cursor {u : State} (h : Kept (s.mapBlk (Block.begun n)) u) : u.blk.cur.toNat ≤ u.len.toNat := by
    rw [h.len]
    exact h.cursor (Nat.zero_le _)
  cases h with
  | failed c u hc h ht =>
    subst ht
    exact inv_failExit hc (h.invBeforeDecode hbegun) (cursor h)
  | committed u h hcur ht =>
    subst ht
    exact inv_committed (h.invBeforeDecode hbegun) hcur (cursor h)

theorem lendRemainder_len_le (s : State) : (lendRemainder s).len.toNat ≤ streamLeft s := by
  rw [lendRemainder_len, BitVec.toNat_ofNat]
  exact (Nat.mod_le _ _).trans (min_le_left _ _)

/-- The bytes a `GYRO` record's block used are in the stream (R118, R136). -/
theorem inv_acceptBlock {n : BitVec 16} {s u : State} (hi : Inv s) (h : Decoded n (lendRemainder s) u)
    (hdone : u.blk.status = .done) : Inv (acceptBlock u) := by
  have hu : Inv u := h.inv (invBeforeDecode_lendRemainder hi)
  refine inv_mapHost hu ?_
  have hpos := hi.streamCursor
  have hbytes := (hu.bytesWhenDone hdone).2
  have hlent := lendRemainder_len_le s
  rw [h.inputs.len] at hbytes
  simp only [h.inputs.host, lendRemainder_host]
  unfold streamLeft at hlent
  omega

/-- Every instruction keeps the invariant; the header by itself, where the slice holds one (R61). -/
theorem exec_inv {i : Instr} {s t : State} (hi : Inv s) (hlen : i.format = .block → 6 ≤ s.len.toNat)
    (h : exec i s = .next t) : Inv t := by
  cases exec_effect h with
  | settled hf hs => exact hs.inv hi
  | cleared n e ht => subst ht; exact inv_cleared hi
  | loaded q c m seed e hs => exact hs.inv ((kept_loaded (hlen (by rw [e]; rfl)) q c m seed).inv hi)
  | decoded n e hd => exact hd.inv (invBeforeDecode_of_inv hi)
  | gyro u e hd ht =>
    rcases ht with ⟨hdone, rfl⟩ | rfl
    · exact inv_acceptBlock hi hd hdone
    · have hu : Inv u := hd.inv (invBeforeDecode_lendRemainder hi)
      exact inv_mapHost hu hu.streamCursor
  | hostOnly hf hh => exact hh.inv hi

theorem inv_advance {s : State} {n : Nat} (hi : Inv s) (hn : s.request = .stream → n ≤ streamLeft s) :
    Inv (advance n s) := by
  rcases advance_cases n s with ⟨hr, e⟩ | e <;> rw [e]
  · refine inv_mapHost hi ?_
    have hleft := hn hr
    have hpos := hi.streamCursor
    unfold streamLeft at hleft
    change s.host.pos + n ≤ s.host.streamLen
    omega
  · exact (kept_request s .none).inv hi

/-- The host's first step: the seven bytes it skips are in the stream (R131). -/
theorem inv_started {s : State} (hi : Inv s) (hleft : Config.magicLen ≤ streamLeft s) :
    Inv ((s.mapBlk Block.cleared).mapHost fun h => h.fresh.pastHeader) := by
  refine inv_mapHost (inv_cleared hi) ?_
  have hpos := hi.streamCursor
  unfold streamLeft at hleft
  simp only [mapBlk_host, Container.pastHeader_pos, Container.pastHeader_streamLen, Container.fresh_pos,
    Container.fresh_streamLen]
  omega

end Sys2Proof.Machine

/-! ### The obligations -/

namespace Sys2Proof

open Sys2Proof.Machine

/-- Settles O11, by the cases of `StepEffect`. -/
theorem everyStepKeepsTheInvariant : Obligations.EveryStepKeepsTheInvariant := by
  intro s t hi h
  cases step_effect h with
  | hostOnly hh => exact hh.inv hi
  | started hleft ht => subst ht; exact inv_started hi hleft
  | rejected ht =>
    subst ht
    exact (Settled.failed .truncHdr _ nofun (kept_request s .none) rfl).inv hi
  | ran i n hf hx =>
    refine exec_inv (inv_advance hi (fetch_stream hf)) (fun hb => ?_) hx
    rw [advance_len]
    exact fetch_block hf hb

/-- Settles O12: a step that runs an instruction goes through `exec_mem_params`, any other writes host and
registers only. -/
theorem noStepWritesInputOrTables : Obligations.NoStepWritesInputOrTables := by
  intro s t h
  cases step_effect h with
  | hostOnly hh => exact ⟨hh.mem, hh.params⟩
  | started hleft ht => subst ht; exact ⟨rfl, rfl⟩
  | rejected ht => subst ht; exact ⟨rfl, rfl⟩
  | ran i n hf hx =>
    obtain ⟨hmem, hparams⟩ := exec_mem_params hx
    exact ⟨hmem.trans (advance_mem n s), hparams.trans (advance_params n s)⟩

/-- Settles O13: `CLR` and the commit are the only writes of `S` among the effects of an instruction. -/
theorem committedStateWrittenOnlyByClrOrSuccess : Obligations.CommittedStateWrittenOnlyByClrOrSuccess := by
  intro i s t h hne
  cases exec_effect h with
  | settled hi hs => exact absurd hs.regS hne
  | cleared n hi ht => subst ht; exact .inl ⟨⟨n, hi⟩, rfl⟩
  | loaded q c m seed hi hs => exact absurd hs.regS hne
  | decoded n hi hd => exact .inr ⟨.inl ⟨n, hi⟩, hd.regS hne⟩
  | gyro u hi hd ht =>
    rw [gyro_blk ht] at hne ⊢
    exact .inr ⟨.inr hi, hd.regS hne⟩
  | hostOnly hi hh => exact absurd (congrArg Block.regS hh.blk) hne

/-- Settles O14, from `exec_ovf`. -/
theorem overflowFlagClearedOnlyByClr : Obligations.OverflowFlagClearedOnlyByClr := by
  intro i s t h hs ht
  rcases exec_ovf h with hclr | hsticky
  · exact hclr
  · simp [hsticky hs] at ht

/-- Settles O15, by the effect of the instruction. -/
theorem blockAndHostWriteOnlyTheirOwn : Obligations.BlockAndHostWriteOnlyTheirOwn := by
  intro i s t h
  cases exec_effect h with
  | settled hi hs => exact ⟨fun _ => hs.inputs.host, fun hr => absurd hr hi⟩
  | cleared n hi ht => subst hi ht; exact ⟨fun _ => rfl, nofun⟩
  | loaded q c m seed hi hs => subst hi; exact ⟨fun _ => hs.inputs.host, nofun⟩
  | decoded n hi hd => subst hi; exact ⟨fun _ => hd.inputs.host, nofun⟩
  | gyro u hi hd ht => subst hi; exact ⟨fun hr => absurd rfl hr, fun _ hg => absurd rfl hg⟩
  | hostOnly hi hh => exact ⟨fun hr => absurd hi hr, fun _ _ => hh.blk⟩

/-- Settles O23, from `execDecblk_frame`. -/
theorem decblkLeavesTheRestAlone : Obligations.DecblkLeavesTheRestAlone := by
  intro n s t h
  have hf : DecblkFrame n s t := execDecblk_frame h
  exact ⟨hf.params, hf.mem, hf.inBase, hf.len, hf.host, hf.request, hf.ret, hf.freeCtr, hf.slots⟩

/-- Settles O10: the reset state holds no byte and no slot, and every register the clauses read is 0. -/
theorem resetMeetsTheInvariant : Obligations.ResetMeetsTheInvariant where
  memCanonical := Memory.wf_reset
  outCanonical := rfl
  cursorInSlice := le_rfl
  causeIffErr := by simp [State.reset, Block.reset]
  countsOnlyWhenDone := fun _ => ⟨rfl, rfl⟩
  bytesWhenDone := nofun
  symbolsInRange :=
    have hzero : symbolRegisterOk 0 := ⟨by decide, by decide⟩
    ⟨hzero, hzero, hzero⟩
  streamCursor := le_rfl

end Sys2Proof
end

section
/-! SUPPORT. Which bytes of the slice a successful `DECBLK` depends on (R48), which instructions complete (R42), and
how a step comes by its instruction (R53); then the statements of 20_memory.md that rest on them. A proof about a
`DECBLK` that succeeds cites `decblk_ok_block` and `decblk_of_block`, which tie it to `BlockDecodes` in both
directions. -/

namespace Sys2Proof.Machine

/-! ### A decode reads no byte that it leaves -/

/-- `refill` depends on the bytes it draws only. -/
theorem refill_used {r r' : Nat} {bytes left : List Byte} (h : refill r bytes = some (r', left)) :
    ∃ used, bytes = used ++ left ∧ ∀ rest, refill r (used ++ rest) = some (r', rest) := by
  induction bytes generalizing r with
  | nil =>
    simp only [refill] at h
    split at h <;> cases h
    rename_i hr
    exact ⟨[], rfl, refill_of_le hr⟩
  | cons b bytes ih =>
    simp only [refill] at h
    split at h
    · rename_i hr
      cases h
      exact ⟨[], rfl, refill_of_le hr⟩
    · rename_i hr
      obtain ⟨used, rfl, hused⟩ := ih h
      refine ⟨b :: used, rfl, fun rest => ?_⟩
      rw [List.cons_append, refill, if_neg hr, hused]

/-- The symbols of a run of bytes depend on the bytes it uses only. -/
theorem decodesSymbols_used {p : Params} {m r r' : Nat} {bytes left : List Byte} {xs : List Int}
    (h : decodesSymbols p m r bytes xs r' left) :
    ∃ used, bytes = used ++ left ∧ ∀ rest, decodesSymbols p m r (used ++ rest) xs r' rest := by
  induction xs generalizing r bytes with
  | nil =>
    obtain ⟨rfl, rfl⟩ := h
    exact ⟨[], rfl, fun rest => ⟨rfl, rfl⟩⟩
  | cons x xs ih =>
    obtain ⟨hx, hne, r1, bytes1, hrefill, hrest⟩ := h
    obtain ⟨drawn, rfl, hdrawn⟩ := refill_used hrefill
    obtain ⟨used, rfl, hused⟩ := ih hrest
    refine ⟨drawn ++ used, (List.append_assoc ..).symm, fun rest => ?_⟩
    rw [List.append_assoc]
    exact ⟨hx, hne, r1, used ++ rest, hdrawn _, hused rest⟩

/-- Whether bytes are a block does not depend on what follows the block (R48, R62). -/
theorem blockDecodes_used {p : Params} {bytes left : List Byte} {n qs : Nat} {ts : List (Triple Int)}
    (h : BlockDecodes p bytes n qs ts left) :
    ∃ used, bytes = used ++ left ∧ ∀ rest, BlockDecodes p (used ++ rest) n qs ts rest := by
  obtain ⟨⟨b0, b1, b2, b3, b4, b5, payload, r, rfl, hqs, hm, hsymbols, hck⟩, hcount, hclosed, haccepted⟩ := h
  obtain ⟨used, rfl, hused⟩ := decodesSymbols_used hsymbols
  exact ⟨b0 :: b1 :: b2 :: b3 :: b4 :: b5 :: used, rfl, fun rest =>
    ⟨⟨b0, b1, b2, b3, b4, b5, used ++ rest, r, rfl, hqs, hm, hused rest, hck⟩, hcount, hclosed, haccepted⟩⟩

/-! ### The checksum and the symbols that are rejected, over a list -/

theorem foldl_checksumAdd_toNat (xs : List Int) (ck : BitVec 8) :
    ((xs.foldl checksumAdd ck).toNat : Int) = ((ck.toNat : Int) + xs.sum) % 256 := by
  induction xs generalizing ck with
  | nil =>
    have hlt := ck.isLt
    simp only [List.foldl_nil, List.sum_nil]
    omega
  | cons x xs ih =>
    rw [List.foldl_cons, ih, checksumAdd_toNat, List.sum_cons]
    omega

/-- `VERIFY` after the symbols `xs` have been added to 0 (R115, R116). -/
theorem checksumMatches_foldl_iff {b : Block} {xs : List Int} (hck : b.ck = xs.foldl checksumAdd 0) :
    checksumMatches b = true ↔ (xs.sum - (b.hck.toNat : Int)) % 8 = 0 := by
  have hsum := foldl_checksumAdd_toNat xs 0
  rw [← hck, show (0 : BitVec 8).toNat = 0 from rfl] at hsum
  have hlt := b.hck.isLt
  rw [checksumMatches_iff]
  omega

/-- No symbol is rejected: the mode is not `FAULT`, or +128 does not occur (R106). -/
theorem symbolRejected_forall_iff (mode : Sym128Mode) (xs : List Int) :
    (∀ x ∈ xs, symbolRejected mode x = false) ↔ (mode = .fault → (128 : Int) ∉ xs) := by
  simp only [symbolRejected, Bool.and_eq_false_iff, decide_eq_false_iff_not]
  constructor
  · intro h hmode hmem
    exact (h 128 hmem).elim (absurd rfl) (absurd hmode)
  · intro h x hx
    by_cases hmode : mode = .fault
    · exact .inl fun e => h hmode (e ▸ hx)
    · exact .inr hmode

/-! ### `DECBLK` against `BlockDecodes` -/

/-- The state in which the loop of a `DECBLK n` starts: the registers set up, the header loaded (R112, R113). -/
def headerLoaded (n : BitVec 16) (s : State) : State :=
  (s.mapBlk (Block.begun n)).mapBlk (Block.loaded (inByte s 0) (headerChecksum (inByte s 1))
    (headerModel (inByte s 1)) (headerSeed s))

/-- The loop of a `DECBLK` starts where the slice holds a header with a legal model index, and nowhere else. -/
theorem hdr_begun_iff {n : BitVec 16} {s a : State} :
    hdr (s.mapBlk (Block.begun n)) = .ok () a ↔
      6 ≤ s.len.toNat ∧ (headerModel (inByte s 1)).toNat < 16 ∧ a = headerLoaded n s := by
  constructor
  · exact hdr_ok
  · rintro ⟨hlen, hm, rfl⟩
    exact (hdr_eq _).trans ((if_neg (Nat.not_lt.2 hlen)).trans (if_neg (Nat.not_le.2 hm)))

/-- What follows the header is the payload (R61). -/
theorem unreadOf_headerLoaded (n : BitVec 16) (s : State) :
    unreadOf (headerLoaded n s) = (sliceOf s).drop 6 := rfl

theorem headerSeed_toNat (s : State) :
    (headerSeed s).toNat = (inByte s 2).toNat + 2 ^ 8 * (inByte s 3).toNat + 2 ^ 16 * (inByte s 4).toNat +
      2 ^ 24 * (inByte s 5).toNat := le32_toNat ..

/-- What a `DECBLK n` from `s` whose slice holds the triples `ts` and then the bytes `left` commits (R117). -/
structure BlockCommitted (n : BitVec 16) (qs : Nat) (ts : List (Triple Int)) (left : List Byte) (s t : State) :
    Prop where
  status : t.blk.status = .done
  cause : t.blk.cause = .none
  regS : t.blk.regS = movedAll s.params.sym128 qs s.blk.regS ts
  resBytes : t.blk.resBytes.toNat + left.length = s.len.toNat
  resSamples : t.blk.resSamples = n
  ovf : t.blk.ovf = (s.blk.ovf || overflowsAny s.params.sym128 qs s.blk.regS ts)
  slots : ∀ k, k < n.toNat → outSlot t k = (samplesOf s.params.sym128 qs s.blk.regS ts)[k]?

/-- The commit after the loop has decoded `ts` (R117). -/
theorem blockCommitted_of_triples {n : BitVec 16} {s u : State} {ts : List (Triple Int)} (hlen : 6 ≤ s.len.toNat)
    (h : TriplesDecoded ts (headerLoaded n s) u) (hn : u.blk.nout = n) :
    BlockCommitted n (inByte s 0).toNat ts (unreadOf u) s (u.mapBlk Block.committed) where
  status := rfl
  cause := rfl
  regS := h.regW
  resBytes := by
    have hcur : u.blk.cur.toNat ≤ s.len.toNat := (h.frame.cursor hlen).2
    have hulen : u.len = s.len := h.frame.len
    rw [mapBlk_blk, Block.committed_resBytes, unreadOf_length, hulen]
    omega
  resSamples := hn
  ovf := h.ovf
  slots k hk := by
    have hcount : u.blk.nout.toNat = 0 + sampleCount ts := h.nout
    rw [hn, Nat.zero_add] at hcount
    have hslot : outSlot u (0 + k) = if k < sampleCount ts then _ else _ := h.slots k
    rw [Nat.zero_add, if_pos (hcount ▸ hk)] at hslot
    exact hslot

/-- A `DECBLK` that succeeds had a well-formed block, and committed its triples. -/
theorem decblk_ok_block {n : BitVec 16} {s t : State} (h : decblk n s = .ok () t) :
    ∃ qs ts left, BlockDecodes s.params (sliceOf s) n.toNat qs ts left ∧ BlockCommitted n qs ts left s t := by
  obtain ⟨a, u, ha, hloop, hck, rfl⟩ := decblk_ok h
  obtain ⟨hlen, hm, rfl⟩ := hdr_begun_iff.1 ha
  obtain ⟨ts, hts, hn, hclosed⟩ := tripleLoop_decoded (s := headerLoaded n s) hlen (Nat.zero_le _) hloop
  have hhck : u.blk.hck = headerChecksum (inByte s 1) := hts.frame.hck
  have hcount : u.blk.nout.toNat = 0 + sampleCount ts := hts.nout
  have hbytes : decodesSymbols s.params (headerModel (inByte s 1)).toNat (headerSeed s).toNat
      ((sliceOf s).drop 6) (symbolsOf ts) u.blk.rstate.toNat (unreadOf u) := hts.bytes
  rw [checksumMatches_foldl_iff hts.ck, hhck, headerChecksum_toNat] at hck
  rw [headerModel_toNat] at hm hbytes
  rw [headerSeed_toNat] at hbytes
  refine ⟨_, ts, _, ⟨?_, ?_, hclosed, ?_⟩, blockCommitted_of_triples hlen hts hn⟩
  · exact ⟨_, _, _, _, _, _, _, _, sliceOf_header hlen, rfl, hm, hbytes, hck⟩
  · rw [hn, Nat.zero_add] at hcount
    exact hcount.symm
  · exact (symbolRejected_forall_iff _ _).1 hts.accepted

/-- A well-formed block is decoded, and its triples committed. -/
theorem decblk_of_block {n : BitVec 16} {s : State} {qs : Nat} {ts : List (Triple Int)} {left : List Byte}
    (h : BlockDecodes s.params (sliceOf s) n.toNat qs ts left) :
    ∃ t, decblk n s = .ok () t ∧ BlockCommitted n qs ts left s t := by
  obtain ⟨⟨b0, b1, b2, b3, b4, b5, payload, r, hslice, rfl, hm, hbytes, hck⟩, hcount, hclosed, haccepted⟩ := h
  have hlen : 6 ≤ s.len.toNat := by
    rw [← sliceOf_length, hslice]
    simp
  have hpayload : payload = unreadOf (headerLoaded n s) := by
    rw [unreadOf_headerLoaded, hslice]
    rfl
  rw [sliceOf_header hlen] at hslice
  simp only [List.cons.injEq] at hslice
  obtain ⟨rfl, rfl, rfl, rfl, rfl, rfl, -⟩ := hslice
  rw [← headerModel_toNat] at hm hbytes
  rw [← headerSeed_toNat, hpayload] at hbytes
  have ha : hdr (s.mapBlk (Block.begun n)) = .ok () (headerLoaded n s) := hdr_begun_iff.2 ⟨hlen, hm, rfl⟩
  obtain ⟨u, hloop, hts, -, rfl⟩ := tripleLoop_of_bytes (s := headerLoaded n s) hm (Nat.lt_succ_self _) hlen
    ((Nat.zero_add _).trans hcount) hclosed hbytes ((symbolRejected_forall_iff _ _).2 haccepted)
  have hhck : u.blk.hck = headerChecksum (inByte s 1) := hts.frame.hck
  have hnout : u.blk.nout.toNat = 0 + sampleCount ts := hts.nout
  have hn : u.blk.nout = n := BitVec.eq_of_toNat_eq (by rw [hnout, Nat.zero_add]; exact hcount)
  have hverify : checksumMatches u.blk = true := by
    rw [checksumMatches_foldl_iff hts.ck, hhck, headerChecksum_toNat]
    exact hck
  exact ⟨_, decblk_of ha hloop hverify, blockCommitted_of_triples hlen hts hn⟩

/-- A `DECBLK` that ends `DONE` did not take the failure exit. -/
theorem execDecblk_done {n : BitVec 16} {s t : State} (h : execDecblk n s = .next t) (hdone : t.blk.status = .done) :
    decblk n s = .ok () t := by
  rcases settle_next h with hok | ⟨c, u, -, rfl⟩
  · exact hok
  · cases hdone

theorem execDecblk_of_ok {n : BitVec 16} {s t : State} (h : decblk n s = .ok () t) :
    execDecblk n s = .next t := by
  rw [execDecblk, h]
  rfl

/-! ### Instructions that complete -/

theorem settle_completes {m : Micro Unit} (h : ∀ f, m ≠ .fault f) : ∃ t, settle m = .next t := by
  cases m with
  | ok a s => exact ⟨s, rfl⟩
  | fail c s => exact ⟨failExit c s, rfl⟩
  | fault f => exact absurd rfl (h f)

theorem settleReturning_completes {α : Type} {m : Micro α} (result : α → UopResult) (h : ∀ f, m ≠ .fault f) :
    ∃ t, settleReturning result m = .next t := by
  refine settle_completes fun f hf => ?_
  rcases andThen_fault hf with e | ⟨a, s, -, e⟩
  · exact h f e
  · cases e

theorem renorm_no_fault (s : State) (f : Fault) : renorm s ≠ .fault f := by
  rw [renorm_eq]
  cases refill s.blk.rstate.toNat (unreadOf s) <;> nofun

theorem verify_no_fault (s : State) (f : Fault) : verify s ≠ .fault f := by
  unfold verify
  split <;> nofun

theorem applyTriple_no_fault (s : State) (f : Fault) : applyTriple s ≠ .fault f := nofun

theorem emitSample_no_fault (s : State) (f : Fault) : emitSample s ≠ .fault f := nofun

theorem loadHeader_no_fault (q : Byte) (c : BitVec 3) (m : BitVec 5) (seed : Word) (s : State) (f : Fault) :
    loadHeader q c m seed s ≠ .fault f := by
  unfold loadHeader
  split <;> nofun

theorem execIcdf_completes (m : BitVec 4) (y : Word) (s : State) : ∃ t, execIcdf m y s = .next t := by
  unfold execIcdf
  split <;> exact ⟨_, rfl⟩

theorem execSetup_completes (revision : Byte) (capacity : BitVec 16) (s : State) :
    ∃ t, execSetup revision capacity s = .next t := by
  unfold execSetup
  split <;> exact ⟨_, rfl⟩

theorem execGyro_completes (s : State) : ∃ t, execGyro s = .next t := by
  unfold execGyro
  split
  · exact ⟨_, rfl⟩
  · exact ⟨_, rfl⟩
  · rename_i f hf
    exact absurd hf (decblk_no_fault _ _ f)

/-! ### A step that runs an instruction -/

theorem step_of_fetch {s : State} {i : Instr} {n : Nat} (h : fetch s = some (.ok (i, n))) :
    step s = exec i (advance n s) := by
  rw [step, h]

/-- Whatever is presented is taken, but for a stream, which stays. -/
theorem advance_of_ne_stream {s : State} (n : Nat) (h : s.request ≠ .stream) :
    advance n s = { s with request := .none } :=
  (advance_cases n s).resolve_left fun hs => h hs.1

theorem advance_of_stream {s : State} (n : Nat) (h : s.request = .stream) :
    advance n s = { s with host := { s.host with pos := s.host.pos + n } } := by
  unfold advance
  split
  · rfl
  · rename_i hne
    exact absurd h hne

/-- A command word is fetched as the instruction it decodes to (R63). -/
theorem fetch_command {s : State} {w : BitVec 18} (h : s.request = .command w) :
    fetch s = some (.ok (decodeCmd w, 3)) := by
  have hw := decodeCmdBytes_cmdBytes w []
  rw [List.append_nil] at hw
  rw [fetch, h]
  exact congrArg some hw

theorem fetch_trace {s : State} {entry : List Byte} (h : s.request = .trace entry) :
    fetch s = some (decode .uop 0 entry) := by
  rw [fetch, h]

/-- The fetch of a header looks at six bytes, and decodes as the whole slice does. -/
theorem fetch_slice {s : State} (h : s.request = .slice) : fetch s = some (decode .block 0 (sliceOf s)) := by
  rw [← decode_sliceBytes, fetch, h]

/-- The fetch of a record looks at a window, and decodes as the whole rest of the stream does. -/
theorem fetch_record {s : State} (h : s.request = .stream) (hphase : s.host.phase = .records)
    (hcancel : s.host.cancel = false) (hio : s.host.ioError = false) :
    fetch s = some (decode .record s.host.accCount.toNat (s.mem.readBytes s.host.pos (streamLeft s))) := by
  rw [← decode_streamWindow, fetch, h]
  simp [readsRecord, hphase, hcancel, hio]

end Sys2Proof.Machine

/-! ### The obligations -/

namespace Sys2Proof

open Sys2Proof.Machine

/-- Settles O29: what follows a block can be exchanged without changing what the block decodes to
(`blockDecodes_used`), and what a success commits is a function of that. -/
theorem bytesPastTheBlockAreNotRead : Obligations.BytesPastTheBlockAreNotRead := by
  intro n s s' t h hdone hparams hregS htake
  obtain ⟨qs, ts, left, hblock, hcommit⟩ := decblk_ok_block (execDecblk_done h hdone)
  obtain ⟨used, hslice, hused⟩ := blockDecodes_used hblock
  have hbytes := hcommit.resBytes
  have hlen : used.length + left.length = s.len.toNat := by
    rw [← sliceOf_length s, hslice, List.length_append]
  rw [show t.blk.resBytes.toNat = used.length by omega, hslice, List.take_left] at htake
  have hslice' : sliceOf s' = used ++ (sliceOf s').drop used.length :=
    (List.take_append_drop _ _).symm.trans (by rw [htake])
  have hblock' := hused ((sliceOf s').drop used.length)
  rw [← hslice', ← hparams] at hblock'
  obtain ⟨t', hok', hcommit'⟩ := decblk_of_block hblock'
  have hbytes' := hcommit'.resBytes
  have hlen' : used.length + ((sliceOf s').drop used.length).length = s'.len.toNat := by
    rw [← sliceOf_length s', ← List.length_append, ← hslice']
  refine ⟨t', execDecblk_of_ok hok', hcommit'.status, ?_, BitVec.eq_of_toNat_eq (by omega), ?_, fun k hk => ?_⟩
  · rw [hcommit'.regS, hcommit.regS, hparams, hregS]
  · rw [hcommit'.resSamples, hcommit.resSamples]
  · rw [hcommit'.slots k hk, hcommit.slots k hk, hparams, hregS]

/-- Settles O16, by the instruction: an instruction stops the model only where one of its micro-operations does. -/
theorem onlyDecsymWithoutATableStops : Obligations.OnlyDecsymWithoutATableStops := by
  intro i s hm
  cases i with
  | decblk n => exact settle_completes (decblk_no_fault n s)
  | hdr => exact settle_completes (hdr_no_fault s)
  | icdf m y => exact execIcdf_completes m y s
  | decsym => exact settleReturning_completes _ (decsym_no_fault (hm rfl))
  | renorm => exact settle_completes (renorm_no_fault s)
  | apply => exact settleReturning_completes _ (applyTriple_no_fault s)
  | emit => exact settle_completes (emitSample_no_fault s)
  | verify => exact settle_completes (verify_no_fault s)
  | setup revision capacity => exact execSetup_completes revision capacity s
  | gyro => exact execGyro_completes s
  | blk q c m seed => exact settle_completes (loadHeader_no_fault q c m seed s)
  | nop | clr | reservedCmd | cdf | ckadd | dt | accsetup | acc | toff | orient | endTag => exact ⟨_, rfl⟩

/-- Settles O5, by what is presented: the fetch gives the instruction, `advance` takes it. -/
theorem stepRunsTheDecodedInstruction : Obligations.StepRunsTheDecodedInstruction := by
  refine fun s i n => ⟨fun w hw => ?_, fun entry he hd => ?_, fun hr hd => ?_, fun hr hphase hcancel hio hd => ?_⟩
  · rw [step_of_fetch (fetch_command hw), advance_of_ne_stream _ (by simp [hw])]
  · rw [step_of_fetch ((fetch_trace he).trans (congrArg some hd)), advance_of_ne_stream _ (by simp [he])]
  · rw [step_of_fetch ((fetch_slice hr).trans (congrArg some hd)), advance_of_ne_stream _ (by simp [hr])]
  · rw [step_of_fetch ((fetch_record hr hphase hcancel hio).trans (congrArg some hd)), advance_of_stream _ hr]

/-- Settles O42: `DECSYM` tests the table selector before it reads anything. -/
theorem decsymWithoutATableStops : Obligations.DecsymWithoutATableStops := by
  intro s hm
  change settleReturning UopResult.value (decsym s) = .fault .noSuchTable
  rw [decsym_eq, if_pos (show 16 ≤ modelOf s from hm)]
  rfl

end Sys2Proof
end

section
/-! SUPPORT. The decoder against the encoder (R60 to R66, R74): for each format, the encoded fields are read back, and
what is accepted is written in the bytes it was read from. Then the header's fields as numbers, and where a header, a
`DECSYM` and a fetch fail; then the statements of 30_encoding.md that rest on them. -/

namespace Sys2Proof

/-! ### Fields in a whole byte -/

theorem zeroExtend_toNat {k : Nat} (hk : k ≤ 8) (v : BitVec k) : (v.zeroExtend 8).toNat = v.toNat :=
  (BitVec.toNat_setWidth 8 v).trans (Nat.mod_eq_of_lt (v.isLt.trans_le (Nat.pow_le_pow_right (by decide) hk)))

/-- A field in the low bits of a byte, zeros above, is read back. -/
theorem extract_zeroExtend {k : Nat} (hk : k ≤ 8) (v : BitVec k) : (v.zeroExtend 8).extractLsb' 0 k = v := by
  apply BitVec.eq_of_toNat_eq
  rw [BitVec.extractLsb'_toNat, Nat.shiftRight_zero, zeroExtend_toNat hk, Nat.mod_eq_of_lt v.isLt]

/-- A byte with nothing above its low field is that field. -/
theorem zeroExtend_extract {k : Nat} (hk : k ≤ 8) {b : Byte} (h : b.toNat < 2 ^ k) :
    (b.extractLsb' 0 k).zeroExtend 8 = b := by
  apply BitVec.eq_of_toNat_eq
  rw [zeroExtend_toNat hk, BitVec.extractLsb'_toNat, Nat.shiftRight_zero, Nat.mod_eq_of_lt h]

/-! ### Command words -/

theorem decode_cmdBytes {cmd : BitVec 18} {i : Instr} (h : decodeCmd cmd = i) (rest : List Byte) :
    decode .cmd 0 (cmdBytes cmd ++ rest) = .ok (i, 3) := by
  subst h
  exact decodeCmdBytes_cmdBytes cmd rest

/-- Every command word is the word of the instruction it decodes to (R63). -/
theorem encode_decodeCmd (cmd : BitVec 18) : encode (decodeCmd cmd) = cmdBytes cmd := by
  have hword {op : BitVec 2} (hop : (cmd.extractLsb' 16 2).toNat = op.toNat) :
      cmdBytes (cmdWord op (cmd.extractLsb' 0 16)) = cmdBytes cmd := by
    rw [← BitVec.eq_of_toNat_eq hop]
    exact congrArg cmdBytes (fields_append (n := 16) (k := 2) cmd)
  unfold decodeCmd
  split
  case h_1 h => exact hword (op := 0) h
  case h_2 h => exact hword (op := 1) h
  case h_3 h => exact hword (op := 2) h
  case h_4 h0 h1 h2 =>
    simp only [imp_false] at h0 h1 h2
    have hlt := (cmd.extractLsb' 16 2).isLt
    have h3 : (cmd.extractLsb' 16 2).toNat = 3 := by omega
    exact hword (op := 3) h3

theorem decodeCmd_wellFormed (cmd : BitVec 18) : (decodeCmd cmd).wellFormed = true := by
  unfold decodeCmd
  split <;> rfl

/-- The bytes of the word that three bytes with nothing above bit 17 hold (log 11). -/
theorem cmdBytes_append {b0 b1 b2 : Byte} (h : (b2.extractLsb' 2 6).toNat = 0) :
    cmdBytes (b2.extractLsb' 0 2 ++ b1 ++ b0) = [b0, b1, b2] := by
  have hb2 : b2.toNat < 2 ^ 2 := by
    have := b2.isLt
    rw [BitVec.extractLsb'_toNat, Nat.shiftRight_eq_div_pow] at h
    omega
  have hmid : (b2.extractLsb' 0 2 ++ b1 ++ b0).extractLsb' 8 8 = b1 := by
    apply BitVec.eq_of_toNat_eq
    simp only [append_toNat, BitVec.extractLsb'_toNat, Nat.shiftRight_eq_div_pow]
    omega
  have hhigh : (b2.extractLsb' 0 2 ++ b1 ++ b0).extractLsb' 16 2 = b2.extractLsb' 0 2 := by
    apply BitVec.eq_of_toNat_eq
    simp only [append_toNat, BitVec.extractLsb'_toNat, Nat.shiftRight_eq_div_pow]
    omega
  rw [cmdBytes, field_low, hmid, hhigh, zeroExtend_extract (by decide) hb2]

theorem encode_of_decodeCmdBytes {bytes : List Byte} {i : Instr} {n : Nat} (h : decodeCmdBytes bytes = .ok (i, n)) :
    i.wellFormed = true ∧ encode i = bytes.take n := by
  unfold decodeCmdBytes at h
  split at h
  · split at h
    · rename_i hzero
      cases h
      exact ⟨decodeCmd_wellFormed _, (encode_decodeCmd _).trans (cmdBytes_append hzero)⟩
    · cases h
  · cases h

/-! ### Trace entries -/

theorem decodeTableOperands_bytes (m : BitVec 4) (x : Word) (rest : List Byte) :
    decodeTableOperands (m.zeroExtend 8 :: le32Bytes x ++ rest) = .ok (m, x) := by
  have hm : (m.zeroExtend 8).toNat < 16 := by
    rw [zeroExtend_toNat (by decide)]
    exact m.isLt
  simp only [le32Bytes, List.cons_append, List.nil_append, decodeTableOperands, if_pos hm,
    extract_zeroExtend (show 4 ≤ 8 by decide), le32_bytes]

theorem bytes_of_decodeTableOperands {bytes : List Byte} {m : BitVec 4} {x : Word}
    (h : decodeTableOperands bytes = .ok (m, x)) : m.zeroExtend 8 :: le32Bytes x = bytes.take 5 := by
  unfold decodeTableOperands at h
  split at h
  · split at h
    · rename_i hm
      cases h
      rw [zeroExtend_extract (by decide) hm, le32Bytes_le32]
      rfl
    · cases h
  · cases h

/-- The nine bits of a symbol in two bytes are read back (log 9). -/
theorem decodeSymbolOperand_bytes {sym : BitVec 9} (h : symbolInRange sym = true) (rest : List Byte) :
    decodeSymbolOperand (sym.extractLsb' 0 8 :: (sym.extractLsb' 8 1).zeroExtend 8 :: rest) = .ok sym := by
  have hhigh : ((sym.extractLsb' 8 1).zeroExtend 8).toNat < 2 := by
    rw [zeroExtend_toNat (by decide)]
    exact (sym.extractLsb' 8 1).isLt
  have hsym : sym.extractLsb' 8 1 ++ sym.extractLsb' 0 8 = sym := fields_append (n := 8) (k := 1) sym
  rw [decodeSymbolOperand, extract_zeroExtend (by decide), hsym, h, decide_eq_true hhigh]
  rfl

theorem bytes_of_decodeSymbolOperand {bytes : List Byte} {sym : BitVec 9}
    (h : decodeSymbolOperand bytes = .ok sym) :
    [sym.extractLsb' 0 8, (sym.extractLsb' 8 1).zeroExtend 8] = bytes.take 2 := by
  unfold decodeSymbolOperand at h
  split at h
  · split at h
    · rename_i hc
      cases h
      simp only [Bool.and_eq_true, decide_eq_true_eq] at hc
      obtain ⟨hhigh, -⟩ := hc
      rw [field_low, field_high, zeroExtend_extract (by decide) hhigh]
      rfl
    · cases h
  · cases h

theorem except_map_ok {ε α β : Type} {r : Except ε α} {f : α → β} {b : β} (h : r.map f = .ok b) :
    ∃ a, r = .ok a ∧ f a = b := by
  cases r with
  | error e => cases h
  | ok a => exact ⟨a, rfl, Except.ok.inj h⟩

/-- A code or tag byte and what follows it, as the first bytes read. -/
theorem cons_eq_take {code v : Byte} (h : code.toNat = v.toNat) {k : Nat} {operands rest : List Byte}
    (hrest : operands = rest.take k) : v :: operands = (code :: rest).take (k + 1) := by
  rw [List.take_succ_cons, hrest, BitVec.eq_of_toNat_eq h]

theorem encode_of_decodeUop {bytes : List Byte} {i : Instr} {n : Nat} (h : decodeUop bytes = .ok (i, n)) :
    i.wellFormed = true ∧ encode i = bytes.take n := by
  match bytes with
  | [] => cases h
  | code :: rest =>
    simp only [decodeUop] at h
    split at h
    case h_2 hcode =>
      obtain ⟨⟨m, x⟩, hmx, hi⟩ := except_map_ok h
      cases hi
      exact ⟨rfl, cons_eq_take hcode (bytes_of_decodeTableOperands hmx)⟩
    case h_3 hcode =>
      obtain ⟨⟨m, x⟩, hmx, hi⟩ := except_map_ok h
      cases hi
      exact ⟨rfl, cons_eq_take hcode (bytes_of_decodeTableOperands hmx)⟩
    case h_6 hcode =>
      obtain ⟨sym, hsym, hi⟩ := except_map_ok h
      cases hi
      obtain ⟨-, hrange⟩ := decodeSymbolOperand_ok hsym
      exact ⟨hrange, cons_eq_take hcode (bytes_of_decodeSymbolOperand hsym)⟩
    case h_10 => cases h
    all_goals
      rename_i hcode
      cases h
      exact ⟨rfl, cons_eq_take hcode rfl⟩

/-! ### Records -/

theorem decodeRecord_endTag {tag : Byte} (h : isEndTag tag = true) (count : Nat) (rest : List Byte) :
    decodeRecord count (tag :: rest) = .ok (.endTag tag, 1) := by
  simp only [isEndTag, Bool.or_eq_true, decide_eq_true_eq] at h
  simp only [decodeRecord]
  split
  case h_8 => rfl
  all_goals omega

/-- An `ACC` record's length is its tag and `count` triples (R74). -/
theorem decodeRecord_acc {count : Nat} {rest : List Byte} {ts : List (Triple (BitVec 16))}
    (h : decodeTriples count rest = some ts) :
    decodeRecord count (0x05 :: rest) = .ok (.acc ts, 1 + 6 * count) := by
  simp [decodeRecord, h]

theorem encode_of_decodeRecord {count : Nat} {bytes : List Byte} {i : Instr} {n : Nat} (hc : count ≤ 255)
    (h : decodeRecord count bytes = .ok (i, n)) : i.wellFormed = true ∧ encode i = bytes.take n := by
  match bytes with
  | [] => cases h
  | tag :: rest =>
    simp only [decodeRecord] at h
    split at h
    case h_3 htag =>
      cases h
      exact ⟨rfl, cons_eq_take htag rfl⟩
    case h_5 htag =>
      split at h
      · rename_i ts hts
        cases h
        obtain ⟨hlen, -, hbytes⟩ := decodeTriples_some hts
        rw [Nat.add_comm]
        exact ⟨decide_eq_true (hlen.trans_le hc), cons_eq_take htag hbytes⟩
      · cases h
    case h_8 h1 h2 h3 h4 h5 h6 h7 =>
      cases h
      refine ⟨?_, rfl⟩
      simp only [imp_false] at h1 h2 h3 h4 h5 h6 h7
      simp only [Instr.wellFormed, isEndTag, Bool.or_eq_true, decide_eq_true_eq]
      omega
    all_goals
      rename_i htag
      split at h
      · cases h
        exact ⟨rfl, cons_eq_take htag (by simp [le16Bytes_le16, le32Bytes_le32])⟩
      · cases h

/-! ### Block headers -/

theorem decodeBlock_bytes (q : Byte) (c : BitVec 3) (m : BitVec 5) (seed : Word) (rest : List Byte) :
    decodeBlock (q :: (c ++ m) :: le32Bytes seed ++ rest) = .ok (.blk q c m seed, 6) := by
  have hc : (c ++ m).extractLsb' 5 3 = c := field_high c m
  have hm : (c ++ m).extractLsb' 0 5 = m := field_low c m
  simp only [le32Bytes, List.cons_append, decodeBlock, le32_bytes, hc, hm]

theorem encode_of_decodeBlock {bytes : List Byte} {i : Instr} {n : Nat} (h : decodeBlock bytes = .ok (i, n)) :
    i.wellFormed = true ∧ encode i = bytes.take n := by
  unfold decodeBlock at h
  split at h
  · rename_i b0 b1 b2 b3 b4 b5 rest
    cases h
    refine ⟨rfl, ?_⟩
    have hb1 : b1.extractLsb' 5 3 ++ b1.extractLsb' 0 5 = b1 := fields_append (n := 5) (k := 3) b1
    simp only [encode, le32Bytes_le32, hb1]
    rfl
  · cases h

/-! ### The decoder -/

/-- What the decoder accepts is well formed and is written in the bytes it was read from. -/
theorem encode_of_decode {f : Format} {count : Nat} {bytes : List Byte} {i : Instr} {n : Nat} (hc : count ≤ 255)
    (h : decode f count bytes = .ok (i, n)) : i.wellFormed = true ∧ encode i = bytes.take n := by
  cases f with
  | cmd => exact encode_of_decodeCmdBytes h
  | uop => exact encode_of_decodeUop h
  | record => exact encode_of_decodeRecord hc h
  | block => exact encode_of_decodeBlock h

end Sys2Proof

namespace Sys2Proof.Machine

/-! ### The header -/

theorem headerChecksum_eq (b : Byte) : headerChecksum b = BitVec.ofNat 3 (b.toNat / 32) := by
  rw [← headerChecksum_toNat, BitVec.ofNat_toNat, BitVec.setWidth_eq]

theorem headerModel_eq (b : Byte) : headerModel b = BitVec.ofNat 5 (b.toNat % 32) := by
  rw [← headerModel_toNat, BitVec.ofNat_toNat, BitVec.setWidth_eq]

theorem headerSeed_eq (s : State) :
    headerSeed s = BitVec.ofNat 32 ((inByte s 2).toNat + 2 ^ 8 * (inByte s 3).toNat +
      2 ^ 16 * (inByte s 4).toNat + 2 ^ 24 * (inByte s 5).toNat) := by
  rw [headerSeed, ← le32_toNat, BitVec.ofNat_toNat, BitVec.setWidth_eq]

/-- The state with the fields of the slice's header loaded (R66). -/
def headerFieldsLoaded (s : State) : State :=
  s.mapBlk (Block.loaded (inByte s 0) (headerChecksum (inByte s 1)) (headerModel (inByte s 1)) (headerSeed s))

/-- The fields `HDR` loads, as numbers of the header's bytes (R43, R66). -/
theorem headerFieldsLoaded_eq (s : State) :
    headerFieldsLoaded s = { s with blk := { s.blk with
      qs := s.mem.read s.inBase
      hck := BitVec.ofNat 3 ((s.mem.read (s.inBase + 1)).toNat / 32)
      mi := BitVec.ofNat 5 ((s.mem.read (s.inBase + 1)).toNat % 32)
      rstate := BitVec.ofNat 32 ((s.mem.read (s.inBase + 2)).toNat +
        2 ^ 8 * (s.mem.read (s.inBase + 3)).toNat + 2 ^ 16 * (s.mem.read (s.inBase + 4)).toNat +
        2 ^ 24 * (s.mem.read (s.inBase + 5)).toNat)
      cur := 6 } } := by
  rw [headerFieldsLoaded, headerChecksum_eq, headerModel_eq, headerSeed_eq]
  rfl

theorem hdr_truncated {s : State} (h : s.len.toNat < 6) : hdr s = .fail .truncHdr s := by
  rw [hdr_eq, if_pos h]

theorem hdr_badModel {s : State} (h : 6 ≤ s.len.toNat) (hm : 16 ≤ (inByte s 1).toNat % 32) :
    hdr s = .fail .badModel (headerFieldsLoaded s) := by
  rw [hdr_eq, if_neg (Nat.not_lt.2 h), headerModel_toNat, if_pos hm, headerFieldsLoaded]

theorem hdr_loads {s : State} (h : 6 ≤ s.len.toNat) (hm : (inByte s 1).toNat % 32 < 16) :
    hdr s = .ok () (headerFieldsLoaded s) := by
  rw [hdr_eq, if_neg (Nat.not_lt.2 h), headerModel_toNat, if_neg (Nat.not_le.2 hm), headerFieldsLoaded]

/-- The load of a header tests the model index after the fields (R113). -/
theorem loadHeader_legal {m : BitVec 5} (hm : m.toNat < 16) (q : Byte) (c : BitVec 3) (seed : Word) (s : State) :
    loadHeader q c m seed s = .ok () (s.mapBlk (Block.loaded q c m seed)) :=
  if_neg (Nat.not_le.2 hm)

theorem loadHeader_badModel {m : BitVec 5} (hm : 16 ≤ m.toNat) (q : Byte) (c : BitVec 3) (seed : Word) (s : State) :
    loadHeader q c m seed s = .fail .badModel (s.mapBlk (Block.loaded q c m seed)) :=
  if_pos hm

/-! ### How an operation issued alone ends -/

theorem exec_hdr (s : State) : exec .hdr s = settle (hdr s) := by rfl

theorem exec_blk (q : Byte) (c : BitVec 3) (m : BitVec 5) (seed : Word) (s : State) :
    exec (.blk q c m seed) s = settle (loadHeader q c m seed s) := by rfl

theorem exec_decsym_of_fail {s t : State} {c : Cause} (h : decsym s = .fail c t) :
    exec .decsym s = .next (failExit c t) := by
  change settleReturning UopResult.value (decsym s) = _
  rw [h]
  rfl

/-- A `DECBLK` whose header fails ends there (R112, R154). -/
theorem exec_decblk_of_hdr_fail {n : BitVec 16} {s t : State} {c : Cause}
    (h : hdr (s.mapBlk (Block.begun n)) = .fail c t) : exec (.decblk n) s = .next (failExit c t) := by
  change settle (decblk n s) = _
  rw [decblk, h]
  rfl

/-! ### Where `DECSYM` fails -/

/-- `cum` below the first entry above -128 is in the interval of the sentinel (R70). -/
theorem symbolUnder_sentinel {s : State} (hm : modelOf s < 16)
    (h : cumOf s < romAt s.params (modelOf s) (-127)) : symbolUnder s = -128 :=
  symbolUnder_eq hm ⟨le_rfl, by decide, (romAt_first s.params hm).trans_le (Nat.zero_le _), h⟩

theorem decsym_sentinel {s : State} (hm : modelOf s < 16) (h : symbolUnder s = -128) :
    decsym s = .fail .sentinel s := by
  rw [decsym_eq, if_neg (Nat.not_le.2 hm), if_pos h]

theorem decsym_truncated {s : State} (hm : modelOf s < 16) (hne : symbolUnder s ≠ -128)
    (h : refill (symbolUpdate s.params (modelOf s) s.blk.rstate.toNat (symbolUnder s)) (unreadOf s) = none) :
    ∃ r k, decsym s = .fail .truncRenorm (s.mapBlk (Block.pulledTo r k)) := by
  rw [decsym_eq, if_neg (Nat.not_le.2 hm), if_neg hne, h]
  exact ⟨_, _, rfl⟩

/-! ### Bytes that are no instruction -/

theorem step_of_undecodable {s : State} {why : DecodeError} (h : fetch s = some (.error why)) :
    step s = undecoded why s := by
  rw [step, h]

theorem decodeUop_unnamed {code : Byte} (h : code.toNat = 0 ∨ 0xA ≤ code.toNat) (rest : List Byte) :
    decodeUop (code :: rest) = .error .unnamedUop := by
  simp only [decodeUop]
  split
  case h_10 => rfl
  all_goals omega

theorem decodeBlock_short {bytes : List Byte} (h : bytes.length < 6) : decodeBlock bytes = .error .truncated := by
  unfold decodeBlock
  split
  · simp at h
    omega
  · rfl

end Sys2Proof.Machine

/-! ### The obligations -/

namespace Sys2Proof

open Sys2Proof.Machine

/-- Settles O1, by the instruction: the fields of each format are read back from the bytes they were put into. -/
theorem decodeOfEncodedInstructionIsIt : Obligations.DecodeOfEncodedInstructionIsIt := by
  intro i rest hwf
  cases i with
  | nop n => exact decode_cmdBytes (decodeCmd_cmdWord 0 n) rest
  | clr n => exact decode_cmdBytes (decodeCmd_cmdWord 1 n) rest
  | decblk n => exact decode_cmdBytes (decodeCmd_cmdWord 2 n) rest
  | reservedCmd n => exact decode_cmdBytes (decodeCmd_cmdWord 3 n) rest
  | cdf m x => exact congrArg (Except.map _) (decodeTableOperands_bytes m x rest)
  | icdf m y => exact congrArg (Except.map _) (decodeTableOperands_bytes m y rest)
  | ckadd sym => exact congrArg (Except.map _) (decodeSymbolOperand_bytes hwf rest)
  | hdr | decsym | renorm | apply | emit | verify | gyro | accsetup | orient => rfl
  | setup revision capacity => exact congrArg (fun v => Except.ok (Instr.setup revision v, 4)) (le16_bytes capacity)
  | dt dtUs => exact congrArg (fun v => Except.ok (Instr.dt v, 5)) (le32_bytes dtUs)
  | toff offset => exact congrArg (fun v => Except.ok (Instr.toff v, 5)) (le32_bytes offset)
  | acc triples =>
    refine (decodeRecord_acc (decodeTriples_bytes triples rest)).trans ?_
    rw [encode, List.length_cons, tripleBytes_length, Nat.add_comm]
  | endTag tag => exact decodeRecord_endTag hwf 0 rest
  | blk q c m seed => exact decodeBlock_bytes q c m seed rest

/-- Settles O2: where the bytes lie is `decode_ok`, that they are the encoding is `encode_of_decode`. -/
theorem encodingOfDecodedBytesIsTheBytes : Obligations.EncodingOfDecodedBytesIsTheBytes := by
  intro f count bytes i n hc h
  obtain ⟨-, hlen, -, hformat⟩ := decode_ok hc h
  obtain ⟨hwf, hbytes⟩ := encode_of_decode hc h
  exact ⟨hwf, hformat, hlen, hbytes⟩

/-- Settles O25: `DECBLK` ends where its header fails, and the header writes neither `S`, `OVF` nor a slot. -/
theorem headerFailuresComeFirst : Obligations.HeaderFailuresComeFirst := by
  refine fun n s => ⟨fun hlen => ?_, fun hlen hm => ?_⟩
  · exact ⟨_, exec_decblk_of_hdr_fail (hdr_truncated hlen), rfl, rfl, rfl, rfl, rfl⟩
  · exact ⟨_, exec_decblk_of_hdr_fail (hdr_badModel hlen hm), rfl, rfl, rfl, rfl, rfl⟩

/-- Settles O30, from `hdr_loads`. -/
theorem hdrLoadsTheHeaderFields : Obligations.HdrLoadsTheHeaderFields := by
  intro s hlen hm
  rw [exec_hdr, hdr_loads hlen hm, headerFieldsLoaded_eq]
  rfl

/-- Settles O31: the failure exit from the state as it was, or with the fields loaded. -/
theorem hdrFailsOnShortOrReserved : Obligations.HdrFailsOnShortOrReserved := by
  refine fun s => ⟨fun hlen => ?_, fun hlen hm => ?_⟩
  · rw [exec_hdr, hdr_truncated hlen]
    rfl
  · rw [exec_hdr, hdr_badModel hlen hm, headerFieldsLoaded_eq]
    rfl

/-- Settles O40: the symbol under the register is the sentinel, or one whose update the unread bytes do not refill. -/
theorem decsymFailsOnSentinelOrTruncation : Obligations.DecsymFailsOnSentinelOrTruncation := by
  refine fun s hm => ⟨fun hcum => ?_, fun x hne hx hnone => ?_⟩
  · rw [exec_decsym_of_fail (decsym_sentinel hm (symbolUnder_sentinel hm hcum))]
    rfl
  · obtain rfl : symbolUnder s = x := symbolUnder_eq hm hx
    obtain ⟨r, k, hfail⟩ := decsym_truncated hm hne hnone
    exact ⟨BitVec.ofNat 32 r, s.blk.cur + BitVec.ofNat 32 k, exec_decsym_of_fail hfail⟩

/-- Settles O3, by evaluating the decoder on the written words. -/
theorem writtenWordsDecodeToTheirInstructions : Obligations.WrittenWordsDecodeToTheirInstructions :=
  ⟨rfl, rfl, rfl, rfl, rfl, rfl⟩

/-- Settles O4: the fetch of a trace entry decodes it, and an unnamed code decodes to nothing. -/
theorem unnamedTraceCodesAreRefused : Obligations.UnnamedTraceCodesAreRefused := by
  intro s code rest hreq hcode
  have hfetch : fetch s = some (.error .unnamedUop) :=
    (fetch_trace hreq).trans (congrArg some (decodeUop_unnamed hcode rest))
  rw [step_of_undecodable hfetch, undecoded, hreq]

/-- Settles O7: fewer than six bytes are no header. -/
theorem sliceTooShortForAHeaderFails : Obligations.SliceTooShortForAHeaderFails := by
  intro s hreq hlen
  have hfetch : fetch s = some (.error .truncated) :=
    (fetch_slice hreq).trans (congrArg some (decodeBlock_short (by rwa [sliceOf_length])))
  rw [step_of_undecodable hfetch, undecoded, hreq]
  rfl

/-- Settles O32, by the test of the model index. -/
theorem blkLoadsItsFields : Obligations.BlkLoadsItsFields := by
  refine fun q c m seed s => ⟨fun hm => ?_, fun hm => ?_⟩
  · rw [exec_blk, loadHeader_legal hm]
    rfl
  · rw [exec_blk, loadHeader_badModel hm]
    rfl

end Sys2Proof
end

section
/-! SUPPORT. The CDF model of 40_cdf_model.md beyond Laws/Cdf: how far a table entry lies from the ends, the sum of
the bucket widths, `CDF` as a monotone function of the integers, and the symbol `ICDF` returns; then the statements
about the tables, `CDF` and `ICDF`. -/

namespace Sys2Proof.Machine

/-! ### The tables -/

/-- Since each entry is below the next (P3), `k` steps up the table rise by at least `k`. -/
theorem romAt_add_le (p : Params) {m : Nat} (hm : m < 16) {x : Int} (h1 : -128 ≤ x) (k : Nat)
    (h2 : x + k ≤ 129) : romAt p m x + k ≤ romAt p m (x + k) := by
  induction k with
  | zero => simp
  | succ k ih =>
    have hbelow := ih (by omega)
    have hstep := romAt_lt_succ p hm (x := x + k) (by omega) (by omega)
    rw [Nat.cast_succ, ← add_assoc x]
    omega

theorem romAt_add_sub_le (p : Params) {m : Nat} (hm : m < 16) {x y : Int} (h1 : -128 ≤ x) (hxy : x ≤ y)
    (h2 : y ≤ 129) : (romAt p m x : Int) + (y - x) ≤ romAt p m y := by
  obtain ⟨k, rfl⟩ := Int.le.dest hxy
  have h := romAt_add_le p hm h1 k h2
  omega

/-- The number of entries below `x` bounds its entry from below (R81). -/
theorem le_romAt (p : Params) {m : Nat} (hm : m < 16) {x : Int} (h1 : -128 ≤ x) (h2 : x ≤ 129) :
    x + 128 ≤ romAt p m x := by
  have h := romAt_add_sub_le p hm le_rfl h1 h2
  rw [romAt_first p hm] at h
  omega

/-- The number of entries above `x` bounds its entry from above (R81). -/
theorem romAt_le (p : Params) {m : Nat} (hm : m < 16) {x : Int} (h1 : -128 ≤ x) (h2 : x ≤ 129) :
    (romAt p m x : Int) ≤ 2 ^ p.scale - 129 + x := by
  have h := romAt_add_sub_le p hm h1 h2 le_rfl
  rw [romAt_last p hm] at h
  push_cast at h
  omega

/-- The widths of the buckets from -128 up telescope to the last entry reached. -/
theorem sum_bucket_widths (p : Params) {m : Nat} (hm : m < 16) (n : Nat) (hn : n ≤ 257) :
    ((List.range n).map fun k : Nat => romAt p m ((k : Int) - 127) - romAt p m ((k : Int) - 128)).sum =
      romAt p m ((n : Int) - 128) := by
  induction n with
  | zero => exact (romAt_first p hm).symm
  | succ n ih =>
    have hstep := romAt_lt_succ p hm (x := (n : Int) - 128) (by omega) (by omega)
    rw [List.sum_range_succ, ih (by omega), show ((n + 1 : Nat) : Int) - 128 = (n : Int) - 128 + 1 by omega,
      show (n : Int) - 127 = (n : Int) - 128 + 1 by omega]
    omega

theorem params_two_pow_scale_ge (p : Params) : 2 ^ 9 ≤ 2 ^ p.scale :=
  Nat.pow_le_pow_right (by decide) (params_scale_ge p)

/-! ### `CDF` -/

theorem cdf_le (p : Params) {m : Nat} (hm : m < 16) (x : Int) : cdf p m x ≤ 2 ^ p.scale := by
  rcases le_or_gt x (-128) with hlow | hlow
  · rw [cdf_low p m hlow]
    exact Nat.zero_le _
  · rcases lt_or_ge 128 x with hhigh | hhigh
    · exact (cdf_high p m hhigh).le
    · rw [cdf_eq_romAt p hm hlow.le (by omega)]
      exact romAt_le_last p hm hlow.le (by omega)

/-- The buckets of the 257 symbols are not empty (R86). -/
theorem cdf_lt_succ (p : Params) {m : Nat} (hm : m < 16) {x : Int} (h1 : -128 ≤ x) (h2 : x ≤ 128) :
    cdf p m x < cdf p m (x + 1) := by
  rw [cdf_eq_romAt p hm h1 (by omega), cdf_eq_romAt p hm (by omega) (by omega)]
  exact romAt_lt_succ p hm h1 h2

/-- Below the table `CDF` is flat, above it too, and within it the table rises (R86). -/
theorem cdf_monotone (p : Params) {m : Nat} (hm : m < 16) : Monotone (cdf p m) := by
  refine monotone_int_of_le_succ fun x => ?_
  rcases lt_or_ge x (-128) with hlow | hlow
  · rw [cdf_low p m hlow.le]
    exact Nat.zero_le _
  · rcases lt_or_ge 128 x with hhigh | hhigh
    · rw [cdf_high p m (show 128 < x + 1 by omega)]
      exact cdf_le p hm x
    · exact (cdf_lt_succ p hm hlow hhigh).le

/-! ### `ICDF` -/

/-- `ICDF` returns the symbol whose interval holds `y`: R83 from the symbol's side. -/
theorem icdf_eq (p : Params) {m y : Nat} (hm : m < 16) {x : Int} (h1 : -128 ≤ x) (h2 : x ≤ 128)
    (hle : cdf p m x ≤ y) (hlt : y < cdf p m (x + 1)) : icdf p m y = x := by
  have hy : y < 2 ^ p.scale := hlt.trans_le (cdf_le p hm _)
  rw [cdf_eq_romAt p hm h1 (by omega)] at hle
  rw [cdf_eq_romAt p hm (by omega) (by omega)] at hlt
  obtain ⟨hlow, hhigh, hle', hlt'⟩ := icdf_interval p hm hy
  exact interval_unique p hm hlow hhigh h1 h2 ⟨hle', hlt'⟩ ⟨hle, hlt⟩

/-- `icdf_interval` with the bounds read through `CDF`, as R83 has them. -/
theorem icdf_spec (p : Params) {m y : Nat} (hm : m < 16) (hy : y < 2 ^ p.scale) :
    -128 ≤ icdf p m y ∧ icdf p m y ≤ 128 ∧ cdf p m (icdf p m y) ≤ y ∧ y < cdf p m (icdf p m y + 1) := by
  obtain ⟨hlow, hhigh, hle, hlt⟩ := icdf_interval p hm hy
  rw [← cdf_eq_romAt p hm hlow (by omega)] at hle
  rw [← cdf_eq_romAt p hm (by omega) (by omega)] at hlt
  exact ⟨hlow, hhigh, hle, hlt⟩

/-! ### The operations issued alone -/

theorem exec_cdf (m : BitVec 4) (x : Word) (s : State) :
    exec (.cdf m x) s = .next { s with ret := .value (cdf s.params m.toNat x.toInt) } := by rfl

theorem exec_icdf_of_lt {y : Word} {s : State} (h : y.toNat < 2 ^ s.params.scale) (m : BitVec 4) :
    exec (.icdf m y) s = .next { s with ret := .value (icdf s.params m.toNat y.toNat) } :=
  if_pos h

/-- Outside the domain the result is the next free value (D22, log 13). -/
theorem exec_icdf_of_ge {y : Word} {s : State} (h : 2 ^ s.params.scale ≤ y.toNat) (m : BitVec 4) :
    exec (.icdf m y) s =
      .next { s with ret := .value (Config.freeInt s.freeCtr), freeCtr := s.freeCtr + 1 } :=
  if_neg (Nat.not_lt.2 h)

end Sys2Proof.Machine

namespace Sys2Proof

open Sys2Proof.Machine

/-- Settles O9: P1, P2 and P3 are what `Params` carries; the bounds count the entries to either end of the table. -/
theorem tablesMeetTheirConstraints : Obligations.TablesMeetTheirConstraints := by
  intro p m hm
  refine ⟨romAt_first p hm, romAt_last p hm, fun x h1 h2 => romAt_lt_succ p hm h1 h2, fun x h1 h2 => ?_, ?_, ?_,
    params_scale_ge p⟩
  · have hlow := le_romAt p hm h1 (by omega)
    have hhigh := romAt_le p hm (x := x + 1) (by omega) (by omega)
    have hstep := romAt_lt_succ p hm h1 h2
    exact ⟨hlow, romAt_le p hm h1 (by omega), by omega, by omega⟩
  · rw [sum_bucket_widths p hm 257 le_rfl]
    exact romAt_last p hm
  · exact le_trans (by decide) (params_two_pow_scale_ge p)

/-- Settles O33, by the range that `x` lies in. -/
theorem cdfLooksUpTheTable : Obligations.CdfLooksUpTheTable := by
  intro m x s
  refine ⟨_, exec_cdf m x s, cdf_low _ _, cdf_high _ _, fun hlow hhigh => ?_⟩
  exact cdf_eq_romAt s.params m.isLt hlow.le (by omega)

/-- Settles O34. -/
theorem cdfIsMonotoneWithoutEmptyBuckets : Obligations.CdfIsMonotoneWithoutEmptyBuckets :=
  fun p _ hm => ⟨fun _ _ h => cdf_monotone p hm h.le, fun _ h1 h2 => cdf_lt_succ p hm h1 h2⟩

/-- Settles O35: the search of R84 ends in the interval of `y`, and no other symbol's interval holds `y`. -/
theorem icdfFindsTheUniqueSymbol : Obligations.IcdfFindsTheUniqueSymbol := by
  intro m y s hy
  obtain ⟨hlow, hhigh, hle, hlt⟩ := icdf_spec s.params m.isLt hy
  refine ⟨_, exec_icdf_of_lt hy m, hlow, hhigh, hle, hlt, fun z h1 h2 hz hz' => ?_⟩
  exact (icdf_eq s.params m.isLt h1 h2 hz hz').symm

/-- Settles O37: the first and the last value of a symbol's interval lie in it, since it is not empty. -/
theorem cdfAndIcdfRoundTrip : Obligations.CdfAndIcdfRoundTrip := by
  intro p m x hm h1 h2
  have hbucket := cdf_lt_succ p hm h1 h2
  exact ⟨icdf_eq p hm h1 h2 le_rfl hbucket, icdf_eq p hm h1 h2 (by omega) (by omega)⟩

/-- Settles O36: the result is a free value. -/
theorem icdfOutsideItsDomainCompletes : Obligations.IcdfOutsideItsDomainCompletes :=
  fun m _ _ hy => ⟨_, exec_icdf_of_ge hy m⟩

end Sys2Proof
end

section
/-! SUPPORT. The arithmetic of 41_rans_decode.md (R92, R93): how many bytes `refill` draws, the least value a symbol
leaves in an in-range register, and `CUR` after the bytes drawn; then the statements about `DECSYM` and `RENORM`. -/

namespace Sys2Proof.Machine

/-! ### The bytes `refill` draws -/

/-- A value that `k` bytes of zeros would bring into range needs at most `k` bytes, whatever they are (R93). -/
theorem exists_refill_within {r k : Nat} (h : 2 ^ 23 ≤ r * 256 ^ k) {bytes : List Byte} (hk : k ≤ bytes.length) :
    ∃ r' left, refill r bytes = some (r', left) ∧ bytes.length ≤ left.length + k := by
  induction k generalizing r bytes with
  | zero => exact ⟨r, bytes, refill_of_le (by simpa using h) bytes, le_rfl⟩
  | succ k ih =>
    by_cases hr : 2 ^ 23 ≤ r
    · exact ⟨r, bytes, refill_of_le hr bytes, Nat.le_add_right _ _⟩
    · cases bytes with
      | nil => cases hk
      | cons b rest =>
        have hnext : 2 ^ 23 ≤ (r * 256 + b.toNat) * 256 ^ k := calc
          2 ^ 23 ≤ r * 256 ^ (k + 1) := h
          _ = r * 256 * 256 ^ k := by ring
          _ ≤ (r * 256 + b.toNat) * 256 ^ k := Nat.mul_le_mul_right _ (Nat.le_add_right _ _)
        obtain ⟨r', left, href, hlen⟩ := ih hnext (Nat.le_of_succ_le_succ hk)
        rw [refill, if_neg hr]
        exact ⟨r', left, href, Nat.succ_le_succ hlen⟩

theorem refill_draws_le {r k : Nat} (h : 2 ^ 23 ≤ r * 256 ^ k) {bytes left : List Byte} {r' : Nat}
    (href : refill r bytes = some (r', left)) : bytes.length ≤ left.length + k := by
  rcases le_total k bytes.length with hk | hk
  · obtain ⟨_, _, href', hlen⟩ := exists_refill_within h hk
    cases href.symm.trans href'
    exact hlen
  · omega

/-! ### The least value a symbol leaves -/

/-- An in-range register has a quotient of at least `2^(23 - SCALE)`, and no bucket is empty (R93). -/
theorem le_symbolUpdate_mul {p : Params} {m r : Nat} {x : Int} (hx : inInterval p m (r % 2 ^ p.scale) x)
    (hr : 2 ^ 23 ≤ r) : 2 ^ 23 ≤ symbolUpdate p m r x * 2 ^ p.scale := by
  obtain ⟨-, -, hle, hlt⟩ := hx
  have hpow : 2 ^ (23 - p.scale) * 2 ^ p.scale = 2 ^ 23 := by
    rw [← pow_add, Nat.sub_add_cancel (params_scale_le p)]
  have hquot : 2 ^ (23 - p.scale) ≤ r / 2 ^ p.scale :=
    (Nat.le_div_iff_mul_le (Nat.two_pow_pos _)).2 (hpow.trans_le hr)
  have hfreq : r / 2 ^ p.scale ≤ (romAt p m (x + 1) - romAt p m x) * (r / 2 ^ p.scale) :=
    Nat.le_mul_of_pos_left _ (Nat.sub_pos_of_lt (hle.trans_lt hlt))
  calc 2 ^ 23 = 2 ^ (23 - p.scale) * 2 ^ p.scale := hpow.symm
    _ ≤ symbolUpdate p m r x * 2 ^ p.scale :=
      Nat.mul_le_mul_right _ ((hquot.trans hfreq).trans (Nat.le_add_right _ _))

/-- `ceil(SCALE / 8)` bytes shift by at least `SCALE` bits. -/
theorem two_pow_scale_le_bytes (n : Nat) : 2 ^ n ≤ 256 ^ ((n + 7) / 8) := by
  rw [show 256 = 2 ^ 8 by rfl, ← pow_mul]
  exact Nat.pow_le_pow_right (by decide) (by omega)

/-- From an in-range register, `ceil(SCALE / 8)` bytes bring the updated value back into range (R93). -/
theorem le_symbolUpdate_mul_bytes {p : Params} {m r : Nat} {x : Int} (hx : inInterval p m (r % 2 ^ p.scale) x)
    (hr : 2 ^ 23 ≤ r) : 2 ^ 23 ≤ symbolUpdate p m r x * 256 ^ ((p.scale + 7) / 8) :=
  (le_symbolUpdate_mul hx hr).trans (Nat.mul_le_mul_left _ (two_pow_scale_le_bytes _))

theorem params_scale_bytes_le (p : Params) : (p.scale + 7) / 8 ≤ 3 := by
  have := params_scale_le p
  omega

/-! ### `RSTATE` and `CUR` after the bytes drawn -/

/-- `CUR` counts the bytes drawn without wrapping; where the cursor lies past the slice there are none to draw. -/
theorem pulledTo_cur_toNat {s : State} {k : Nat} (hk : k ≤ (unreadOf s).length) (r : Nat) :
    (s.mapBlk (Block.pulledTo r k)).blk.cur.toNat = s.blk.cur.toNat + k := by
  have hlen := s.len.isLt
  rw [unreadOf_length] at hk
  simp only [mapBlk_blk, Block.pulledTo, BitVec.toNat_add, BitVec.toNat_ofNat]
  omega

theorem pulledTo_rstate_toNat {r : Nat} (hr : r < 2 ^ 32) (s : State) (k : Nat) :
    (s.mapBlk (Block.pulledTo r k)).blk.rstate.toNat = r :=
  (BitVec.toNat_ofNat r 32).trans (Nat.mod_eq_of_lt hr)

/-- The cursor that leaves `j` bytes of the slice unread. -/
theorem cur_add_drawn {s : State} (hc : s.blk.cur.toNat ≤ s.len.toNat) {j : Nat} (hj : j ≤ (unreadOf s).length) :
    s.blk.cur + BitVec.ofNat 32 ((unreadOf s).length - j) = BitVec.ofNat 32 (s.len.toNat - j) := by
  have hlen := s.len.isLt
  rw [unreadOf_length] at hj ⊢
  apply BitVec.eq_of_toNat_eq
  simp only [BitVec.toNat_add, BitVec.toNat_ofNat]
  omega

/-- The registers after a successful `refill` of the unread bytes, as R91 has them. -/
theorem pulledTo_of_refill {s : State} (hc : s.blk.cur.toNat ≤ s.len.toNat) {v r : Nat} {left : List Byte}
    (href : refill v (unreadOf s) = some (r, left)) :
    s.mapBlk (Block.pulledTo r ((unreadOf s).length - left.length)) =
      { s with blk := { s.blk with
        rstate := BitVec.ofNat 32 r, cur := BitVec.ofNat 32 (s.len.toNat - left.length) } } := by
  rw [State.mapBlk, Block.pulledTo, cur_add_drawn hc (refill_length href)]

/-! ### The operations issued alone -/

theorem exec_renorm (s : State) : exec .renorm s = settle (renorm s) := by rfl

theorem exec_renorm_of_refill {s : State} {r : Nat} {left : List Byte}
    (href : refill s.blk.rstate.toNat (unreadOf s) = some (r, left)) :
    exec .renorm s = .next (s.mapBlk (Block.pulledTo r ((unreadOf s).length - left.length))) := by
  rw [exec_renorm, renorm_eq, href]
  rfl

theorem exec_renorm_truncated {s : State} (href : refill s.blk.rstate.toNat (unreadOf s) = none) :
    exec .renorm s = .next (failExit .truncRenorm
      (s.mapBlk (Block.pulledTo (drawAll s.blk.rstate.toNat (unreadOf s)) (unreadOf s).length))) := by
  rw [exec_renorm, renorm_eq, href]
  rfl

theorem exec_decsym_of_ok {s t : State} {x : Int} (h : decsym s = .ok x t) :
    exec .decsym s = .next (t.returning (.value x)) := by
  change settleReturning UopResult.value (decsym s) = _
  rw [h]
  rfl

/-- With a table, no sentinel and enough bytes, `DECSYM` returns the symbol under the register (R90). -/
theorem decsym_of_refill {s : State} (hm : modelOf s < 16) (hne : symbolUnder s ≠ -128) {r : Nat} {left : List Byte}
    (href : refill (symbolUpdate s.params (modelOf s) s.blk.rstate.toNat (symbolUnder s)) (unreadOf s) =
      some (r, left)) :
    decsym s = .ok (symbolUnder s) (s.mapBlk (Block.pulledTo r ((unreadOf s).length - left.length))) := by
  rw [decsym_eq, if_neg (Nat.not_le.2 hm), if_neg hne, href]

/-- From the first entry above -128 on, `cum` is in no sentinel's interval (R70). -/
theorem symbolUnder_ne_sentinel {s : State} (hm : modelOf s < 16)
    (h : romAt s.params (modelOf s) (-127) ≤ cumOf s) : symbolUnder s ≠ -128 := by
  intro hx
  obtain ⟨-, -, -, hlt⟩ := symbolUnder_interval hm
  rw [hx] at hlt
  exact absurd h (Nat.not_le.2 hlt)

/-- `DECSYM` never moves the cursor back, and from an in-range register by `ceil(SCALE / 8)` bytes at most (R93). -/
theorem decsym_ok_cursor {s t : State} {x : Int} (h : decsym s = .ok x t) :
    s.blk.cur.toNat ≤ t.blk.cur.toNat ∧
      (2 ^ 23 ≤ s.blk.rstate.toNat → t.blk.cur.toNat ≤ s.blk.cur.toNat + (s.params.scale + 7) / 8) := by
  obtain ⟨hm, rfl, -, r, left, href, rfl⟩ := decsym_ok h
  rw [pulledTo_cur_toNat (Nat.sub_le _ _)]
  refine ⟨Nat.le_add_right _ _, fun hr => ?_⟩
  have hdrawn := refill_draws_le (le_symbolUpdate_mul_bytes (symbolUnder_interval hm) hr) href
  omega

/-- `DECSYM` leaves a register of at least `2^23`, below `2^31` if it moved the cursor (R93), and lowers it if it did
not (R92). -/
theorem decsym_ok_register {s t : State} {x : Int} (h : decsym s = .ok x t) :
    2 ^ 23 ≤ t.blk.rstate.toNat ∧ (t.blk.cur ≠ s.blk.cur → t.blk.rstate.toNat < 2 ^ 31) ∧
      (t.blk.cur = s.blk.cur → t.blk.rstate.toNat < s.blk.rstate.toNat) := by
  obtain ⟨hm, rfl, hne, r, left, href, rfl⟩ := decsym_ok h
  have hlower := symbolUpdate_lt hm hne
  obtain ⟨hrange, hnone, hsome⟩ := refill_spec href
  have hcur := pulledTo_cur_toNat (Nat.sub_le (unreadOf s).length left.length) r
  rw [pulledTo_rstate_toNat (refill_lt (hlower.trans (BitVec.isLt _)) href)]
  rcases lt_or_eq_of_le (refill_length href) with hlt | heq
  · obtain ⟨-, hbelow⟩ := hsome hlt
    refine ⟨hrange, fun _ => hbelow, fun hsame => ?_⟩
    rw [hsame] at hcur
    omega
  · obtain ⟨hr, -⟩ := hnone heq
    refine ⟨hrange, fun hmoved => absurd (BitVec.eq_of_toNat_eq ?_) hmoved, fun _ => hr ▸ hlower⟩
    rw [hcur, heq, Nat.sub_self, Nat.add_zero]

end Sys2Proof.Machine

namespace Sys2Proof

open Sys2Proof.Machine

/-- Settles O38: the symbol whose interval holds `cum` is the one under the register. -/
theorem decsymReturnsTheSymbol : Obligations.DecsymReturnsTheSymbol := by
  intro s x r left hm hne hc hx href
  obtain rfl : symbolUnder s = x := symbolUnder_eq hm hx
  rw [exec_decsym_of_ok (decsym_of_refill hm hne href), pulledTo_of_refill hc href]
  rfl

/-- Settles O41, from what a `DECSYM` that returns does to the register and to the cursor. -/
theorem decsymKeepsTheRegisterInRange : Obligations.DecsymKeepsTheRegisterInRange := by
  intro s t x h
  obtain ⟨hrange, hpulled, hlower⟩ := decsym_ok_register h
  obtain ⟨-, hcur⟩ := decsym_ok_cursor h
  exact ⟨fun hr => ⟨hrange, t.blk.rstate.isLt, hpulled, hcur hr,
    (hcur hr).trans (Nat.add_le_add_left (params_scale_bytes_le s.params) _)⟩, hlower⟩

/-- Settles O39: three bytes are enough for the updated value of an in-range register. -/
theorem decsymCompletesInRange : Obligations.DecsymCompletesInRange := by
  intro s hm hr hcum hbytes
  have hx := symbolUnder_interval (s := s) hm
  have hne := symbolUnder_ne_sentinel (s := s) hm hcum
  have hscale := params_scale_bytes_le s.params
  obtain ⟨r, left, href, -⟩ := exists_refill_within (le_symbolUpdate_mul_bytes hx hr)
    (bytes := unreadOf s) (by rw [unreadOf_length]; omega)
  have hok := decsym_of_refill hm hne href
  obtain ⟨hrange, -, -⟩ := decsym_ok_register hok
  obtain ⟨hforward, hcur⟩ := decsym_ok_cursor hok
  obtain ⟨hlow, hhigh, -, -⟩ := hx
  exact ⟨_, _, exec_decsym_of_ok hok, rfl, by omega, hhigh, rfl, hrange, hforward,
    (hcur hr).trans (Nat.add_le_add_left hscale _)⟩

/-- Settles O43: where the slice ends first, all its unread bytes were drawn. -/
theorem renormPullsBytesUntilInRange : Obligations.RenormPullsBytesUntilInRange := by
  refine fun s hc => ⟨fun r left href => ?_, fun href => ?_⟩
  · rw [exec_renorm_of_refill href, pulledTo_of_refill hc href]
  · have hend : s.blk.cur + BitVec.ofNat 32 (unreadOf s).length = s.len :=
      (cur_add_drawn hc (Nat.zero_le _)).trans (by simp)
    refine ⟨BitVec.ofNat 32 (drawAll s.blk.rstate.toNat (unreadOf s)), ?_⟩
    rw [exec_renorm_truncated href, State.mapBlk, Block.pulledTo, hend]
    rfl

end Sys2Proof
end

section
/-! SUPPORT. The arithmetic of 42_integrator.md (R100 to R105): the exact sum of an axis as a number, what it comes to
where the shift is 32 or more and where it fits in 32 bits, and the states `APPLY` and `EMIT` leave; then the statements
about them. -/

namespace Sys2Proof.Machine

/-! ### The exact sum of one axis -/

theorem axisSum_eq (w : Word) (sym : BitVec 9) (qs : Byte) :
    axisSum w sym qs = w.toInt + sym.toInt * 2 ^ qs.toNat :=
  congrArg (fun p => w.toInt + sym.toInt * p) (Nat.cast_pow 2 qs.toNat)

theorem overflows_iff (v : Int) : overflows v = true ↔ v < -2 ^ 31 ∨ 2 ^ 31 - 1 < v := by
  simp [overflows]

/-- A sum that does not overflow is kept by the wrap (R104). -/
theorem wrap32_toInt_of_not_overflows {v : Int} (h : overflows v = false) : (wrap32 v).toInt = v := by
  have hfits : ¬ (v < -2 ^ 31 ∨ 2 ^ 31 - 1 < v) := fun hv => by simp [(overflows_iff v).2 hv] at h
  exact BitVec.toInt_ofInt_eq_self (by decide) (by omega) (by omega)

/-- From a shift of 32 on, an axis moves by a multiple of `2^32`, which is 0 only for the symbol 0 (R105). -/
theorem exists_axisSum_of_le_qs {qs : Byte} (h : 32 ≤ qs.toNat) (w : Word) (sym : BitVec 9) :
    ∃ k : Int, axisSum w sym qs = w.toInt + 2 ^ 32 * k ∧ (k = 0 ↔ sym = 0) := by
  refine ⟨sym.toInt * 2 ^ (qs.toNat - 32), ?_, ?_⟩
  · rw [axisSum_eq, mul_left_comm, ← pow_add, Nat.add_sub_cancel' h]
  · rw [mul_eq_zero_iff_right (by positivity), ← BitVec.toInt_inj]
    rfl

theorem wrap32_axisSum_of_le_qs {qs : Byte} (h : 32 ≤ qs.toNat) (w : Word) (sym : BitVec 9) :
    wrap32 (axisSum w sym qs) = w := by
  obtain ⟨k, hsum, -⟩ := exists_axisSum_of_le_qs h w sym
  apply BitVec.eq_of_toInt_eq
  calc (wrap32 (axisSum w sym qs)).toInt = (w.toInt + 2 ^ 32 * k).bmod (2 ^ 32) := by
        rw [hsum, wrap32, BitVec.toInt_ofInt]
    _ = w.toInt.bmod (2 ^ 32) := Int.add_mul_bmod_self_left ..
    _ = w.toInt := BitVec.toInt_bmod_cancel w

theorem overflows_axisSum_of_le_qs {qs : Byte} (h : 32 ≤ qs.toNat) (w : Word) (sym : BitVec 9) :
    overflows (axisSum w sym qs) = true ↔ sym ≠ 0 := by
  obtain ⟨k, hsum, hk⟩ := exists_axisSum_of_le_qs h w sym
  have hlow := BitVec.le_toInt w
  have hhigh := BitVec.toInt_lt (x := w)
  rw [overflows_iff, hsum, ne_eq, ← hk]
  omega

/-! ### The conditions of a triple -/

/-- `SAT` in terms of magnitudes (R101). -/
theorem saturated_eq (sym : Triple (BitVec 9)) :
    saturated sym =
      decide (sym.x.toInt.natAbs = 127 ∨ sym.y.toInt.natAbs = 127 ∨ sym.z.toInt.natAbs = 127) := by
  have hescape (v : BitVec 9) : isEscape v = decide (v.toInt.natAbs = 127) := by
    rw [isEscape, ← Bool.decide_or]
    exact decide_eq_decide.2 Int.natAbs_eq_iff.symm
  simp only [saturated, hescape, Bool.decide_or, Bool.or_assoc]

/-! ### The operations issued alone -/

theorem exec_apply (s : State) :
    exec .apply s = .next ((s.mapBlk Block.applied).returning (.sat (saturated s.blk.sym))) := by rfl

theorem exec_apply_blk {s t : State} (h : exec .apply s = .next t) : t.blk = s.blk.applied := by
  cases (exec_apply s).symm.trans h
  rfl

theorem exec_emit (s : State) : exec .emit s = .next (emitted s) := by rfl

end Sys2Proof.Machine

namespace Sys2Proof

open Sys2Proof.Machine

/-- Settles O47: the sums, `OVF` and `sat` of the model in plain integers. -/
theorem applyMovesEachLane : Obligations.ApplyMovesEachLane := by
  intro s
  simp only [← axisSum_eq, ← overflows_eq_outsideI32, ← saturated_eq, Bool.or_assoc]
  rw [exec_apply, State.mapBlk, Block.applied, applyOverflows, Bool.or_assoc]
  rfl

/-- Settles O48: the lanes move by multiples of `2^32`. -/
theorem largeShiftsLeaveTheStateAndFlagIt : Obligations.LargeShiftsLeaveTheStateAndFlagIt := by
  intro s t hqs h
  rw [exec_apply_blk h]
  constructor
  · simp only [Block.applied_regW, integrated, wrap32_axisSum_of_le_qs hqs]
  · simp only [Block.applied_ovf, applyOverflows, Bool.or_eq_true, overflows_axisSum_of_le_qs hqs, or_assoc]

/-- Settles O49: with `OVF` clear no lane's sum overflows, so the wrap keeps each. -/
theorem withoutOverflowTheSumsAreExact : Obligations.WithoutOverflowTheSumsAreExact := by
  intro s t h hovf
  rw [exec_apply_blk h] at hovf ⊢
  simp only [Block.applied_ovf, applyOverflows, Bool.or_eq_false_iff] at hovf
  obtain ⟨-, ⟨hx, hy⟩, hz⟩ := hovf
  simp only [← axisSum_eq]
  exact ⟨wrap32_toInt_of_not_overflows hx, wrap32_toInt_of_not_overflows hy, wrap32_toInt_of_not_overflows hz⟩

/-- Settles O50, from the rules about slots. -/
theorem emitStoresTheSample : Obligations.EmitStoresTheSample := by
  intro s
  refine ⟨emitted s, exec_emit s, outSlot_memWriteOut_same s _ _, fun k hk => outSlot_memWriteOut_other hk s _,
    fun hlt => ?_, rfl⟩
  exact BitVec.toNat_add_of_lt (Nat.succ_lt_succ hlt)

end Sys2Proof
end

section
/-! SUPPORT. The block sequencer as a whole (43_block_sequencer.md): `DECBLK` of no samples, where the last sample
stands, and what `DECBLK` depends on (R120), by a relation between two runs that every micro-operation keeps; then the
statements about the commands and the checksum. -/

namespace Sys2Proof.Machine

/-! ### Operations without a loop -/

theorem exec_ckadd (sym : BitVec 9) (s : State) :
    exec (.ckadd sym) s = .next (s.mapBlk (Block.ckAdded sym.toInt)) := by rfl

theorem verify_of_matches {s : State} (h : checksumMatches s.blk = true) : verify s = .ok () s := if_pos h

theorem verify_of_not_matches {s : State} (h : ¬ checksumMatches s.blk = true) :
    verify s = .fail .checksum s := if_neg h

theorem exec_verify_of_ok {s t : State} (h : verify s = .ok () t) : exec .verify s = .next t := by
  change settle (verify s) = _
  rw [h]
  rfl

theorem exec_verify_of_fail {s t : State} {c : Cause} (h : verify s = .fail c t) :
    exec .verify s = .next (failExit c t) := by
  change settle (verify s) = _
  rw [h]
  rfl

theorem execDecblk_of_fail {n : BitVec 16} {s t : State} {c : Cause} (h : decblk n s = .fail c t) :
    execDecblk n s = .next (failExit c t) := by
  rw [execDecblk, h]
  rfl

/-! ### `DECBLK 0` -/

/-- The loop decodes nothing once the samples are there, whatever the fuel (R114). -/
theorem tripleLoop_of_le {s : State} (h : s.blk.nreq.toNat ≤ s.blk.nout.toNat) (k : Nat) :
    tripleLoop k s = .ok () s := by
  cases k <;> exact if_neg (Nat.not_lt.2 h)

/-- With no sample asked for, the loop decodes nothing (R119). -/
theorem allTriples_headerLoaded_zero (s : State) :
    allTriples (headerLoaded 0 s) = .ok () (headerLoaded 0 s) :=
  tripleLoop_of_le (s := headerLoaded 0 s) le_rfl _

/-- No symbol was added to `CK`, so only the header's checksum field decides (R119). -/
theorem checksumMatches_headerLoaded_iff (n : BitVec 16) (s : State) :
    checksumMatches (headerLoaded n s).blk = true ↔ (inByte s 1).toNat / 32 = 0 := by
  rw [checksumMatches_iff, ← headerChecksum_toNat]
  exact eq_comm

/-- `DECBLK 0` commits right after the header where the checksum field is 0 (R119). -/
theorem decblk_zero_ok {s : State} (hlen : 6 ≤ s.len.toNat) (hm : (inByte s 1).toNat % 32 < 16)
    (hck : (inByte s 1).toNat / 32 = 0) : decblk 0 s = .ok () ((headerLoaded 0 s).mapBlk Block.committed) :=
  decblk_of (hdr_begun_iff.2 ⟨hlen, (headerModel_toNat _).trans_lt hm, rfl⟩) (allTriples_headerLoaded_zero s)
    ((checksumMatches_headerLoaded_iff 0 s).2 hck)

theorem decblk_zero_fail {s : State} (hlen : 6 ≤ s.len.toNat) (hm : (inByte s 1).toNat % 32 < 16)
    (hck : (inByte s 1).toNat / 32 ≠ 0) : decblk 0 s = .fail .checksum (headerLoaded 0 s) := by
  have hhdr : hdr (s.mapBlk (Block.begun 0)) = .ok () (headerLoaded 0 s) :=
    hdr_begun_iff.2 ⟨hlen, (headerModel_toNat _).trans_lt hm, rfl⟩
  rw [decblk, hhdr, ok_andThen, allTriples_headerLoaded_zero, ok_andThen,
    verify_of_not_matches (mt (checksumMatches_headerLoaded_iff 0 s).1 hck), fail_andThen]

/-! ### The last sample -/

/-- Where the last triple does not escape, the last sample is the integrator's final value (R123). -/
theorem samplesOf_getLast? (mode : Sym128Mode) (qs : Nat) (w : Triple Word) {ts : List (Triple Int)} (hne : ts ≠ [])
    (hclosed : ∀ q, ts.getLast? = some q → escapes q = false) :
    (samplesOf mode qs w ts).getLast? = some (movedAll mode qs w ts) := by
  induction ts generalizing w with
  | nil => exact absurd rfl hne
  | cons q ts ih =>
    cases ts with
    | nil =>
      simp [samplesOf, hclosed q rfl, movedAll]
    | cons q' ts =>
      have hlast := ih (moved mode qs w q) (List.cons_ne_nil _ _) fun u hu => hclosed u hu
      rw [samplesOf]
      split
      · exact hlast
      · rw [List.getLast?_cons, hlast]
        rfl

/-- A block of `n` samples has `n` of them to write (R103, R117). -/
theorem samplesOf_length_of_block {p : Params} {bytes left : List Byte} {n qs : Nat} {ts : List (Triple Int)}
    (h : BlockDecodes p bytes n qs ts left) (mode : Sym128Mode) (w : Triple Word) :
    (samplesOf mode qs w ts).length = n :=
  (samplesOf_length mode qs w ts).trans h.count

/-- The last sample of a block is the value it commits (R117, R123). -/
theorem samplesOf_last_of_block {p : Params} {bytes left : List Byte} {n qs : Nat} {ts : List (Triple Int)}
    (h : BlockDecodes p bytes n qs ts left) (hn : n ≠ 0) (mode : Sym128Mode) (w : Triple Word) :
    (samplesOf mode qs w ts)[n - 1]? = some (movedAll mode qs w ts) := by
  have hne : ts ≠ [] := by
    rintro rfl
    exact hn h.count.symm
  rw [← samplesOf_getLast? mode qs w hne h.closed, List.getLast?_eq_getElem?, samplesOf_length_of_block h]

/-! ### Two runs on the same inputs (R120) -/

/-- One lane of a triple. -/
def lane {α : Type} (i : Axis) (t : Triple α) : α :=
  match i with
  | .x => t.x
  | .y => t.y
  | .z => t.z

theorem lane_setAxis {α : Type} (i j : Axis) (t : Triple α) (v : α) :
    lane j (setAxis t i v) = if j = i then v else lane j t := by
  cases i <;> cases j <;> rfl

/-- What the host sees of a command apart from the result registers is the same in `s` and `s'`: `S`, the samples
counted and their slots, and `OVF` where `sameFlag` holds. -/
structure SameOutput (sameFlag : Prop) (s s' : State) : Prop where
  regS : s'.blk.regS = s.blk.regS
  nout : s'.blk.nout = s.blk.nout
  ovf : sameFlag → s'.blk.ovf = s.blk.ovf
  slots : ∀ k, k < s.blk.nout.toNat → outSlot s' k = outSlot s k

/-- Two runs of `DECBLK` stand at the same point: they agree on the parameters, the slice and every register that a
later micro-operation reads. `SYM` keeps what stood there before the command until a symbol is stored, so it is
compared on `lanes` only. -/
structure SameRun (sameFlag : Prop) (lanes : List Axis) (s s' : State) : Prop extends SameOutput sameFlag s s' where
  params : s'.params = s.params
  slice : sliceOf s' = sliceOf s
  regW : s'.blk.regW = s.blk.regW
  rstate : s'.blk.rstate = s.blk.rstate
  cur : s'.blk.cur = s.blk.cur
  qs : s'.blk.qs = s.blk.qs
  mi : s'.blk.mi = s.blk.mi
  hck : s'.blk.hck = s.blk.hck
  ck : s'.blk.ck = s.blk.ck
  nreq : s'.blk.nreq = s.blk.nreq
  sym : ∀ i ∈ lanes, lane i s'.blk.sym = lane i s.blk.sym

/-- Two micro-operations end alike: with the same result in states that `next` relates, with the same cause in states
whose outputs agree, or by stopping for the same reason. -/
inductive Micro.Alike {α : Type} (sameFlag : Prop) (next : State → State → Prop) : Micro α → Micro α → Prop where
  | ok (a : α) {s s' : State} (h : next s s') : Alike sameFlag next (.ok a s) (.ok a s')
  | fail (c : Cause) {s s' : State} (h : SameOutput sameFlag s s') : Alike sameFlag next (.fail c s) (.fail c s')
  | fault (f : Fault) : Alike sameFlag next (.fault f) (.fault f)

section SameRuns

variable {sameFlag : Prop} {lanes : List Axis} {s s' : State}

theorem Micro.Alike.andThen {α β : Type} {R Q : State → State → Prop} {m m' : Micro α}
    {next : α → State → Micro β} (hm : m.Alike sameFlag R m')
    (hnext : ∀ a s s', R s s' → (next a s).Alike sameFlag Q (next a s')) :
    (m.andThen next).Alike sameFlag Q (m'.andThen next) := by
  cases hm with
  | ok a h => exact hnext a _ _ h
  | fail c h => exact .fail c h
  | fault f => exact .fault f

theorem len_eq_of_sliceOf_eq (h : sliceOf s' = sliceOf s) : s'.len = s.len :=
  BitVec.eq_of_toNat_eq (by rw [← sliceOf_length, ← sliceOf_length, h])

/-- The slice holds the same header bytes wherever it lies in memory (R40). -/
theorem inByte_eq_of_sliceOf_eq (h : sliceOf s' = sliceOf s) {k : Nat} (hk : k < s.len.toNat) :
    inByte s' k = inByte s k := by
  have hbyte : (sliceOf s)[k]? = some (inByte s k) := Memory.readBytes_getElem? _ _ _ _ hk
  have hbyte' : (sliceOf s')[k]? = some (inByte s' k) :=
    Memory.readBytes_getElem? _ _ _ _ (len_eq_of_sliceOf_eq h ▸ hk)
  rw [h, hbyte] at hbyte'
  exact (Option.some.inj hbyte').symm

namespace SameRun

theorem unreadOf_eq (h : SameRun sameFlag lanes s s') : unreadOf s' = unreadOf s := by
  rw [unreadOf, unreadOf, h.slice, h.cur]

theorem symbolUnder_eq (h : SameRun sameFlag lanes s s') : symbolUnder s' = symbolUnder s := by
  rw [symbolUnder, symbolUnder, cumOf, cumOf, modelOf, modelOf, h.params, h.rstate, h.mi]

theorem decodeBound_eq (h : SameRun sameFlag lanes s s') : decodeBound s' = decodeBound s := by
  rw [decodeBound, decodeBound, len_eq_of_sliceOf_eq h.slice, h.cur, h.rstate]

theorem afterWithAx (h : SameRun sameFlag lanes s s') (i : Axis) :
    SameRun sameFlag lanes (s.mapBlk (Block.withAx i)) (s'.mapBlk (Block.withAx i)) := { h with }

theorem afterPulledTo (h : SameRun sameFlag lanes s s') (r k : Nat) :
    SameRun sameFlag lanes (s.mapBlk (Block.pulledTo r k)) (s'.mapBlk (Block.pulledTo r k)) :=
  { h with
    rstate := rfl
    cur := congrArg (· + BitVec.ofNat 32 k) h.cur }

theorem afterSymbolStored (h : SameRun sameFlag lanes s s') (i : Axis) (x : Int) :
    SameRun sameFlag (i :: lanes) (symbolStored i x s) (symbolStored i x s') :=
  { h with
    ck := congrArg (checksumAdd · x) h.ck
    sym := by
      intro j hj
      change lane j (setAxis s'.blk.sym i (storedSymbol s'.params.sym128 x)) =
        lane j (setAxis s.blk.sym i (storedSymbol s.params.sym128 x))
      rw [lane_setAxis, lane_setAxis, h.params]
      split
      · rfl
      · rename_i hji
        exact h.sym j (List.mem_of_ne_of_mem hji hj) }

/-- With all three lanes stored, the triples agree. -/
theorem sym_eq (h : SameRun sameFlag [.z, .y, .x] s s') : s'.blk.sym = s.blk.sym := by
  change Triple.mk (lane .x s'.blk.sym) (lane .y s'.blk.sym) (lane .z s'.blk.sym) = s.blk.sym
  rw [h.sym .x (by simp), h.sym .y (by simp), h.sym .z (by simp)]
  rfl

/-- After `APPLY` no later micro-operation reads a stored symbol. -/
theorem afterApplied (h : SameRun sameFlag [.z, .y, .x] s s') :
    SameRun sameFlag [] (s.mapBlk Block.applied) (s'.mapBlk Block.applied) :=
  { h with
    regW := by simp [integrated, h.regW, h.qs, h.sym_eq]
    ovf := fun hp => by simp [applyOverflows, h.ovf hp, h.regW, h.qs, h.sym_eq]
    sym := nofun }

theorem afterEmitted (h : SameRun sameFlag lanes s s') : SameRun sameFlag lanes (emitted s) (emitted s') :=
  { h with
    nout := congrArg (· + 1) h.nout
    slots := by
      intro k hk
      change k < (s.blk.nout + 1).toNat at hk
      change outSlot (memWriteOut s' s'.blk.nout.toNat s'.blk.regW) k =
        outSlot (memWriteOut s s.blk.nout.toNat s.blk.regW) k
      rw [h.nout, h.regW]
      by_cases hlast : k = s.blk.nout.toNat
      · rw [hlast, outSlot_memWriteOut_same, outSlot_memWriteOut_same]
      · have hle : (s.blk.nout + 1).toNat ≤ s.blk.nout.toNat + 1 := Nat.mod_le _ _
        rw [outSlot_memWriteOut_other hlast, outSlot_memWriteOut_other hlast, h.slots k (by omega)] }

theorem decsym_alike (h : SameRun sameFlag lanes s s') :
    (decsym s).Alike sameFlag (SameRun sameFlag lanes) (decsym s') := by
  rw [decsym_eq, decsym_eq, modelOf, modelOf, h.symbolUnder_eq, h.unreadOf_eq, h.params, h.mi, h.rstate]
  split
  · exact .fault _
  · split
    · exact .fail _ h.toSameOutput
    · split
      · exact .ok _ (h.afterPulledTo _ _)
      · exact .fail _ (h.afterPulledTo _ _).toSameOutput

theorem decodeSymbol_alike (h : SameRun sameFlag lanes s s') (i : Axis) :
    (decodeSymbol i s).Alike sameFlag (SameRun sameFlag (i :: lanes)) (decodeSymbol i s') := by
  refine (h.afterWithAx i).decsym_alike.andThen fun x t t' ht => ?_
  rw [ht.params]
  split
  · exact .fail _ ht.toSameOutput
  · have hstored := ht.afterSymbolStored i x
    rw [symbolStored, symbolStored, ht.params] at hstored
    exact .ok _ hstored

theorem tripleStep_alike (h : SameRun sameFlag [] s s') :
    (tripleStep s).Alike sameFlag (SameRun sameFlag []) (tripleStep s') := by
  have htriple : (decodeTriple s).Alike sameFlag (SameRun sameFlag [.z, .y, .x]) (decodeTriple s') :=
    (h.decodeSymbol_alike .x).andThen fun _ _ _ hx =>
      (hx.decodeSymbol_alike .y).andThen fun _ _ _ hy => hy.decodeSymbol_alike .z
  refine htriple.andThen fun _ t t' ht => ?_
  rw [applyTriple, applyTriple, ok_andThen, ok_andThen, ht.sym_eq]
  split
  · exact .ok _ ht.afterApplied
  · exact .ok _ ht.afterApplied.afterEmitted

theorem tripleLoop_alike (h : SameRun sameFlag [] s s') (k : Nat) :
    (tripleLoop k s).Alike sameFlag (SameRun sameFlag []) (tripleLoop k s') := by
  induction k generalizing s s' with
  | zero =>
    rw [tripleLoop, tripleLoop, h.nout, h.nreq]
    split
    · exact .fault _
    · exact .ok _ h
  | succ k ih =>
    rw [tripleLoop, tripleLoop, h.nout, h.nreq]
    split
    · exact h.tripleStep_alike.andThen fun _ _ _ ht => ih ht
    · exact .ok _ h

theorem allTriples_alike (h : SameRun sameFlag [] s s') :
    (allTriples s).Alike sameFlag (SameRun sameFlag []) (allTriples s') := by
  rw [allTriples, allTriples, h.decodeBound_eq]
  exact h.tripleLoop_alike _

theorem verify_alike (h : SameRun sameFlag lanes s s') :
    (verify s).Alike sameFlag (SameRun sameFlag lanes) (verify s') := by
  rw [verify, verify, checksumMatches, checksumMatches, h.ck, h.hck]
  split
  · exact .ok _ h
  · exact .fail _ h.toSameOutput

end SameRun

/-! ### `DECBLK` on the same inputs -/

/-- The two states agree on what `DECBLK` takes as input (R120). -/
structure SameInput (s s' : State) : Prop where
  params : s'.params = s.params
  slice : sliceOf s' = sliceOf s
  regS : s'.blk.regS = s.blk.regS

theorem SameInput.afterBegun (h : SameInput s s') (n : BitVec 16) :
    SameOutput (s'.blk.ovf = s.blk.ovf) (s.mapBlk (Block.begun n)) (s'.mapBlk (Block.begun n)) where
  regS := h.regS
  nout := rfl
  ovf := id
  slots k hk := absurd hk (Nat.not_lt_zero k)

/-- The header sets every register that the loop reads and `DECBLK` has not set before (R112, R113). -/
theorem SameInput.afterHeader (h : SameInput s s') (hlen : 6 ≤ s.len.toNat) (n : BitVec 16) :
    SameRun (s'.blk.ovf = s.blk.ovf) [] (headerLoaded n s) (headerLoaded n s') := by
  have hbyte {k : Nat} (hk : k < 6) : inByte s' k = inByte s k :=
    inByte_eq_of_sliceOf_eq h.slice (hk.trans_le hlen)
  have hseed : headerSeed s' = headerSeed s := by
    rw [headerSeed, headerSeed, hbyte (by omega), hbyte (by omega), hbyte (by omega), hbyte (by omega)]
  exact
    { h.afterBegun n with
      params := h.params
      slice := h.slice
      regW := h.regS
      rstate := hseed
      cur := rfl
      qs := hbyte (by omega)
      mi := congrArg headerModel (hbyte (by omega))
      hck := congrArg headerChecksum (hbyte (by omega))
      ck := rfl
      nreq := rfl
      sym := nofun }

theorem SameInput.hdr_alike (h : SameInput s s') (n : BitVec 16) :
    (hdr (s.mapBlk (Block.begun n))).Alike (s'.blk.ovf = s.blk.ovf) (SameRun (s'.blk.ovf = s.blk.ovf) [])
      (hdr (s'.mapBlk (Block.begun n))) := by
  have hlen : s'.len = s.len := len_eq_of_sliceOf_eq h.slice
  rcases Nat.lt_or_ge s.len.toNat 6 with hshort | hlong
  · rw [hdr_truncated (s := s.mapBlk _) hshort, hdr_truncated (s := s'.mapBlk _) (hlen ▸ hshort)]
    exact .fail _ (h.afterBegun n)
  · have hloaded := h.afterHeader hlong n
    have hbyte : inByte s' 1 = inByte s 1 := inByte_eq_of_sliceOf_eq h.slice (by omega)
    rcases Nat.lt_or_ge ((inByte s 1).toNat % 32) 16 with hm | hm
    · rw [hdr_loads (s := s.mapBlk _) hlong hm, hdr_loads (s := s'.mapBlk _) (hlen ▸ hlong) (hbyte ▸ hm)]
      exact .ok _ hloaded
    · rw [hdr_badModel (s := s.mapBlk _) hlong hm, hdr_badModel (s := s'.mapBlk _) (hlen ▸ hlong) (hbyte ▸ hm)]
      exact .fail _ hloaded.toSameOutput

/-- The result of a command is the same in `t` and `t'`. -/
structure SameResult (sameFlag : Prop) (t t' : State) : Prop extends SameOutput sameFlag t t' where
  status : t'.blk.status = t.blk.status
  cause : t'.blk.cause = t.blk.cause
  resBytes : t'.blk.resBytes = t.blk.resBytes
  resSamples : t'.blk.resSamples = t.blk.resSamples

theorem SameRun.afterCommitted (h : SameRun sameFlag lanes s s') :
    SameResult sameFlag (s.mapBlk Block.committed) (s'.mapBlk Block.committed) :=
  { h.toSameOutput with
    regS := h.regW
    status := rfl
    cause := rfl
    resBytes := h.cur
    resSamples := h.nout }

theorem SameOutput.afterFailExit (h : SameOutput sameFlag s s') (c : Cause) :
    SameResult sameFlag (failExit c s) (failExit c s') :=
  { h with
    status := rfl
    cause := rfl
    resBytes := rfl
    resSamples := rfl }

theorem SameInput.decblk_alike (h : SameInput s s') (n : BitVec 16) :
    (decblk n s).Alike (s'.blk.ovf = s.blk.ovf) (SameResult (s'.blk.ovf = s.blk.ovf)) (decblk n s') :=
  (h.hdr_alike n).andThen fun _ _ _ ha => ha.allTriples_alike.andThen fun _ _ _ hb =>
    hb.verify_alike.andThen fun _ _ _ hc => .ok () hc.afterCommitted

/-- Both commands end, and with the same result (R120). -/
theorem SameInput.execDecblk_sameResult (h : SameInput s s') (n : BitVec 16) :
    ∃ t t', execDecblk n s = .next t ∧ execDecblk n s' = .next t' ∧
      SameResult (s'.blk.ovf = s.blk.ovf) t t' := by
  have halike := h.decblk_alike n
  unfold execDecblk
  generalize hm : decblk n s = m at halike ⊢
  generalize decblk n s' = m' at halike ⊢
  cases halike with
  | ok a hr => exact ⟨_, _, rfl, rfl, hr⟩
  | fail c ho => exact ⟨_, _, rfl, rfl, ho.afterFailExit c⟩
  | fault f => exact absurd hm (decblk_no_fault n s f)

end SameRuns

/-- A success has written as many samples as were asked for (R117). -/
theorem decblk_ok_nout {n : BitVec 16} {s t : State} (h : decblk n s = .ok () t) : t.blk.nout = n := by
  obtain ⟨qs, ts, left, -, hcommit⟩ := decblk_ok_block h
  obtain ⟨a, u, -, -, -, rfl⟩ := decblk_ok h
  exact hcommit.resSamples

end Sys2Proof.Machine

/-! ### The obligations -/

namespace Sys2Proof

open Sys2Proof.Machine

/-- Settles O26, from `decblk_of_block` and the frame of a successful `DECBLK`. -/
theorem decblkDecodesWellFormedBlocks : Obligations.DecblkDecodesWellFormedBlocks := by
  intro n s qs ts left hblock
  obtain ⟨t, hok, hcommit⟩ := decblk_of_block hblock
  have hbytes := hcommit.resBytes
  have hf : DecblkFrame n s t := decblk_ok_frame hok
  exact ⟨t, execDecblk_of_ok hok, hcommit.status, hcommit.cause, hcommit.regS, by omega, hcommit.resSamples,
    hcommit.ovf, hcommit.slots, hf.slots, hf.params, hf.mem, hf.inBase, hf.len, hf.host, hf.request, hf.ret,
    hf.freeCtr⟩

/-- Settles O27, from `decblk_ok_block`. -/
theorem onlyWellFormedBlocksSucceed : Obligations.OnlyWellFormedBlocksSucceed := by
  intro n s t h hdone
  obtain ⟨qs, ts, left, hblock, hcommit⟩ := decblk_ok_block (execDecblk_done h hdone)
  exact ⟨qs, ts, left, hblock, (Nat.add_comm _ _).trans hcommit.resBytes, hcommit.regS⟩

/-- Settles O28: two runs that start on the same inputs stand at the same point after every micro-operation
(`SameRun`). -/
theorem decblkDependsOnItsInputsOnly : Obligations.DecblkDependsOnItsInputsOnly := by
  intro n s s' hparams hslice hregS
  obtain ⟨t, t', ht, ht', hr⟩ := SameInput.execDecblk_sameResult ⟨hparams, hslice, hregS⟩ n
  exact ⟨t, t', ht, ht', hr.regS, hr.status, hr.cause, hr.resBytes, hr.resSamples, hr.ovf, hr.nout,
    fun hdone => decblk_ok_nout (execDecblk_done ht hdone), hr.slots⟩

/-- Settles O22: the counts are the commit's, and the samples are those of the block that was decoded, whose last
triple does not escape. -/
theorem successfulDecblkCommits : Obligations.SuccessfulDecblkCommits := by
  intro n s t h hdone
  have hok := execDecblk_done h hdone
  obtain ⟨qs, ts, left, hblock, hcommit⟩ := decblk_ok_block hok
  have hbytes := hcommit.resBytes
  have hcommitted : 6 ≤ t.blk.resBytes.toNat ∧ t.blk.regS = t.blk.regW := by
    cases execDecblk_decoded h with
    | failed c u hc hu ht => subst ht; cases hdone
    | committed u hu hcur ht => subst ht; exact ⟨hcur, rfl⟩
  refine ⟨hcommit.cause, hcommit.resSamples, hcommitted.1, by omega, hcommitted.2, fun k hk => ?_, fun hn => ?_⟩
  · rw [hcommit.slots k hk]
    exact ⟨_, List.getElem?_eq_getElem ((samplesOf_length_of_block hblock _ _).symm ▸ hk)⟩
  · have hpos : n.toNat ≠ 0 := fun h0 => hn (BitVec.eq_of_toNat_eq h0)
    rw [hcommit.slots _ (by omega), hcommit.regS]
    exact samplesOf_last_of_block hblock hpos _ _

/-- Settles O24: the failures of the header are those of every `DECBLK`; then the loop is empty. -/
theorem decblkOfNoSamples : Obligations.DecblkOfNoSamples := by
  refine fun s => ⟨fun hlen => ?_, fun hlen hm => ?_, fun hlen hm hck => ?_, fun hlen hm hck => ?_⟩
  · exact ⟨_, exec_decblk_of_hdr_fail (hdr_truncated hlen), rfl, rfl⟩
  · exact ⟨_, exec_decblk_of_hdr_fail (hdr_badModel hlen hm), rfl, rfl⟩
  · exact ⟨_, execDecblk_of_ok (decblk_zero_ok hlen hm hck), rfl, rfl, rfl, rfl, rfl, rfl, rfl, rfl⟩
  · exact ⟨_, execDecblk_of_fail (decblk_zero_fail hlen hm hck), rfl, rfl, rfl⟩

/-- Settles O45: a sum modulo 256 is also one modulo 8. -/
theorem checksumIsTheSumModulo8 : Obligations.ChecksumIsTheSumModulo8 := by
  intro syms
  have hsum := foldl_checksumAdd_toNat syms 0
  rw [show (0 : BitVec 8).toNat = 0 from rfl] at hsum
  omega

/-- Settles O17. -/
theorem nopChangesNothing : Obligations.NopChangesNothing :=
  fun n _ => ⟨decodeCmd_cmdWord 0b00 n, rfl⟩

/-- Settles O18. -/
theorem clrZeroesTheVisibleState : Obligations.ClrZeroesTheVisibleState :=
  fun n _ => ⟨decodeCmd_cmdWord 0b01 n, rfl⟩

/-- Settles O19. -/
theorem reservedCommandFailsWithBadCmd : Obligations.ReservedCommandFailsWithBadCmd :=
  fun n _ => ⟨decodeCmd_cmdWord 0b11 n, rfl⟩

/-- Settles O44, from `checksumAdd_toNat`. -/
theorem ckaddAddsModulo256 : Obligations.CkaddAddsModulo256 :=
  fun sym s => ⟨_, exec_ckadd sym s, checksumAdd_toNat _ _⟩

/-- Settles O46, by whether the three bits agree. -/
theorem verifyComparesThreeBits : Obligations.VerifyComparesThreeBits := by
  refine fun s => ⟨fun h => ?_, fun h => ?_⟩
  · exact exec_verify_of_ok (verify_of_matches ((checksumMatches_iff _).2 h))
  · exact exec_verify_of_fail (verify_of_not_matches (mt (checksumMatches_iff _).1 h))

end Sys2Proof
end

section
/-! SUPPORT. The host (44_host_container.md): the steps that run no instruction, the lists that `DT` and `ACC` append
to, index by index, how `GYRO` ends, and which bytes `ORIENT` stores; then the statements about the container's
records. -/

namespace Sys2Proof.Machine

/-! ### Steps that run no instruction (R131, R132, R145, R146) -/

/-- Outside the dispatch loop, cancelled or with an I/O error pending, the host fetches nothing. -/
theorem step_of_not_readsRecord {s : State} (hr : s.request = .stream) (h : readsRecord s.host = false) :
    step s = .next (withoutFetch s) := by
  have hf : fetch s = none := by simp [fetch, hr, h]
  rw [step, hf]

theorem readsRecord_of_phase_ne {h : Container} (hphase : h.phase ≠ .records) : readsRecord h = false := by
  simp [readsRecord, hphase]

theorem readsRecord_of_cancel {h : Container} (hcancel : h.cancel = true) : readsRecord h = false := by
  simp [readsRecord, hcancel]

theorem readsRecord_of_ioError {h : Container} (hio : h.ioError = true) : readsRecord h = false := by
  simp [readsRecord, hio]

/-- Before the file header the host begins the parse, whether or not it is cancelled (R131). -/
theorem step_header {s : State} (hr : s.request = .stream) (hphase : s.host.phase = .header) :
    step s = .next (beginParse s) := by
  rw [step_of_not_readsRecord hr (readsRecord_of_phase_ne (by simp [hphase])), withoutFetch, hr]
  simp [hphase]

theorem step_finished {s : State} {o : ParseOutcome} (hr : s.request = .stream)
    (hphase : s.host.phase = .finished o) : step s = .next s := by
  rw [step_of_not_readsRecord hr (readsRecord_of_phase_ne (by simp [hphase])), withoutFetch, hr]
  simp [hphase]

theorem step_cancelled {s : State} (hr : s.request = .stream) (hphase : s.host.phase = .records)
    (hcancel : s.host.cancel = true) : step s = .next (s.mapHost Container.ended) := by
  rw [step_of_not_readsRecord hr (readsRecord_of_cancel hcancel), withoutFetch, hr]
  simp [hphase, hcancel]

theorem step_records_ioError {s : State} (hr : s.request = .stream) (hphase : s.host.phase = .records)
    (hcancel : s.host.cancel = false) (hio : s.host.ioError = true) :
    step s = .next (s.mapHost (Container.failedWith .ioFailure)) := by
  rw [step_of_not_readsRecord hr (readsRecord_of_ioError hio), withoutFetch, hr]
  simp [hphase, hcancel, hio]

/-- A record cut off by the end of the stream ends the parse (R145). -/
theorem step_cutRecord {s : State} (hr : s.request = .stream) (hphase : s.host.phase = .records)
    (hcancel : s.host.cancel = false) (hio : s.host.ioError = false)
    (hcut : decode .record s.host.accCount.toNat (s.mem.readBytes s.host.pos (streamLeft s)) = .error .truncated) :
    step s = .next (s.mapHost Container.ended) := by
  rw [step_of_undecodable ((fetch_record hr hphase hcancel hio).trans (congrArg some hcut)), undecoded, hr]

theorem beginParse_ioError {s : State} (hio : s.host.ioError = true) :
    beginParse s = s.mapHost (Container.failedWith .ioFailure) := if_pos hio

theorem beginParse_short {s : State} (hio : s.host.ioError = false) (hleft : streamLeft s < Config.magicLen) :
    beginParse s = s.mapHost fun h => h.fresh.ended := by
  rw [beginParse, hio, if_neg Bool.false_ne_true, if_pos hleft]

theorem beginParse_started {s : State} (hio : s.host.ioError = false) (hleft : Config.magicLen ≤ streamLeft s) :
    beginParse s = (s.mapBlk Block.cleared).mapHost fun h => h.fresh.pastHeader := by
  rw [beginParse, hio, if_neg Bool.false_ne_true, if_neg (Nat.not_lt.2 hleft)]

/-- With something flushed a parse that ends is a success (R145). -/
theorem outcomeOf_of_output {h : Container} (hout : h.gyroOut ≠ [] ∨ h.accOut ≠ []) : outcomeOf h = .success :=
  if_neg fun ⟨hgyro, hacc⟩ => hout.elim (absurd hgyro) (absurd hacc)

theorem outcomeOf_of_empty {h : Container} (hgyro : h.gyroOut = []) (hacc : h.accOut = []) :
    outcomeOf h = .noSamples := if_pos ⟨hgyro, hacc⟩

theorem Container.ended_of_output {h : Container} (hout : h.gyroOut ≠ [] ∨ h.accOut ≠ []) :
    h.ended = { h with phase := .finished .success } := by
  rw [ended, outcomeOf_of_output hout]

theorem Container.ended_of_empty {h : Container} (hgyro : h.gyroOut = []) (hacc : h.accOut = []) :
    h.ended = { h with phase := .finished .noSamples } := by
  rw [ended, outcomeOf_of_empty hgyro hacc]

/-! ### `SETUP` -/

theorem exec_setup_one (capacity : BitVec 16) (s : State) :
    exec (.setup 1 capacity) s = .next (State.mapHost (fun h => { h with capacity := capacity })
      { s with out := resized capacity s.out }) := by rfl

theorem exec_setup_of_ne {revision : Byte} (h : revision ≠ 1) (capacity : BitVec 16) (s : State) :
    exec (.setup revision capacity) s = .next (s.mapHost (Container.failedWith .badRevision)) := if_neg h

/-! ### `DT` -/

theorem exec_dt (d : Word) (s : State) :
    exec (.dt d) s =
      .next ((s.mapHost (Container.flushed d.toNat s.freeCtr)).useFree (flushFree d.toNat s.host)) := by rfl

theorem exec_dt_zero (s : State) :
    exec (.dt 0) s =
      .next ((s.mapHost (Container.flushed 0 s.freeCtr)).useFree (3 * s.host.gyroBuf.length)) := by rfl

/-- What stands `k` places into the list that was appended. -/
theorem getElem?_append_length_add {α : Type} (l m : List α) (k : Nat) : (l ++ m)[l.length + k]? = m[k]? := by
  rw [List.getElem?_append_right (Nat.le_add_right _ _), Nat.add_sub_cancel_left]

section Flushed

variable (dtUs free : Nat) (h : Container)

theorem Container.flushed_gyroOut_length :
    (h.flushed dtUs free).gyroOut.length = h.gyroOut.length + h.gyroBuf.length := by simp

theorem Container.flushed_accOut_length :
    (h.flushed dtUs free).accOut.length = h.accOut.length + h.accBuf.length := by simp

theorem Container.flushed_gyroOut_take : (h.flushed dtUs free).gyroOut.take h.gyroOut.length = h.gyroOut :=
  List.take_left

theorem Container.flushed_accOut_take : (h.flushed dtUs free).accOut.take h.accOut.length = h.accOut :=
  List.take_left

/-- A window of length zero leaves the clock where it was. -/
theorem Container.flushed_zero : h.flushed 0 free =
    { h with
      gyroBuf := [], accBuf := [], gyroOut := (h.flushed 0 free).gyroOut, accOut := (h.flushed 0 free).accOut } := by
  conv_lhs => rw [flushed, Nat.cast_zero, add_zero]
  rfl

variable {h}

/-- The sample of the `k`-th accumulated gyroscope triple (R135, R142). -/
theorem Container.flushed_gyroOut_getElem? {k : Nat} {raw : Triple Word} (hraw : h.gyroBuf[k]? = some raw) :
    (h.flushed dtUs free).gyroOut[h.gyroOut.length + k]? = some
      ⟨timestamp h.clockUs dtUs h.gyroBuf.length k,
        ⟨gyroScalar dtUs h.gyroBuf.length (free + 3 * k) raw.x,
          gyroScalar dtUs h.gyroBuf.length (free + 3 * k + 1) raw.y,
          gyroScalar dtUs h.gyroBuf.length (free + 3 * k + 2) raw.z⟩⟩ := by
  rw [flushed_gyroOut, getElem?_append_length_add, flushGyro_getElem? _ _ _ _ _ _ hraw, Nat.zero_add]

/-- The sample of the `k`-th accumulated accelerometer triple (R135, R143). -/
theorem Container.flushed_accOut_getElem? {k : Nat} {raw : Triple Int} (hraw : h.accBuf[k]? = some raw) :
    (h.flushed dtUs free).accOut[h.accOut.length + k]? = some
      ⟨timestamp h.clockUs dtUs h.accBuf.length k, raw.map accScalar⟩ := by
  rw [flushed_accOut, getElem?_append_length_add, flushAcc_getElem? _ _ _ _ _ hraw, Nat.zero_add]

end Flushed

theorem timestamp_eq (clock : Int) (dtUs n k : Nat) :
    timestamp clock dtUs n k = ((clock : Rat) + (k : Rat) * (dtUs : Rat) / (n : Rat)) / 10 ^ 6 := by
  rw [timestamp, show (1000000 : Rat) = 10 ^ 6 by norm_num]

/-- Over a window of length zero every sample has the clock's time. -/
theorem timestamp_zero (clock : Int) (n k : Nat) : timestamp clock 0 n k = (clock : Rat) / 10 ^ 6 := by
  rw [timestamp_eq]
  simp

theorem accScalar_eq : accScalar = fun v : Int => Scalar.exact ((v : Rat) * 16 / 32767) := by
  funext v
  rw [accScalar, Config.accScale, mul_div_assoc]

/-- The factor of R142, for a window that is not empty. -/
theorem gyroScalar_of_ne {dtUs : Nat} (hd : dtUs ≠ 0) (n free : Nat) (raw : Word) :
    gyroScalar dtUs n free raw =
      .overPi ((raw.toInt : Rat) * (n : Rat) / (dtUs : Rat) * 10 ^ 6 * 180 / 2 ^ 27) := by
  rw [gyroScalar, if_neg hd, Config.gyroScale]
  congr 1
  ring

theorem gyroScalar_zero (n free : Nat) (raw : Word) :
    gyroScalar 0 n free raw = .unstated (Config.freeF64 free) := if_pos rfl

theorem flushFree_of_ne {dtUs : Nat} (hd : dtUs ≠ 0) (h : Container) : flushFree dtUs h = 0 := if_neg hd

/-! ### `GYRO` -/

/-- A `DECBLK` ends, with a commit or with a failure (R183). -/
theorem decblk_ends (n : BitVec 16) (s : State) :
    (∃ t, decblk n s = .ok () t) ∨ ∃ c t, decblk n s = .fail c t := by
  cases h : decblk n s with
  | ok a t => exact .inl ⟨t, rfl⟩
  | fail c t => exact .inr ⟨c, t, rfl⟩
  | fault f => exact absurd h (decblk_no_fault n s f)

theorem exec_gyro_of_ok {s t : State} (h : decblk s.host.capacity (lendRemainder s) = .ok () t) :
    exec .gyro s = .next (acceptBlock t) := by
  change execGyro s = _
  rw [execGyro, h]

theorem exec_gyro_of_fail {s t : State} {c : Cause}
    (h : decblk s.host.capacity (lendRemainder s) = .fail c t) :
    exec .gyro s = .next ((failExit c t).mapHost Container.ended) := by
  change execGyro s = _
  rw [execGyro, h]

/-- A `DECBLK` that fails leaves `S` as it was (R153). -/
theorem decblk_fail_regS {n : BitVec 16} {s t : State} {c : Cause} (h : decblk n s = .fail c t) :
    t.blk.regS = s.blk.regS := by
  by_contra hne
  obtain ⟨hdone, -⟩ := (decoded_of_fail h).regS hne
  cases hdone

theorem streamRest_length (s : State) : (streamRest s).length = (lendRemainder s).len.toNat := by
  rw [← sliceOf_lendRemainder, sliceOf_length]

/-- The samples of a block that was committed are in the slots that the host reads back (R26, R117). -/
theorem producedSamples_of_committed {s t : State} {bytes left : List Byte} {n : BitVec 16} {qs : Nat}
    {ts : List (Triple Int)} (hblock : BlockDecodes s.params bytes n.toNat qs ts left)
    (hcommit : BlockCommitted n qs ts left s t) :
    producedSamples t = samplesOf s.params.sym128 qs s.blk.regS ts := by
  have hlength := samplesOf_length_of_block hblock s.params.sym128 s.blk.regS
  refine producedSamples_eq (by rw [hcommit.resSamples, hlength]) fun k hk => hcommit.slots k ?_
  rwa [hlength] at hk

/-! ### `ACC` -/

theorem exec_acc (triples : List (Triple (BitVec 16))) (s : State) :
    exec (.acc triples) s =
      .next ((s.mapHost fun h => { h with accBuf := h.accBuf ++ negatedTriples s.freeCtr 0 triples }).useFree
        (3 * triples.length)) := by rfl

/-! ### `ORIENT` -/

theorem exec_orient (axes : Triple Byte) (s : State) :
    exec (.orient axes) s =
      .next (s.mapHost fun h => { h with orient := if utf8Valid axes then axes else defaultOrient }) := by rfl

theorem utf8Valid_of_ascii {t : Triple Byte} (hx : t.x.toNat < 0x80) (hy : t.y.toNat < 0x80)
    (hz : t.z.toNat < 0x80) : utf8Valid t = true := by
  simp [utf8Valid, utf8One, hx, hy, hz]

/-- No sequence of one, two or three bytes begins with `0x80` to `0xC1`, or with `0xF0` or more. -/
theorem utf8Valid_of_noLead {t : Triple Byte} (h : 0x80 ≤ t.x.toNat ∧ t.x.toNat ≤ 0xC1 ∨ 0xF0 ≤ t.x.toNat) :
    utf8Valid t = false := by
  have hone : utf8One t.x = false := decide_eq_false (by omega)
  have htwo : utf8Two t.x t.y = false := by
    simp only [utf8Two, Bool.and_eq_false_iff, decide_eq_false_iff_not]
    omega
  have hthree : utf8Three t.x t.y t.z = false := by
    simp only [utf8Three, Bool.and_eq_false_iff, decide_eq_false_iff_not]
    omega
  simp [utf8Valid, hone, htwo, hthree]

/-! ### `END` -/

theorem exec_endTag (tag : Byte) (s : State) :
    exec (.endTag tag) s = .next (s.mapHost Container.ended) := by rfl

end Sys2Proof.Machine

/-! ### The obligations -/

namespace Sys2Proof

open Sys2Proof.Machine

/-- Settles O54: the lent slice is the rest of the stream (`sliceOf_lendRemainder`), and a well-formed block is decoded
and committed (`decblk_of_block`). -/
theorem gyroAppendsADecodedBlock : Obligations.GyroAppendsADecodedBlock := by
  intro s qs ts left hblock
  rw [← sliceOf_lendRemainder] at hblock
  obtain ⟨t, hok, hcommit⟩ := decblk_of_block (s := lendRemainder s) hblock
  have hf : DecblkFrame s.host.capacity (lendRemainder s) t := decblk_ok_frame hok
  have hsamples : producedSamples t = samplesOf s.params.sym128 qs s.blk.regS ts :=
    producedSamples_of_committed (s := lendRemainder s) hblock hcommit
  have hbytes : t.blk.resBytes.toNat = (streamRest s).length - left.length := by
    rw [streamRest_length, ← hcommit.resBytes, Nat.add_sub_cancel]
  have hhost : t.host = s.host := hf.host
  refine ⟨acceptBlock t, exec_gyro_of_ok hok, hcommit.status, hcommit.cause, hcommit.regS, hbytes,
    hcommit.resSamples, hcommit.ovf, ?_, hf.inBase, ?_, hf.mem, hf.params, hf.request, hf.freeCtr, hf.ret,
    hcommit.slots, hf.slots⟩
  · rw [acceptBlock, mapHost_host, hhost, hsamples, hbytes]
  · rw [streamRest_length]
    exact congrArg BitVec.toNat hf.len

/-- Settles O6, by where the parse stands: outside the loop nothing is fetched (`step_of_not_readsRecord`), and in it a
record that is cut off is no instruction. -/
theorem hostStepsOutsideRecords : Obligations.HostStepsOutsideRecords := by
  refine fun s hr => ⟨fun hphase hio hleft => ?_, fun hphase hio hleft => ?_, fun hwhere hio => ?_,
    fun hphase hend => ?_, fun o hphase => step_finished hr hphase⟩
  · rw [step_header hr hphase, beginParse_started hio hleft]
    rfl
  · rw [step_header hr hphase, beginParse_short hio hleft]
    rfl
  · rcases hwhere with hphase | ⟨hphase, hcancel⟩
    · rw [step_header hr hphase, beginParse_ioError hio]
      rfl
    · rw [step_records_ioError hr hphase hcancel hio]
      rfl
  · have hended : step s = .next (s.mapHost Container.ended) := by
      cases hcancel : s.host.cancel with
      | true => exact step_cancelled hr hphase hcancel
      | false =>
        obtain ⟨hio, hcut⟩ := hend.resolve_left (by simp [hcancel])
        exact step_cutRecord hr hphase hcancel hio hcut
    rw [hended]
    rfl

/-- Settles O51: the slots of the resized buffer are those of `lookupAt_resized`. -/
theorem setupSetsTheCapacityOrIsFatal : Obligations.SetupSetsTheCapacityOrIsFatal := by
  refine fun revision capacity s => ⟨?_, fun hne => exec_setup_of_ne hne capacity s⟩
  rintro rfl
  refine ⟨_, exec_setup_one capacity s, rfl, fun k hk => ?_, fun k hk => ?_⟩
  · exact (lookupAt_resized capacity s.out k).trans (if_pos hk)
  · exact (lookupAt_resized capacity s.out k).trans (if_neg (Nat.not_lt.2 hk))

/-- Settles O52: the flushed lists index by index, with the factors of R142 and R143 written out. -/
theorem dtFlushesBothBuffers : Obligations.DtFlushesBothBuffers := by
  intro d s hne
  have hd : d.toNat ≠ 0 := fun h0 => hne (BitVec.eq_of_toNat_eq h0)
  have hrun := exec_dt d s
  rw [flushFree_of_ne hd] at hrun
  refine ⟨_, hrun, rfl, Container.flushed_gyroOut_length .., Container.flushed_gyroOut_take .., fun k raw hraw => ?_,
    Container.flushed_accOut_length .., Container.flushed_accOut_take .., fun k raw hraw => ?_⟩
  · refine (Container.flushed_gyroOut_getElem? _ _ hraw).trans ?_
    simp only [timestamp_eq, gyroScalar_of_ne hd]
    rfl
  · refine (Container.flushed_accOut_getElem? _ _ hraw).trans ?_
    rw [timestamp_eq, accScalar_eq]

/-- Settles O53: the same lists; every timestamp is the clock's, and every gyroscope word a free value. -/
theorem dtOfZeroCompletes : Obligations.DtOfZeroCompletes := by
  intro s
  refine ⟨_, exec_dt_zero s, ?_, Container.flushed_gyroOut_take .., Container.flushed_accOut_take ..,
    Container.flushed_accOut_length .., Container.flushed_gyroOut_length .., fun k hk => ?_, fun k raw hraw => ?_⟩
  · exact congrArg (fun h => (s.mapHost fun _ => h).useFree _) (Container.flushed_zero s.freeCtr s.host)
  · have hsample := Container.flushed_gyroOut_getElem? 0 s.freeCtr (List.getElem?_eq_getElem hk)
    rw [timestamp_zero, gyroScalar_zero, gyroScalar_zero, gyroScalar_zero] at hsample
    exact ⟨_, _, _, hsample⟩
  · refine (Container.flushed_accOut_getElem? _ _ hraw).trans ?_
    rw [timestamp_zero, accScalar_eq]

/-- Settles O55, by how the `DECBLK` ends: one that commits is `DONE`, one that fails took the failure exit, and both
keep the frame of a `DECBLK`. -/
theorem gyroFailureEndsTheParse : Obligations.GyroFailureEndsTheParse := by
  intro s
  rcases decblk_ends s.host.capacity (lendRemainder s) with ⟨t, hok⟩ | ⟨c, t, hfail⟩
  · have hf : DecblkFrame s.host.capacity (lendRemainder s) t := decblk_ok_frame hok
    obtain ⟨_, _, _, -, hcommit⟩ := decblk_ok_block hok
    exact ⟨_, exec_gyro_of_ok hok, hf.mem, hf.params, hf.request, hf.ret, hf.freeCtr, hf.slots,
      fun hne => absurd hcommit.status hne⟩
  · have hf : DecblkFrame s.host.capacity (lendRemainder s) (failExit c t) := decblk_fail_frame hfail
    have hhost : t.host = s.host := hf.host
    have hregS : t.blk.regS = s.blk.regS := decblk_fail_regS (s := lendRemainder s) hfail
    refine ⟨_, exec_gyro_of_fail hfail, hf.mem, hf.params, hf.request, hf.ret, hf.freeCtr, hf.slots,
      fun _ => ⟨rfl, hregS, rfl, rfl, ?_⟩⟩
    rw [mapHost_host, failExit_host, hhost]
    rfl

/-- Settles O57, from the negated triples index by index. -/
theorem accAppendsNegatedTriples : Obligations.AccAppendsNegatedTriples := by
  refine fun triples s => ⟨_, exec_acc triples s, rfl, ?_, List.take_left, fun k raw hraw => ?_⟩
  · simp
  · exact ⟨_, (getElem?_append_length_add _ _ k).trans (negatedTriples_getElem? _ _ _ hraw),
      fun hx => negated_of_ne hx _, fun hy => negated_of_ne hy _, fun hz => negated_of_ne hz _⟩

/-- Settles O58, by whether the bytes are UTF-8. -/
theorem orientStoresTheStringOrTheDefault : Obligations.OrientStoresTheStringOrTheDefault := by
  refine fun axes s => ⟨fun hx hy hz => ?_, fun hlead => ?_, _, exec_orient axes s, rfl, ?_⟩
  · rw [exec_orient, if_pos (utf8Valid_of_ascii hx hy hz)]
    rfl
  · rw [exec_orient, utf8Valid_of_noLead hlead]
    rfl
  · exact ite_eq_or_eq _ _ _

/-- Settles O59, by whether anything was flushed. -/
theorem endTagEndsTheParse : Obligations.EndTagEndsTheParse := by
  refine fun tag s => ⟨fun hout => ⟨_, ?_, rfl, rfl⟩, fun hgyro hacc => ⟨_, ?_, rfl, rfl⟩⟩
  · rw [exec_endTag, State.mapHost, Container.ended_of_output hout]
  · rw [exec_endTag, State.mapHost, Container.ended_of_empty hgyro hacc]

/-- Settles O56: the two arms write these fields and no other. -/
theorem accsetupRemembersAndToffMovesTheClock : Obligations.AccsetupRemembersAndToffMovesTheClock :=
  fun _ _ _ _ => ⟨rfl, rfl⟩

end Sys2Proof
end

section
/-! SUPPORT. The failure exit of `DECBLK` (60_exceptions.md, R150 and R153): the causes that each part of the sequencer
can raise; then the statement. -/

namespace Sys2Proof.Machine

/-! ### What the loop can raise -/

/-- The causes raised between the header and the check: by a `DECSYM` (R90, R91) or by the test for 128 (R112). -/
def Cause.OfSymbol (c : Cause) : Prop := c = .sentinel ∨ c = .truncRenorm ∨ c = .sym128

theorem decodeSymbol_fail_cause {i : Axis} {s t : State} {c : Cause} (h : decodeSymbol i s = .fail c t) :
    c.OfSymbol := by
  rcases decodeSymbol_fail h with hdecsym | ⟨rfl, -⟩
  · exact (decsym_fail hdecsym).1.imp_right .inl
  · exact .inr (.inr rfl)

theorem decodeTriple_fail_cause {s t : State} {c : Cause} (h : decodeTriple s = .fail c t) : c.OfSymbol := by
  rcases andThen_fail h with hx | ⟨⟨⟩, s1, -, h⟩
  · exact decodeSymbol_fail_cause hx
  · rcases andThen_fail h with hy | ⟨⟨⟩, s2, -, hz⟩
    · exact decodeSymbol_fail_cause hy
    · exact decodeSymbol_fail_cause hz

theorem tripleLoop_fail_cause {k : Nat} {s t : State} {c : Cause} (h : tripleLoop k s = .fail c t) : c.OfSymbol := by
  induction k generalizing s with
  | zero =>
    unfold tripleLoop at h
    split at h <;> cases h
  | succ k ih =>
    unfold tripleLoop at h
    split at h
    · rcases andThen_fail h with hstep | ⟨⟨⟩, s1, -, hrest⟩
      · exact decodeTriple_fail_cause (tripleStep_fail hstep)
      · exact ih hrest
    · cases h

/-! ### What a `DECBLK` can raise -/

/-- The header raises the first two causes, the loop the next three, the check the last (R150). -/
theorem decblk_fail_cause {n : BitVec 16} {s t : State} {c : Cause} (h : decblk n s = .fail c t) :
    c = .truncHdr ∨ c = .badModel ∨ c = .sentinel ∨ c = .truncRenorm ∨ c = .sym128 ∨ c = .checksum := by
  rcases decblk_fail h with hhdr | ⟨a, -, hloop | ⟨-, rfl, -⟩⟩
  · rcases hdr_fail hhdr with ⟨rfl, -⟩ | ⟨rfl, -⟩ <;> simp
  · rcases tripleLoop_fail_cause hloop with rfl | rfl | rfl <;> simp
  · simp

/-- A `DECBLK` ends in `ERR` only through the failure exit: the commit ends in `DONE` (R117). -/
theorem execDecblk_err {n : BitVec 16} {s t : State} (h : execDecblk n s = .next t) (herr : t.blk.status = .err) :
    ∃ c u, decblk n s = .fail c u ∧ t = failExit c u := by
  rcases settle_next h with hok | hfail
  · obtain ⟨a, u, -, -, -, rfl⟩ := decblk_ok hok
    cases herr
  · exact hfail

end Sys2Proof.Machine

/-! ### The obligation -/

namespace Sys2Proof

open Sys2Proof.Machine

/-- Settles O21: `ERR` means the failure exit was taken (`execDecblk_err`), which writes the cause raised
(`decblk_fail_cause`) and both counts; `S` and `OVF` are as the operations before it kept them. -/
theorem failedDecblkKeepsCommittedState : Obligations.FailedDecblkKeepsCommittedState := by
  intro n s t h herr
  have hovf := (execDecblk_decoded h).ovf
  obtain ⟨c, u, hfail, rfl⟩ := execDecblk_err h herr
  have hregS : u.blk.regS = s.blk.regS := decblk_fail_regS hfail
  exact ⟨hregS, rfl, rfl, decblk_fail_cause hfail, hovf⟩

end Sys2Proof
end

section
/-! SUPPORT. Reset and liveness (70_reset_and_hazards.md, R170 and R183): the block with nothing presented to it, and the
status that every `DECBLK` ends in; then the two statements. -/

namespace Sys2Proof.Machine

/-! ### Nothing is presented (R170) -/

theorem fetch_of_no_request {s : State} (h : s.request = .none) : fetch s = none := by
  rw [fetch, h]

/-- With nothing presented the machine waits (R170, log 8). -/
theorem step_of_no_request {s : State} (h : s.request = .none) : step s = .next s := by
  have hkeep : withoutFetch s = s := by rw [withoutFetch, h]
  rw [step, fetch_of_no_request h]
  exact congrArg Host.Outcome.next hkeep

/-- A state that a step leaves as it is stays for any number of steps. -/
theorem run_of_step_self {M : Host.Core} {s : M.State} (h : M.step s = .next s) (k : Nat) : M.run k s = .next s := by
  induction k with
  | zero => rfl
  | succ k ih => simpa only [Host.Core.run, h] using ih

/-! ### How a `DECBLK` ends (R183) -/

/-- A `DECBLK` that commits ends in `DONE` (R117), one that fails in `ERR` (R153), and it does one of the two. -/
theorem execDecblk_ends (n : BitVec 16) (s : State) :
    ∃ t, execDecblk n s = .next t ∧ (t.blk.status = .done ∨ t.blk.status = .err) := by
  rcases decblk_ends n s with ⟨t, hok⟩ | ⟨c, t, hfail⟩
  · obtain ⟨_, u, -, -, -, rfl⟩ := decblk_ok hok
    exact ⟨_, execDecblk_of_ok hok, .inl (Block.committed_status u.blk)⟩
  · exact ⟨_, execDecblk_of_fail hfail, .inr (Block.failed_status c t.blk)⟩

end Sys2Proof.Machine

/-! ### The obligations -/

namespace Sys2Proof

open Sys2Proof.Machine

/-- Settles O20: the commands without a loop by their equations, `DECBLK` by `execDecblk_ends`, which rests on the
termination of its loop (`decblk_no_fault`, R97). -/
theorem everyCommandEnds : Obligations.EveryCommandEnds := fun n s =>
  ⟨⟨_, (nopChangesNothing n s).2⟩, ⟨_, (clrZeroesTheVisibleState n s).2⟩,
    ⟨_, (reservedCommandFailsWithBadCmd n s).2⟩, execDecblk_ends n s⟩

/-- Settles O8: the registers are those of the reset state, which no step changes since it presents nothing. -/
theorem resetLeavesTheStatedValues : Obligations.ResetLeavesTheStatedValues :=
  ⟨rfl, rfl, rfl, rfl, rfl, rfl, rfl, rfl,
    run_of_step_self (M := Sys2Proof.core) (step_of_no_request (s := State.reset) rfl)⟩

end Sys2Proof
end
